-- ==== Sys2Proof/Config.lean ====
section
/-! DEFINITION. What is fixed for the whole machine. The spec leaves no value undefined (93_implementation_defined.md:
"undefined", "unspecified", "unpredictable": 0 hits), so there is no free value here. The one parameter that the spec
names, the SCHEMA (00_scope.md R13), is a field of State, and its default is in Machine/Schema.lean. -/

namespace Sys2Proof.Config

/-- The longest instruction of the ROM is 6 bytes (30_encoding.md R90). -/
def longestInstruction : Nat := 6

/-- The largest number that operand text may hold (30_encoding.md R157). -/
def largestNumber : Nat := 65535

end Sys2Proof.Config
end

