-- ==== Sys2Proof/Word.lean ====
section
/-! DEFINITION. The words of the 8086_sim CORE: bytes and 16-bit words as bit vectors (00_scope.md R14), operand
widths (10_state.md R33), and the text of the host boundary as a list of characters (R20).
Byte order, extension and bit-field helpers stand in Decode.lean. -/

namespace Sys2Proof

/-- A byte of the stream, or half of a register (R14, R31). -/
abbrev Byte := BitVec 8

/-- A 16-bit register value, immediate, displacement or address (R13). -/
abbrev Word := BitVec 16

/-- Text at the host boundary (R150 to R159): names, numbers, lines. -/
abbrev Text := List Char

/-- The width of an operand: `W = 0` is 8 bits, `W = 1` is 16 bits (30_encoding.md R108). -/
inductive Width where
  | byte
  | word
  deriving DecidableEq, Repr

end Sys2Proof
end

