-- ==== Sys2Proof/Syntax.lean ====
section
/-! DEFINITION. The syntax of the machine: register names (10_state.md R30, R32), base expressions (30_encoding.md R107),
operands and decoded instructions (10_state.md R44, R45), the records of the SCHEMA (R40 to R42), and `Instr`, one
constructor for each row of spec/opcode_table.json. -/

namespace Sys2Proof

/-! ## Registers -/

/-- The twelve 16-bit registers, in the canonical order of the register file (R30). -/
inductive Reg16 where
  | ax | bx | cx | dx | sp | bp | si | di | cs | ss | ds | es
  deriving DecidableEq, Repr

/-- The eight 8-bit names. Each is a view of one half of a parent register (R32). -/
inductive Reg8 where
  | al | ah | bl | bh | cl | ch | dl | dh
  deriving DecidableEq, Repr

/-- A register name: any of the 20 names of R30 and R32. -/
inductive RegName where
  | r16 (r : Reg16)
  | r8 (r : Reg8)
  deriving DecidableEq, Repr

/-- The access mode that a name resolves to (R33). -/
inductive AccessMode where
  | universal
  | high
  | low
  deriving DecidableEq, Repr

/-- The width of an access by this name: 16 bits for `Universal`, 8 bits for `High` and `Low` (R33). -/
def RegName.width : RegName → Width
  | .r16 _ => .word
  | .r8 _ => .byte

/-! ## Operands and decoded instructions -/

/-- The eight base expressions of R107, in the order of the r/m field. -/
inductive Base where
  | bxSi | bxDi | bpSi | bpDi | si | di | bp | bx
  deriving DecidableEq, Repr

/-- The tagged union of R44. -/
inductive Operand where
  /-- an empty operand slot -/
  | none
  | reg (name : RegName)
  | imm (v : Word)
  /-- the raw byte of a jump or loop -/
  | rel (b : Byte)
  | mem (base : Base) (disp : Word)
  | direct (a : Word)
  deriving DecidableEq, Repr

/-- The 24 mnemonics of R101. -/
inductive Mnemonic where
  | mov | add | sub | cmp
  | jo | jno | jb | jnb | je | jne | jbe | ja | js | jns | jp | jnp | jl | jnl | jle | jg
  | loopnz | loopz | loop | jcxz
  deriving DecidableEq, Repr

/-- What the Decode Unit makes of one instruction (R45). -/
structure DecodedInstruction where
  mnemonic : Mnemonic
  source : Operand
  destination : Operand
  /-- consumed bytes -/
  length : Nat
  deriving DecidableEq, Repr

/-! ## The records of the SCHEMA -/

/-- The three flags, one bit each (R41). -/
inductive Flag where
  | direction
  | signExtend
  | wordSize
  deriving DecidableEq, Repr

/-- The argument variants of R41. -/
inductive Argument where
  | mode
  | registerOrMemory
  | registerImplicit
  | registerExplicit (v : BitVec 3)
  | wordAddress
  | wordDisplacement
  | wordData
  | byte
  | segmentRegister
  | fixedBit
  deriving DecidableEq, Repr

/-- R40. `offset` is the 1-indexed position of the first bit after the fixed bits (90_conflicts.md C6). -/
structure InstructionDefinition where
  mnemonic : Mnemonic
  offset : Nat
  maxByteCount : Nat
  flags : List Flag
  args : List Argument
  impliedDirection : Option Bool
  deriving DecidableEq, Repr

/-- R42: a position and the 3-bit value expected there. -/
structure SecondaryOperand where
  bitOffset : Nat
  expected : BitVec 3
  deriving DecidableEq, Repr

/-- R42: one definition, or candidates that share the leading bits. -/
inductive Lookup where
  | single (d : InstructionDefinition)
  | multi (candidates : List (SecondaryOperand × InstructionDefinition))
  deriving DecidableEq, Repr

/-- R42: a fixed pattern with its lookup; `offset - 1` bits of the pattern are fixed. -/
structure OpcodeEntry where
  pattern : Byte
  offset : Nat
  lookup : Lookup
  deriving DecidableEq, Repr

/-- R46: a flag that the definition does not declare is `none`. -/
structure FlagSet where
  d : Option Bool
  s : Option Bool
  w : Option Bool
  deriving DecidableEq, Repr

/-! ## Instructions -/

/-- The r/m operand as the bytes give it: mode 00 with r/m 110, mode 00, mode 01, mode 10, mode 11 (R92, R106). -/
inductive RmOperand where
  | direct (a : Word)
  | base (b : Base)
  | disp8 (b : Base) (d : Byte)
  | disp16 (b : Base) (d : Word)
  | reg (r : RegName)
  deriving DecidableEq, Repr

/-- Data of the formats IMM_RM, IMM_REG and ACC_IMM: 1 byte if `w = 0`, 2 bytes if `w = 1` (R91). -/
inductive Imm where
  | byte (v : Byte)
  | word (v : Word)
  deriving DecidableEq, Repr

/-- Data of the format GRP: `s = 0, w = 0`; `s = 0, w = 1`; `s = 1` with either `w` (R91, R131). -/
inductive GrpImm where
  | byte (v : Byte)
  | word (v : Word)
  | signed (w : Width) (v : Byte)
  deriving DecidableEq, Repr

def Imm.width : Imm → Width
  | .byte _ => .byte
  | .word _ => .word

def GrpImm.width : GrpImm → Width
  | .byte _ => .byte
  | .word _ => .word
  | .signed w _ => w

/-- One constructor for each row of spec/opcode_table.json, in the table's order. The `w` bit is the width of the
register or of the data. `movImmRm` keeps the 3-bit field that the matcher does not check (R118). -/
inductive Instr where
  | movRmReg (d : Bool) (reg : RegName) (rm : RmOperand)
  | movImmRm (unchecked : BitVec 3) (rm : RmOperand) (data : Imm)
  | movImmReg (reg : RegName) (data : Imm)
  | movMemAcc (w : Width) (a : Word)
  | movAccMem (w : Width) (a : Word)
  | addRmReg (d : Bool) (reg : RegName) (rm : RmOperand)
  | addImmRm (rm : RmOperand) (data : GrpImm)
  | addImmAcc (data : Imm)
  | subRmReg (d : Bool) (reg : RegName) (rm : RmOperand)
  | subImmRm (rm : RmOperand) (data : GrpImm)
  | subImmAcc (data : Imm)
  | cmpRmReg (d : Bool) (reg : RegName) (rm : RmOperand)
  | cmpImmRm (rm : RmOperand) (data : GrpImm)
  | cmpImmAcc (data : Imm)
  | jo (b : Byte) | jno (b : Byte) | jb (b : Byte) | jnb (b : Byte)
  | je (b : Byte) | jne (b : Byte) | jbe (b : Byte) | ja (b : Byte)
  | js (b : Byte) | jns (b : Byte) | jp (b : Byte) | jnp (b : Byte)
  | jl (b : Byte) | jnl (b : Byte) | jle (b : Byte) | jg (b : Byte)
  | loopnz (b : Byte) | loopz (b : Byte) | loop (b : Byte) | jcxz (b : Byte)
  deriving DecidableEq, Repr

end Sys2Proof
end

