-- ==== Sys2Proof/WellFormed.lean ====
section
/-! DEFINITION. Which terms of `Instr` are instructions of the ROM: the registers are among the 16 that a register field
names (30_encoding.md R105; never a segment register, 10_state.md R35), one `w` bit sets both widths (R105, R204), and
the base `bp` needs a displacement, since mode 00 with r/m 110 is the direct address (R107, R125). -/

namespace Sys2Proof

/-- A register that a 3-bit register field can name (R105). -/
def RegName.encodable : RegName → Bool
  | .r16 .cs => false
  | .r16 .ss => false
  | .r16 .ds => false
  | .r16 .es => false
  | _ => true

/-- An r/m operand that the bytes can hold beside operands of width `w`. -/
def RmOperand.wf (w : Width) : RmOperand → Bool
  | .base b => b != .bp
  | .reg r => r.encodable && r.width == w
  | _ => true

/-- An instruction that the ROM encodes. -/
def Instr.wf : Instr → Bool
  | .movRmReg _ reg rm => reg.encodable && rm.wf reg.width
  | .movImmRm _ rm data => rm.wf data.width
  | .movImmReg reg data => reg.encodable && reg.width == data.width
  | .addRmReg _ reg rm => reg.encodable && rm.wf reg.width
  | .addImmRm rm data => rm.wf data.width
  | .subRmReg _ reg rm => reg.encodable && rm.wf reg.width
  | .subImmRm rm data => rm.wf data.width
  | .cmpRmReg _ reg rm => reg.encodable && rm.wf reg.width
  | .cmpImmRm rm data => rm.wf data.width
  | .movMemAcc _ _ | .movAccMem _ _ | .addImmAcc _ | .subImmAcc _ | .cmpImmAcc _ => true
  | .jo _ | .jno _ | .jb _ | .jnb _ | .je _ | .jne _ | .jbe _ | .ja _ => true
  | .js _ | .jns _ | .jp _ | .jnp _ | .jl _ | .jnl _ | .jle _ | .jg _ => true
  | .loopnz _ | .loopz _ | .loop _ | .jcxz _ => true

end Sys2Proof
end

