-- ==== Sys2Proof/Decode.lean ====
section
/-! DEFINITION. The decoder from bytes to `Instr`, written from the formats and the first-byte map of 30_encoding.md
R91 to R93, R102 and R105 to R108, and after it the encoder, written from the same tables. The decoder is total; it
rejects by name: `unmatched` (R148) and `truncated` (R82, R117, R135). Machine/Pipeline.lean holds the other reading of the same
spec, the SCHEMA-driven pipeline of R110 to R148. -/

namespace Sys2Proof

/-! ## Byte order, extension and fields -/

/-- `LE16(lo, hi)`: the first byte is the less significant (00_scope.md R17, 20_memory.md R72). -/
def le16 (lo hi : Byte) : Word := hi ++ lo

/-- The low byte of a word, which stands first in the stream (R72). -/
def lowByte (v : Word) : Byte := v.extractLsb' 0 8

/-- The high byte of a word. -/
def highByte (v : Word) : Byte := v.extractLsb' 8 8

/-- `zext_16` of 00_scope.md R18. -/
def zext16 (b : Byte) : Word := b.setWidth 16

/-- `sext_16` of R18: `0xFF00 | b` if the high bit is set, else `b`. -/
def sext16 (b : Byte) : Word := if b.msb then 0xFF00#16 ||| zext16 b else zext16 b

/-- `mm`, bits 7 and 6 of the mode byte (R91). -/
def modeField (b : Byte) : BitVec 2 := b.extractLsb' 6 2

/-- `rrr` or `eee`, bits 5 to 3 of the mode byte (R91). -/
def regField (b : Byte) : BitVec 3 := b.extractLsb' 3 3

/-- `xxx` of the mode byte, and `ccc` of a jump's first byte: bits 2 to 0 (R91, R113). -/
def lowField (b : Byte) : BitVec 3 := b.extractLsb' 0 3

/-- The width that a `W` bit selects (R108). -/
def Width.ofBit : Bool → Width
  | false => .byte
  | true => .word

/-- The `W` bit of a width (R108). -/
def Width.bit : Width → Bool
  | .byte => false
  | .word => true

/-- `RegName(W, r)`, the two register tables of R105. -/
def regName (w : Width) (r : BitVec 3) : RegName :=
  match w, r.toNat with
  | .byte, 0 => .r8 .al
  | .byte, 1 => .r8 .cl
  | .byte, 2 => .r8 .dl
  | .byte, 3 => .r8 .bl
  | .byte, 4 => .r8 .ah
  | .byte, 5 => .r8 .ch
  | .byte, 6 => .r8 .dh
  | .byte, _ => .r8 .bh
  | .word, 0 => .r16 .ax
  | .word, 1 => .r16 .cx
  | .word, 2 => .r16 .dx
  | .word, 3 => .r16 .bx
  | .word, 4 => .r16 .sp
  | .word, 5 => .r16 .bp
  | .word, 6 => .r16 .si
  | .word, _ => .r16 .di

/-- `Base(xxx)`, the base expressions of R107. -/
def baseOf (r : BitVec 3) : Base :=
  match r.toNat with
  | 0 => .bxSi
  | 1 => .bxDi
  | 2 => .bpSi
  | 3 => .bpDi
  | 4 => .si
  | 5 => .di
  | 6 => .bp
  | _ => .bx

/-- The accumulator that a width implies (R137). -/
def accumulator : Width → RegName
  | .byte => .r8 .al
  | .word => .r16 .ax

/-! ## The decoder -/

/-- What the decoder makes of the bytes from one stream index on. -/
inductive DecodeResult where
  /-- an instruction, and the bytes after it -/
  | hit (i : Instr) (rest : List Byte)
  /-- the first byte starts no instruction; the walker skips it (R148) -/
  | unmatched
  /-- the stream ends inside the instruction (R82, R117) -/
  | truncated
  deriving DecidableEq, Repr

/-- The four operations that have the format RM. -/
inductive Operation where
  | mov | add | sub | cmp
  deriving DecidableEq, Repr

/-- What a first byte starts, by the map of R102. -/
inductive FirstByte where
  | rmReg (op : Operation)
  | movImmRm
  | movImmReg
  | movMemAcc
  | movAccMem
  | addImmAcc
  | subImmAcc
  | cmpImmAcc
  | group
  | jump
  | unmatched
  deriving DecidableEq, Repr

/-- R102, by the fixed bits of R100. -/
def firstByte (b0 : Byte) : FirstByte :=
  let top7 := b0.extractLsb' 1 7
  let top6 := b0.extractLsb' 2 6
  let top5 := b0.extractLsb' 3 5
  if top6 = 0b100010#6 then .rmReg .mov
  else if top7 = 0b1100011#7 then .movImmRm
  else if b0.extractLsb' 4 4 = 0b1011#4 then .movImmReg
  else if top7 = 0b1010000#7 then .movMemAcc
  else if top7 = 0b1010001#7 then .movAccMem
  else if top6 = 0b000000#6 then .rmReg .add
  else if top6 = 0b100000#6 then .group
  else if top7 = 0b0000010#7 then .addImmAcc
  else if top6 = 0b001010#6 then .rmReg .sub
  else if top7 = 0b0010110#7 then .subImmAcc
  else if top6 = 0b001110#6 then .rmReg .cmp
  else if top7 = 0b0011110#7 then .cmpImmAcc
  else if top5 = 0b01110#5 then .jump
  else if top5 = 0b01111#5 then .jump
  else if top6 = 0b111000#6 then .jump
  else .unmatched

/-- The r/m operand that `mm` and `xxx` select, with the displacement or address bytes that follow (R92, R125 to R128);
none if those bytes are missing. -/
def decodeRm (w : Width) (mode : BitVec 2) (rm : BitVec 3) (bs : List Byte) : Option (RmOperand × List Byte) :=
  match mode.toNat, bs with
  | 0, bs =>
    if rm = 0b110#3 then
      match bs with
      | lo :: hi :: rest => some (.direct (le16 lo hi), rest)
      | _ => none
    else some (.base (baseOf rm), bs)
  | 1, d :: rest => some (.disp8 (baseOf rm) d, rest)
  | 1, [] => none
  | 2, lo :: hi :: rest => some (.disp16 (baseOf rm) (le16 lo hi), rest)
  | 2, _ => none
  | _, bs => some (.reg (regName w rm), bs)

/-- The data of the formats without an `s` bit (R91, R131). -/
def decodeImm (w : Width) (bs : List Byte) : Option (Imm × List Byte) :=
  match w, bs with
  | .byte, b :: rest => some (.byte b, rest)
  | .word, lo :: hi :: rest => some (.word (le16 lo hi), rest)
  | _, _ => none

/-- The data of the format GRP (R91, R131). -/
def decodeGrpImm (s : Bool) (w : Width) (bs : List Byte) : Option (GrpImm × List Byte) :=
  match s, w, bs with
  | true, w, b :: rest => some (.signed w b, rest)
  | false, .byte, b :: rest => some (.byte b, rest)
  | false, .word, lo :: hi :: rest => some (.word (le16 lo hi), rest)
  | _, _, _ => none

/-- The row of an operation in the format RM. -/
def rmRegInstr : Operation → Bool → RegName → RmOperand → Instr
  | .mov => .movRmReg
  | .add => .addRmReg
  | .sub => .subRmReg
  | .cmp => .cmpRmReg

/-- The candidate of entry E7 that `eee` selects (R100, R113). -/
def groupInstr (eee : BitVec 3) : Option (RmOperand → GrpImm → Instr) :=
  match eee.toNat with
  | 0 => some .addImmRm
  | 5 => some .subImmRm
  | 7 => some .cmpImmRm
  | _ => none

/-- The row of a jump or loop, by its first byte (42_branch.md R261). -/
def jumpInstr (b0 rel : Byte) : Option Instr :=
  match b0.toNat with
  | 0x70 => some (.jo rel)
  | 0x71 => some (.jno rel)
  | 0x72 => some (.jb rel)
  | 0x73 => some (.jnb rel)
  | 0x74 => some (.je rel)
  | 0x75 => some (.jne rel)
  | 0x76 => some (.jbe rel)
  | 0x77 => some (.ja rel)
  | 0x78 => some (.js rel)
  | 0x79 => some (.jns rel)
  | 0x7A => some (.jp rel)
  | 0x7B => some (.jnp rel)
  | 0x7C => some (.jl rel)
  | 0x7D => some (.jnl rel)
  | 0x7E => some (.jle rel)
  | 0x7F => some (.jg rel)
  | 0xE0 => some (.loopnz rel)
  | 0xE1 => some (.loopz rel)
  | 0xE2 => some (.loop rel)
  | 0xE3 => some (.jcxz rel)
  | _ => none

/-- Format RM after its first byte. -/
def decodeRmReg (op : Operation) (d : Bool) (w : Width) : List Byte → DecodeResult
  | [] => .truncated
  | b1 :: rest =>
    match decodeRm w (modeField b1) (lowField b1) rest with
    | some (rm, rest) => .hit (rmRegInstr op d (regName w (regField b1)) rm) rest
    | none => .truncated

/-- Format IMM_RM after its first byte. -/
def decodeMovImmRm (w : Width) : List Byte → DecodeResult
  | [] => .truncated
  | b1 :: rest =>
    match decodeRm w (modeField b1) (lowField b1) rest with
    | none => .truncated
    | some (rm, rest) =>
      match decodeImm w rest with
      | some (data, rest) => .hit (.movImmRm (regField b1) rm data) rest
      | none => .truncated

/-- Format GRP after its first byte. The candidate is chosen before any later byte is read (R113, R117). -/
def decodeGroup (s : Bool) (w : Width) : List Byte → DecodeResult
  | [] => .truncated
  | b1 :: rest =>
    match groupInstr (regField b1) with
    | none => .unmatched
    | some row =>
      match decodeRm w (modeField b1) (lowField b1) rest with
      | none => .truncated
      | some (rm, rest) =>
        match decodeGrpImm s w rest with
        | some (data, rest) => .hit (row rm data) rest
        | none => .truncated

/-- Format ACC_MEM after its first byte: a direct address (R132). -/
def decodeAddress (row : Word → Instr) : List Byte → DecodeResult
  | lo :: hi :: rest => .hit (row (le16 lo hi)) rest
  | _ => .truncated

/-- A format that ends in data after its first byte. -/
def decodeData (w : Width) (row : Imm → Instr) (bs : List Byte) : DecodeResult :=
  match decodeImm w bs with
  | some (data, rest) => .hit (row data) rest
  | none => .truncated

/-- Format JMP after its first byte (42_branch.md R262). -/
def decodeJump (b0 : Byte) : List Byte → DecodeResult
  | [] => .truncated
  | b1 :: rest =>
    match jumpInstr b0 b1 with
    | some i => .hit i rest
    | none => .unmatched

/-- The decoder: the bytes from one stream index on. -/
def decode : List Byte → DecodeResult
  | [] => .truncated
  | b0 :: rest =>
    let w := Width.ofBit (b0.getLsbD 0)
    match firstByte b0 with
    | .rmReg op => decodeRmReg op (b0.getLsbD 1) w rest
    | .movImmRm => decodeMovImmRm w rest
    | .movImmReg =>
      let w := Width.ofBit (b0.getLsbD 3)
      decodeData w (.movImmReg (regName w (lowField b0))) rest
    | .movMemAcc => decodeAddress (.movMemAcc w) rest
    | .movAccMem => decodeAddress (.movAccMem w) rest
    | .addImmAcc => decodeData w .addImmAcc rest
    | .subImmAcc => decodeData w .subImmAcc rest
    | .cmpImmAcc => decodeData w .cmpImmAcc rest
    | .group => decodeGroup (b0.getLsbD 1) w rest
    | .jump => decodeJump b0 rest
    | .unmatched => .unmatched

/-! ## The encoder -/

/-- The register field of a name (R105). A segment register has none; `Instr.wf` excludes it. -/
def RegName.field : RegName → BitVec 3
  | .r16 .ax => 0b000#3
  | .r16 .cx => 0b001#3
  | .r16 .dx => 0b010#3
  | .r16 .bx => 0b011#3
  | .r16 .sp => 0b100#3
  | .r16 .bp => 0b101#3
  | .r16 .si => 0b110#3
  | .r16 .di => 0b111#3
  | .r16 .cs => 0b000#3
  | .r16 .ss => 0b000#3
  | .r16 .ds => 0b000#3
  | .r16 .es => 0b000#3
  | .r8 .al => 0b000#3
  | .r8 .cl => 0b001#3
  | .r8 .dl => 0b010#3
  | .r8 .bl => 0b011#3
  | .r8 .ah => 0b100#3
  | .r8 .ch => 0b101#3
  | .r8 .dh => 0b110#3
  | .r8 .bh => 0b111#3

/-- The r/m field of a base expression (R107). -/
def Base.field : Base → BitVec 3
  | .bxSi => 0b000#3
  | .bxDi => 0b001#3
  | .bpSi => 0b010#3
  | .bpDi => 0b011#3
  | .si => 0b100#3
  | .di => 0b101#3
  | .bp => 0b110#3
  | .bx => 0b111#3

/-- The two bytes of a word, in stream order (R72). -/
def leBytes (v : Word) : List Byte := [lowByte v, highByte v]

/-- `mm` of an r/m operand (R106). -/
def RmOperand.mode : RmOperand → BitVec 2
  | .direct _ => 0b00#2
  | .base _ => 0b00#2
  | .disp8 _ _ => 0b01#2
  | .disp16 _ _ => 0b10#2
  | .reg _ => 0b11#2

/-- `xxx` of an r/m operand (R105, R107, R125). -/
def RmOperand.field : RmOperand → BitVec 3
  | .direct _ => 0b110#3
  | .base b => b.field
  | .disp8 b _ => b.field
  | .disp16 b _ => b.field
  | .reg r => r.field

/-- The displacement or address bytes of an r/m operand (R92). -/
def RmOperand.bytes : RmOperand → List Byte
  | .direct a => leBytes a
  | .base _ => []
  | .disp8 _ d => [d]
  | .disp16 _ d => leBytes d
  | .reg _ => []

/-- The bytes of the data (R91). -/
def Imm.bytes : Imm → List Byte
  | .byte v => [v]
  | .word v => leBytes v

/-- The `s` bit of GRP data (R91). -/
def GrpImm.signBit : GrpImm → Bool
  | .signed _ _ => true
  | _ => false

/-- The bytes of GRP data (R91). -/
def GrpImm.bytes : GrpImm → List Byte
  | .byte v => [v]
  | .word v => leBytes v
  | .signed _ v => [v]

/-- `oooooodw` (R91). -/
def opcode6 (op : BitVec 6) (d w : Bool) : Byte := op ++ BitVec.ofBool d ++ BitVec.ofBool w

/-- `ooooooow` (R91). -/
def opcode7 (op : BitVec 7) (w : Bool) : Byte := op ++ BitVec.ofBool w

/-- `mm rrr xxx` (R91). -/
def modeByte (mode : BitVec 2) (reg rm : BitVec 3) : Byte := mode ++ reg ++ rm

/-- Format RM. -/
def encodeRmReg (op : BitVec 6) (d : Bool) (reg : RegName) (rm : RmOperand) : List Byte :=
  opcode6 op d reg.width.bit :: modeByte rm.mode reg.field rm.field :: rm.bytes

/-- Format GRP, first byte `100000sw`. -/
def encodeGroup (eee : BitVec 3) (rm : RmOperand) (data : GrpImm) : List Byte :=
  opcode6 0b100000#6 data.signBit data.width.bit :: modeByte rm.mode eee rm.field :: (rm.bytes ++ data.bytes)

/-- Format ACC_IMM. -/
def encodeImmAcc (op : BitVec 7) (data : Imm) : List Byte :=
  opcode7 op data.width.bit :: data.bytes

/-- The bytes of an instruction, in stream order (R90, R91, R100). -/
def encode : Instr → List Byte
  | .movRmReg d reg rm => encodeRmReg 0b100010#6 d reg rm
  | .movImmRm unchecked rm data =>
    opcode7 0b1100011#7 data.width.bit :: modeByte rm.mode unchecked rm.field :: (rm.bytes ++ data.bytes)
  | .movImmReg reg data => (0b1011#4 ++ BitVec.ofBool data.width.bit ++ reg.field : Byte) :: data.bytes
  | .movMemAcc w a => opcode7 0b1010000#7 w.bit :: leBytes a
  | .movAccMem w a => opcode7 0b1010001#7 w.bit :: leBytes a
  | .addRmReg d reg rm => encodeRmReg 0b000000#6 d reg rm
  | .addImmRm rm data => encodeGroup 0b000#3 rm data
  | .addImmAcc data => encodeImmAcc 0b0000010#7 data
  | .subRmReg d reg rm => encodeRmReg 0b001010#6 d reg rm
  | .subImmRm rm data => encodeGroup 0b101#3 rm data
  | .subImmAcc data => encodeImmAcc 0b0010110#7 data
  | .cmpRmReg d reg rm => encodeRmReg 0b001110#6 d reg rm
  | .cmpImmRm rm data => encodeGroup 0b111#3 rm data
  | .cmpImmAcc data => encodeImmAcc 0b0011110#7 data
  | .jo b => [0x70#8, b]
  | .jno b => [0x71#8, b]
  | .jb b => [0x72#8, b]
  | .jnb b => [0x73#8, b]
  | .je b => [0x74#8, b]
  | .jne b => [0x75#8, b]
  | .jbe b => [0x76#8, b]
  | .ja b => [0x77#8, b]
  | .js b => [0x78#8, b]
  | .jns b => [0x79#8, b]
  | .jp b => [0x7A#8, b]
  | .jnp b => [0x7B#8, b]
  | .jl b => [0x7C#8, b]
  | .jnl b => [0x7D#8, b]
  | .jle b => [0x7E#8, b]
  | .jg b => [0x7F#8, b]
  | .loopnz b => [0xE0#8, b]
  | .loopz b => [0xE1#8, b]
  | .loop b => [0xE2#8, b]
  | .jcxz b => [0xE3#8, b]

/-! ## Words of the opcode table -/

/-- The stream bytes of a table word. The table's value is `b0 * 256 + b1` (30_encoding.md, opening): bits 15 to 8 are
`S[idx]`, bits 7 to 0 are `S[idx+1]`; later 16-bit words follow in the same way (log entry 7). The list is as long as
the longest instruction; bits from `nbits` on are 0. -/
def tableBytes (nbits w : Nat) : List Byte :=
  let v := w % 2 ^ nbits
  (List.range Config.longestInstruction).map fun k =>
    BitVec.ofNat 8 (v >>> (16 * (k / 2) + 8 * (1 - k % 2)))

/-- The instruction that the decoder reads from a table word; none where it refuses. -/
def decodeTableWord (nbits w : Nat) : Option Instr :=
  match decode (tableBytes nbits w) with
  | .hit i _ => some i
  | .unmatched => none
  | .truncated => none

end Sys2Proof
end

