-- ==== Sys2Proof/Machine/Schema.lean ====
section
/-! DEFINITION. The SCHEMA ROM of 30_encoding.md R100 and the checks W1 to W7 of 10_state.md R43. -/

namespace Sys2Proof.Machine

/-- The SCHEMA: entries in priority order (R42, R111). -/
abbrev Schema := List OpcodeEntry

/-- The "top-n-bits mask" of a byte (00_scope.md R14, which gives it for n up to 8). DESIGN CHOICE: for n above 8 it is
`0xFF`, like `mask(8)` (log entry 16). -/
def topMask (n : Nat) : Byte := ~~~(0xFF#8 >>> n)

/-! ## The ROM -/

/-- `RMA` of R100. -/
def argsRm : List Argument := [.mode, .registerImplicit, .registerOrMemory, .wordDisplacement]

/-- The arguments of an immediate form with an explicit register field (E2, E7). -/
def argsImmRm (v : BitVec 3) : List Argument :=
  [.mode, .registerExplicit v, .registerOrMemory, .wordDisplacement, .wordData]

/-- An entry of the format RM (E1, E6, E9, E11). -/
def entryRm (mn : Mnemonic) (pattern : Byte) : OpcodeEntry :=
  ⟨pattern, 7, .single ⟨mn, 7, 4, [.direction, .wordSize], argsRm, none⟩⟩

/-- An entry of the format ACC_IMM (E8, E10, E12). -/
def entryImmAcc (mn : Mnemonic) (pattern : Byte) : OpcodeEntry :=
  ⟨pattern, 8, .single ⟨mn, 8, 3, [.wordSize], [.wordData], none⟩⟩

/-- A candidate of E7: the secondary operand is at schema position 11 (R114). -/
def groupCandidate (expected : BitVec 3) (mn : Mnemonic) : SecondaryOperand × InstructionDefinition :=
  (⟨11, expected⟩, ⟨mn, 7, 6, [.signExtend, .wordSize], argsImmRm expected, none⟩)

/-- A candidate of E13 to E15: the secondary operand is at schema position 6 (R114). -/
def jumpCandidate (expected : BitVec 3) (mn : Mnemonic) : SecondaryOperand × InstructionDefinition :=
  (⟨6, expected⟩, ⟨mn, 6, 2, [], [.registerExplicit expected, .byte], none⟩)

/-- Entries E1 to E5, the `mov` forms. -/
def romMov : Schema :=
  [ entryRm .mov 0x88#8,
    ⟨0xC6#8, 8, .single ⟨.mov, 8, 6, [.wordSize], argsImmRm 0b000#3, none⟩⟩,
    ⟨0xB0#8, 5, .single ⟨.mov, 5, 3, [.wordSize], [.registerImplicit, .wordData], none⟩⟩,
    ⟨0xA0#8, 8, .single ⟨.mov, 8, 3, [.wordSize], [.wordAddress], none⟩⟩,
    ⟨0xA2#8, 8, .single ⟨.mov, 8, 3, [.wordSize], [.wordAddress], some false⟩⟩ ]

/-- Entries E6 to E12, the `add`, `sub` and `cmp` forms. -/
def romArith : Schema :=
  [ entryRm .add 0x00#8,
    ⟨0x80#8, 7, .multi [groupCandidate 0b000#3 .add, groupCandidate 0b101#3 .sub, groupCandidate 0b111#3 .cmp]⟩,
    entryImmAcc .add 0x04#8,
    entryRm .sub 0x28#8,
    entryImmAcc .sub 0x2C#8,
    entryRm .cmp 0x38#8,
    entryImmAcc .cmp 0x3C#8 ]

/-- Entries E13 to E15, the conditional jumps and the loop group. -/
def romJump : Schema :=
  [ ⟨0x70#8, 6, .multi
      [jumpCandidate 0b000#3 .jo, jumpCandidate 0b001#3 .jno, jumpCandidate 0b010#3 .jb, jumpCandidate 0b011#3 .jnb,
       jumpCandidate 0b100#3 .je, jumpCandidate 0b101#3 .jne, jumpCandidate 0b110#3 .jbe, jumpCandidate 0b111#3 .ja]⟩,
    ⟨0x78#8, 6, .multi
      [jumpCandidate 0b000#3 .js, jumpCandidate 0b001#3 .jns, jumpCandidate 0b010#3 .jp, jumpCandidate 0b011#3 .jnp,
       jumpCandidate 0b100#3 .jl, jumpCandidate 0b101#3 .jnl, jumpCandidate 0b110#3 .jle, jumpCandidate 0b111#3 .jg]⟩,
    ⟨0xE0#8, 6, .multi
      [jumpCandidate 0b000#3 .loopnz, jumpCandidate 0b001#3 .loopz, jumpCandidate 0b010#3 .loop,
       jumpCandidate 0b011#3 .jcxz]⟩ ]

/-- The SCHEMA ROM, E1 to E15 (R100). -/
def romSchema : Schema := romMov ++ romArith ++ romJump

/-! ## Well-formedness (10_state.md R43) -/

/-- The definitions of an entry. -/
def entryDefinitions (e : OpcodeEntry) : List InstructionDefinition :=
  match e.lookup with
  | .single d => [d]
  | .multi candidates => candidates.map (·.2)

/-- W1: the fixed bits and the flags fit in the first byte. -/
def flagsFit (d : InstructionDefinition) : Bool := (d.offset - 1) + d.flags.length ≤ 8

/-- W2: the pattern has no bit outside the mask. -/
def patternInMask (e : OpcodeEntry) : Bool := e.pattern &&& ~~~(topMask (e.offset - 1)) == 0#8

/-- W3: every definition has the offset of the entry's pattern. -/
def offsetsAgree (e : OpcodeEntry) : Bool := (entryDefinitions e).all (·.offset == e.offset)

/-- An argument whose register name needs the `W` flag (R122, R124). -/
def needsWordSize : Argument → Bool
  | .registerImplicit => true
  | .registerOrMemory => true
  | _ => false

/-- W4: a definition with such an argument has a `WordSize` flag. -/
def wordSizeKnown (d : InstructionDefinition) : Bool :=
  !d.args.any needsWordSize || d.flags.contains .wordSize

/-- The arguments after an RM reach a `Word(Displacement)` before any other that reads bytes. -/
def displacementFollows : List Argument → Bool
  | [] => false
  | .wordDisplacement :: _ => true
  | .registerOrMemory :: _ => false
  | .wordAddress :: _ => false
  | .wordData :: _ => false
  | .byte :: _ => false
  | _ :: rest => displacementFollows rest

/-- W5, after `seen` says whether a `Mode` came before. -/
def modeBeforeRm : Bool → List Argument → Bool
  | _, [] => true
  | _, .mode :: rest => modeBeforeRm true rest
  | seen, .registerOrMemory :: rest => seen && displacementFollows rest && modeBeforeRm seen rest
  | seen, _ :: rest => modeBeforeRm seen rest

/-- The bits of an argument modulo 8, which no mode changes: displacements and data are whole bytes (R41). -/
def argumentBits : Argument → Nat
  | .mode => 2
  | .registerOrMemory => 3
  | .registerImplicit => 3
  | .registerExplicit _ => 3
  | .wordAddress => 0
  | .wordDisplacement => 0
  | .wordData => 0
  | .byte => 0
  | .segmentRegister => 2
  | .fixedBit => 1

/-- An argument that reads whole bytes, after its own bits (00_scope.md R17). -/
def readsBytes : Argument → Bool
  | .registerOrMemory => true
  | .wordAddress => true
  | .wordData => true
  | .byte => true
  | _ => false

/-- W6, with the cursor at `c`: the fields end on a byte boundary, and so does the cursor wherever whole bytes are
read, which 20_memory.md R74 counts to this check (log entry 14). -/
def fieldsAligned : Nat → List Argument → Bool
  | c, [] => c % 8 == 0
  | c, a :: rest =>
    (!readsBytes a || (c + argumentBits a) % 8 == 0) && fieldsAligned (c + argumentBits a) rest

/-- W7: the earlier entry `e` hides `later`. -/
def shadows (e later : OpcodeEntry) : Bool :=
  decide (e.offset ≤ later.offset) && later.pattern &&& topMask (e.offset - 1) == e.pattern

/-- W7 over the list. -/
def noneShadowed : Schema → Bool
  | [] => true
  | e :: rest => rest.all (fun later => !shadows e later) && noneShadowed rest

/-- Checks W1 and W4 to W6 of one definition. -/
def definitionWf (d : InstructionDefinition) : Bool :=
  flagsFit d && wordSizeKnown d && modeBeforeRm false d.args && fieldsAligned ((d.offset - 1) + d.flags.length) d.args

/-- Checks W1 to W7 (R43). -/
def schemaWf (schema : Schema) : Bool :=
  schema.all (fun e => patternInMask e && offsetsAgree e && (entryDefinitions e).all definitionWf) &&
    noneShadowed schema

end Sys2Proof.Machine
end

