-- ==== Sys2Proof/Machine/State.lean ====
section
/-! DEFINITION. The state of the block (10_state.md R55): the register file and the flags of the Execution Unit, the
SCHEMA ROM, the cursor and the scratch registers of the Decode Unit; the inputs the host gives (00_scope.md R8, R10,
R12); the outputs (R56); the reasons a step can stop (60_exceptions.md R301); and the state after reset (R56). -/

namespace Sys2Proof.Machine

/-! ## The Execution Unit -/

/-- A register is a pair of bytes; no 16-bit cell exists apart from it (R31). -/
structure BytePair where
  hi : Byte
  lo : Byte
  deriving DecidableEq, Repr

/-- The twelve registers (R30). -/
structure RegFile where
  ax : BytePair
  bx : BytePair
  cx : BytePair
  dx : BytePair
  sp : BytePair
  bp : BytePair
  si : BytePair
  di : BytePair
  cs : BytePair
  ss : BytePair
  ds : BytePair
  es : BytePair
  deriving DecidableEq, Repr

/-- The two condition flags (R38). -/
structure Flags where
  zf : Bool
  sf : Bool
  deriving DecidableEq, Repr

/-- What a step reports of a register: the parent's name, its value before and after (40_mov.md R200). -/
structure TraceRecord where
  reg : Reg16
  before : Word
  after : Word
  deriving DecidableEq, Repr

/-! ## The Decode Unit -/

/-- The scratch registers of the Field Decoder (R51). -/
structure Scratch where
  /-- the bit cursor `c` -/
  cursor : Nat
  mode : Option (BitVec 2)
  quirky : Bool
  regIsDest : Bool
  src : Operand
  dst : Operand
  deriving DecidableEq, Repr

/-- The input stream, as pairs of an index and a byte (20_memory.md R70). No byte exists at an unlisted index, so the
canonical form lists exactly the indices 0 to N-1 in rising order (log entry 3). -/
abbrev Memory := List Host.Cell

/-! ## Instruction lists -/

/-- A line of `execute` mode after its parse: texts, interpreted at execution (30_encoding.md R156, 40_mov.md R201). -/
structure ParsedLine where
  mnemonic : Text
  destination : Text
  source : Option Text
  /-- the length field of a decoded instruction: 0 for a parsed one, and not used (30_encoding.md R156) -/
  length : Nat
  deriving DecidableEq, Repr

/-- An element of the Decode Unit's output list, and of the list that the Execution Unit runs. -/
inductive Listed where
  /-- decoded at stream index `idx` as a row of the ROM -/
  | row (idx : Nat) (i : Instr)
  /-- decoded at stream index `idx` by a definition of a replaced SCHEMA, and no row of the ROM (log entry 12) -/
  | replaced (idx : Nat) (d : DecodedInstruction)
  /-- parsed from a line of text -/
  | line (l : ParsedLine)
  deriving DecidableEq, Repr

/-! ## Runs -/

/-- The three runs: the host's `decode` and `execute` modes (00_scope.md R12), and the direct path (R11). -/
inductive RunMode where
  | decode
  | direct
  | execute
  deriving DecidableEq, Repr

/-- Which part of the run comes next (60_exceptions.md R304, R307, R327). -/
inductive Phase where
  | decoding
  | parsing
  | executing
  | finished
  deriving DecidableEq, Repr

/-! ## Why a step can stop -/

/-- The four `SchemaInconsistency` kinds, codes 1 to 4 of R301. Only a replaced SCHEMA can raise them (R302). -/
inductive SchemaKind where
  | flagsOverflow
  | wordSizeUnknown
  | noMode
  | misaligned
  deriving DecidableEq, Repr

/-- The seven `ExecLookup` kinds, codes 20 to 26 of R301. -/
inductive LookupKind where
  | unknownRegister
  | unparsableOperand
  | nonRegisterDestination
  | memoryOperand
  | widthMismatch
  | unknownMnemonic
  | missingOperand
  deriving DecidableEq, Repr

/-- The faults of 60_exceptions.md R301. Each is fatal and final (R306), and each is the spec's own, so each is safe. -/
inductive Fault where
  /-- raised by the Decode Unit at the instruction at `idx`; safe -/
  | schemaInconsistency (kind : SchemaKind) (idx : Nat)
  /-- raised by the Decode Unit where the stream ends inside the instruction at `idx`; safe -/
  | truncated (idx : Nat)
  /-- raised by the Execution Unit at list position `pos`, before it writes anything (R305); safe -/
  | execLookup (kind : LookupKind) (pos : Nat)
  /-- raised at the host boundary at a line, counted from 1 over the non-empty lines (R304); safe -/
  | textParse (line : Nat)
  deriving DecidableEq, Repr

/-- Why a step has no meaning. Every instruction has its meaning, so nothing raises it. -/
inductive Refusal where
  /-- an arm of exec with no meaning yet; safe -/
  | notModelled (mnemonic : String)
  deriving DecidableEq, Repr

/-! ## The state -/

/-- The whole state of the block, with its inputs and outputs. -/
structure State where
  /-- the register file (R30) -/
  regs : RegFile
  /-- `ZF` and `SF` (R38) -/
  flags : Flags
  /-- the SCHEMA ROM (R54) -/
  schema : Schema
  /-- the input stream `S` (20_memory.md R70) -/
  mem : Memory
  /-- the walker cursor (R50) -/
  idx : Nat
  /-- the scratch of the last Field Decoder call (R51; log entry 5) -/
  scratch : Scratch
  /-- the Decode Unit's output list (30_encoding.md R146) -/
  decoded : List Listed
  /-- the input text of `execute` mode (30_encoding.md R156) -/
  text : Text
  /-- the list that the Execution Unit runs (00_scope.md R10) -/
  program : List Listed
  /-- the list position of the next instruction (60_exceptions.md R301) -/
  pos : Nat
  /-- the records of the steps so far (60_exceptions.md R322) -/
  trace : List (Option TraceRecord)
  /-- which run this is (00_scope.md R12; log entry 2) -/
  mode : RunMode
  /-- which part of the run comes next (log entry 2) -/
  phase : Phase
  deriving DecidableEq, Repr

/-- A register as it is created: both halves zero (R36). -/
def BytePair.zero : BytePair := ⟨0#8, 0#8⟩

/-- The register file as it is created (R36, R56). -/
def RegFile.zero : RegFile :=
  { ax := .zero, bx := .zero, cx := .zero, dx := .zero, sp := .zero, bp := .zero, si := .zero, di := .zero,
    cs := .zero, ss := .zero, ds := .zero, es := .zero }

/-- The scratch registers before any call (R51, R56; the cursor by log entry 5). -/
def Scratch.reset : Scratch := ⟨0, none, false, false, .none, .none⟩

/-- The state at the start of a run, before the host gives an input (R56, 70_reset_and_hazards.md R340 to R343). -/
def State.reset : State :=
  { regs := .zero, flags := ⟨false, false⟩, schema := romSchema, mem := [], idx := 0, scratch := .reset, decoded := [],
    text := [], program := [], pos := 0, trace := [], mode := .direct, phase := .decoding }

end Sys2Proof.Machine
end

