-- ==== Sys2Proof/Machine/Ops.lean ====
section
/-! DEFINITION. The named operations over registers, stream and run: reading and writing a register by its name
(10_state.md R33, R34), reading the stream (20_memory.md R70, R75), stopping with a fault (60_exceptions.md R305, R311;
the block has no trap entry and no trap return, R311, R312), retiring a step (40_mov.md R200), and the host's loads and the
hand-over between the units (00_scope.md R11, R12, 70_reset_and_hazards.md R340). -/

namespace Sys2Proof.Machine

/-! ## Registers -/

/-- `256 * hi + lo` (R31). -/
def BytePair.toWord (p : BytePair) : Word := p.hi ++ p.lo

/-- `hi <- v[15:8]`, `lo <- v[7:0]` (00_scope.md R19). -/
def BytePair.ofWord (v : Word) : BytePair := ⟨highByte v, lowByte v⟩

/-- The pair of a register. -/
def RegFile.get (f : RegFile) : Reg16 → BytePair
  | .ax => f.ax
  | .bx => f.bx
  | .cx => f.cx
  | .dx => f.dx
  | .sp => f.sp
  | .bp => f.bp
  | .si => f.si
  | .di => f.di
  | .cs => f.cs
  | .ss => f.ss
  | .ds => f.ds
  | .es => f.es

/-- A register file with one pair replaced. -/
def RegFile.set (f : RegFile) (r : Reg16) (p : BytePair) : RegFile :=
  match r with
  | .ax => { f with ax := p }
  | .bx => { f with bx := p }
  | .cx => { f with cx := p }
  | .dx => { f with dx := p }
  | .sp => { f with sp := p }
  | .bp => { f with bp := p }
  | .si => { f with si := p }
  | .di => { f with di := p }
  | .cs => { f with cs := p }
  | .ss => { f with ss := p }
  | .ds => { f with ds := p }
  | .es => { f with es := p }

/-- The parent register of a name (R32, R33). -/
def regParent : RegName → Reg16
  | .r16 r => r
  | .r8 .al => .ax
  | .r8 .ah => .ax
  | .r8 .bl => .bx
  | .r8 .bh => .bx
  | .r8 .cl => .cx
  | .r8 .ch => .cx
  | .r8 .dl => .dx
  | .r8 .dh => .dx

/-- The access mode of a name (R32, R33). -/
def regAccess : RegName → AccessMode
  | .r16 _ => .universal
  | .r8 .al => .low
  | .r8 .ah => .high
  | .r8 .bl => .low
  | .r8 .bh => .high
  | .r8 .cl => .low
  | .r8 .ch => .high
  | .r8 .dl => .low
  | .r8 .dh => .high

/-- `Resolve(name)` of R33. -/
def resolve (name : RegName) : Reg16 × AccessMode := (regParent name, regAccess name)

/-- What an access mode reads of a pair; a half is a value below 256 (R33). -/
def BytePair.read (p : BytePair) : AccessMode → Word
  | .universal => p.toWord
  | .high => zext16 p.hi
  | .low => zext16 p.lo

/-- What an access mode writes to a pair (R34). -/
def BytePair.write (p : BytePair) (m : AccessMode) (v : Word) : BytePair :=
  match m with
  | .universal => .ofWord v
  | .high => { p with hi := lowByte v }
  | .low => { p with lo := lowByte v }

/-- `x[r]` (00_scope.md R19). -/
def RegFile.word (f : RegFile) (r : Reg16) : Word := (f.get r).toWord

/-- `RegRead(name)`, the value; its width is `name.width` (R33). -/
def RegFile.read (f : RegFile) (name : RegName) : Word :=
  (f.get (resolve name).1).read (resolve name).2

/-- `RegWrite(name, v)` (R34). -/
def RegFile.write (f : RegFile) (name : RegName) (v : Word) : RegFile :=
  f.set (resolve name).1 ((f.get (resolve name).1).write (resolve name).2 v)

/-! ## The stream -/

/-- The canonical form: the listed indices are `start`, `start + 1`, and so on (log entry 3). -/
def Memory.wfFrom (start : Nat) : Memory → Bool
  | [] => true
  | c :: rest => c.1 == start && Memory.wfFrom (start + 1) rest

/-- The stream lists exactly the indices 0 to N-1 (20_memory.md R70). -/
def Memory.wf (m : Memory) : Bool := Memory.wfFrom 0 m

/-- The length `N` (20_memory.md R70). -/
def Memory.size (m : Memory) : Nat := m.length

/-- `S[i]`; none outside the stream (R82). -/
def Memory.read : Memory → Nat → Option Byte
  | [], _ => none
  | c :: rest, i => if c.1 = i then some c.2 else Memory.read rest i

/-- The bytes from index `i` to the end of the stream. -/
def Memory.bytesFrom (m : Memory) (i : Nat) : List Byte := (m.filter (fun c => i ≤ c.1)).map (·.2)

/-- Bytes laid out from an index on. -/
def Memory.layout (start : Nat) : List Byte → Memory
  | [] => []
  | b :: rest => (start, b) :: Memory.layout (start + 1) rest

/-- The stream that holds these bytes (00_scope.md R8). -/
def Memory.ofBytes (bs : List Byte) : Memory := Memory.layout 0 bs

/-! ## Stopping and retiring -/

/-- `raise ExecLookup(kind)`: the run ends, and the fault carries the list position (60_exceptions.md R301, R303). -/
def raiseLookup (kind : LookupKind) (s : State) : Host.Outcome State Fault Refusal :=
  .fault (.execLookup kind s.pos)

/-- The end of a step of the Execution Unit: its record joins the trace and the next instruction of the list is next
(40_mov.md R200, 10_state.md R53). -/
def State.retire (s : State) (record : Option TraceRecord) : State :=
  { s with trace := s.trace ++ [record], pos := s.pos + 1 }

/-! ## Runs -/

/-- An execute run over a list starts from the reset state (70_reset_and_hazards.md R340); the SCHEMA and the inputs
of the host stay what they are (R342, 20_memory.md R80). -/
def State.startExecution (s : State) (list : List Listed) : State :=
  { State.reset with
    schema := s.schema, mem := s.mem, text := s.text, mode := s.mode, program := list, phase := .executing }

/-- The end of the walk: `decode` mode ends the run with the output list, and the direct path hands the list to the
Execution Unit (00_scope.md R11, R12; log entry 8). -/
def State.endWalk (s : State) : State :=
  match s.mode with
  | .direct => s.startExecution s.decoded
  | .decode => { s with phase := .finished }
  | .execute => { s with phase := .finished }

/-- The host gives a byte stream to the Decode Unit, for `decode` mode or for the direct path (00_scope.md R12). -/
def State.loadStream (mode : RunMode) (bs : List Byte) : State :=
  { State.reset with mem := Memory.ofBytes bs, mode := mode }

/-- The same with a replaced SCHEMA (00_scope.md R13). -/
def State.loadSchema (schema : Schema) (mode : RunMode) (bs : List Byte) : State :=
  { State.loadStream mode bs with schema := schema }

/-- The host gives a text to `execute` mode (00_scope.md R12). -/
def State.loadText (text : Text) : State :=
  { State.reset with text := text, mode := .execute, phase := .parsing }

/-- The host gives a list of instructions to the Execution Unit (00_scope.md R10, 70_reset_and_hazards.md R340). -/
def State.loadList (list : List Listed) : State := State.startExecution State.reset list

end Sys2Proof.Machine
end

