-- ==== Sys2Proof/Machine/Text.lean ====
section
/-! DEFINITION. The text of the host boundary (30_encoding.md R150 to R159): spelling of names, numbers and operands,
the parse of lines, and the interpretation of operand text (R157). -/

namespace Sys2Proof.Machine

/-! ## Names -/

/-- The names of the twelve registers (10_state.md R30). -/
def reg16Text : Reg16 → Text
  | .ax => ['a', 'x']
  | .bx => ['b', 'x']
  | .cx => ['c', 'x']
  | .dx => ['d', 'x']
  | .sp => ['s', 'p']
  | .bp => ['b', 'p']
  | .si => ['s', 'i']
  | .di => ['d', 'i']
  | .cs => ['c', 's']
  | .ss => ['s', 's']
  | .ds => ['d', 's']
  | .es => ['e', 's']

/-- The eight 8-bit names (R32). -/
def reg8Text : Reg8 → Text
  | .al => ['a', 'l']
  | .ah => ['a', 'h']
  | .bl => ['b', 'l']
  | .bh => ['b', 'h']
  | .cl => ['c', 'l']
  | .ch => ['c', 'h']
  | .dl => ['d', 'l']
  | .dh => ['d', 'h']

/-- A register operand is spelled by its name (30_encoding.md R151). -/
def regText : RegName → Text
  | .r16 r => reg16Text r
  | .r8 r => reg8Text r

/-- The registers in the canonical order of the register file, which is the order of the dump (10_state.md R30). -/
def allReg16 : List Reg16 := [.ax, .bx, .cx, .dx, .sp, .bp, .si, .di, .cs, .ss, .ds, .es]

/-- The eight 8-bit names. -/
def allReg8 : List Reg8 := [.al, .ah, .bl, .bh, .cl, .ch, .dl, .dh]

/-- All 20 register names (R33). -/
def allRegNames : List RegName := allReg16.map .r16 ++ allReg8.map .r8

/-- The register that a text names (R33). -/
def regOfText (t : Text) : Option RegName := allRegNames.find? (fun r => regText r == t)

/-- `Resolve` of a text; any other name raises `UnknownRegister` (R33). -/
def resolveText (t : Text) : Except LookupKind (Reg16 × AccessMode) :=
  match regOfText t with
  | some r => .ok (resolve r)
  | none => .error .unknownRegister

/-- The 24 spellings of 30_encoding.md R101 and 42_branch.md R261. -/
def mnemonicText : Mnemonic → Text
  | .mov => ['m', 'o', 'v']
  | .add => ['a', 'd', 'd']
  | .sub => ['s', 'u', 'b']
  | .cmp => ['c', 'm', 'p']
  | .jo => ['j', 'o']
  | .jno => ['j', 'n', 'o']
  | .jb => ['j', 'b']
  | .jnb => ['j', 'n', 'b']
  | .je => ['j', 'e']
  | .jne => ['j', 'n', 'e']
  | .jbe => ['j', 'b', 'e']
  | .ja => ['j', 'a']
  | .js => ['j', 's']
  | .jns => ['j', 'n', 's']
  | .jp => ['j', 'p']
  | .jnp => ['j', 'n', 'p']
  | .jl => ['j', 'l']
  | .jnl => ['j', 'n', 'l']
  | .jle => ['j', 'l', 'e']
  | .jg => ['j', 'g']
  | .loopnz => ['l', 'o', 'o', 'p', 'n', 'z']
  | .loopz => ['l', 'o', 'o', 'p', 'z']
  | .loop => ['l', 'o', 'o', 'p']
  | .jcxz => ['j', 'c', 'x', 'z']

/-- The mnemonics in the order of R101. -/
def allMnemonics : List Mnemonic :=
  [.mov, .add, .sub, .cmp, .jo, .jno, .jb, .jnb, .je, .jne, .jbe, .ja, .js, .jns, .jp, .jnp, .jl, .jnl, .jle, .jg,
    .loopnz, .loopz, .loop, .jcxz]

/-- The mnemonic that a text spells; a synonym spells none (R261). -/
def mnemonicOfText (t : Text) : Option Mnemonic := allMnemonics.find? (fun m => mnemonicText m == t)

/-- The spelling of a base expression, with `" + "` between two registers (R107). -/
def baseText : Base → Text
  | .bxSi => ['b', 'x', ' ', '+', ' ', 's', 'i']
  | .bxDi => ['b', 'x', ' ', '+', ' ', 'd', 'i']
  | .bpSi => ['b', 'p', ' ', '+', ' ', 's', 'i']
  | .bpDi => ['b', 'p', ' ', '+', ' ', 'd', 'i']
  | .si => ['s', 'i']
  | .di => ['d', 'i']
  | .bp => ['b', 'p']
  | .bx => ['b', 'x']

/-- The eight base expressions, in the order of R107. -/
def allBases : List Base := [.bxSi, .bxDi, .bpSi, .bpDi, .si, .di, .bp, .bx]

/-- The text between a base expression and its displacement (R107, R150). -/
def plusText : Text := [' ', '+', ' ']

/-! ## Numbers -/

/-- A decimal digit. -/
def digitChar (n : Nat) : Char := Char.ofNat (48 + n)

/-- The decimal digits of `n` in front of `acc`; `fuel` is at least their number. -/
def decDigits : Nat → Nat → Text → Text
  | 0, _, acc => acc
  | fuel + 1, n, acc =>
    if n < 10 then digitChar n :: acc else decDigits fuel (n / 10) (digitChar (n % 10) :: acc)

/-- Unsigned decimal with no leading zeros (R150). The block renders values of at most 16 bits: five digits. -/
def decText (n : Nat) : Text := decDigits 5 n []

/-- The upper-case hexadecimal digit of a value below 16. -/
def hexChar (n : Nat) : Char := if n < 10 then Char.ofNat (48 + n) else Char.ofNat (55 + n)

/-- `Hex(v)`: `0x` and four upper-case digits (60_exceptions.md R320). -/
def hexText (v : Word) : Text :=
  ['0', 'x', hexChar (v.toNat / 4096), hexChar (v.toNat / 256 % 16), hexChar (v.toNat / 16 % 16),
    hexChar (v.toNat % 16)]

/-- The value of a decimal digit, `[0-9]`. -/
def decValue (c : Char) : Option Nat :=
  if 48 ≤ c.toNat ∧ c.toNat ≤ 57 then some (c.toNat - 48) else none

/-- The value of a hexadecimal digit, `[0-9a-fA-F]`. -/
def hexValue (c : Char) : Option Nat :=
  if 48 ≤ c.toNat ∧ c.toNat ≤ 57 then some (c.toNat - 48)
  else if 97 ≤ c.toNat ∧ c.toNat ≤ 102 then some (c.toNat - 87)
  else if 65 ≤ c.toNat ∧ c.toNat ≤ 70 then some (c.toNat - 55)
  else none

/-- The value of a text of decimal digits after the value `acc`; none if another character stands in it. -/
def decNumberFrom : Nat → Text → Option Nat
  | acc, [] => some acc
  | acc, c :: rest =>
    match decValue c with
    | some d => decNumberFrom (10 * acc + d) rest
    | none => none

/-- The value of a text of hexadecimal digits after the value `acc`; none if another character stands in it. -/
def hexNumberFrom : Nat → Text → Option Nat
  | acc, [] => some acc
  | acc, c :: rest =>
    match hexValue c with
    | some d => hexNumberFrom (16 * acc + d) rest
    | none => none

/-- A number that fits in 16 bits. -/
def fitWord : Option Nat → Option Word
  | some n => if n ≤ Config.largestNumber then some (BitVec.ofNat 16 n) else none
  | none => none

/-- A text that matches `[0-9]+` with a value of at most 65535 (R157). -/
def decNumber : Text → Option Word
  | [] => none
  | c :: rest => fitWord (decNumberFrom 0 (c :: rest))

/-- A text that matches `0x[0-9a-fA-F]+` with a value of at most 65535 (R157). -/
def hexNumber : Text → Option Word
  | '0' :: 'x' :: c :: rest => fitWord (hexNumberFrom 0 (c :: rest))
  | _ => none

/-! ## Rendering -/

/-- `Render(op)` (R150). -/
def renderOperand : Operand → Text
  | .none => []
  | .reg name => regText name
  | .imm v => decText v.toNat
  | .rel b => decText b.toNat
  | .mem base d =>
    if d = 0#16 then '[' :: (baseText base ++ [']'])
    else '[' :: (baseText base ++ plusText ++ decText d.toNat ++ [']'])
  | .direct a => '[' :: (decText a.toNat ++ [']'])

/-- A decoded instruction as one line (R155). -/
def renderInstruction (d : DecodedInstruction) : Text :=
  if d.source = .none then mnemonicText d.mnemonic ++ ' ' :: renderOperand d.destination
  else mnemonicText d.mnemonic ++ ' ' :: (renderOperand d.destination ++ [',', ' '] ++ renderOperand d.source)

/-! ## Parsing lines -/

/-- Leading spaces removed; a space is the character U+0020 alone (log entry 9). -/
def trimLeft (t : Text) : Text := t.dropWhile (· == ' ')

/-- Leading and trailing spaces removed (R156). -/
def trim (t : Text) : Text := (trimLeft (trimLeft t).reverse).reverse

/-- The text before the first `c` and the text after it; none if `c` does not occur. -/
def splitAtFirst (c : Char) : Text → Option (Text × Text)
  | [] => none
  | x :: rest =>
    if x = c then some ([], rest)
    else
      match splitAtFirst c rest with
      | some (a, b) => some (x :: a, b)
      | none => none

/-- The lines of a text, split at line feeds (R156). -/
def splitLines : Text → List Text
  | [] => [[]]
  | c :: rest =>
    if c = '\n' then [] :: splitLines rest
    else
      match splitLines rest with
      | [] => [[c]]
      | l :: ls => (c :: l) :: ls

/-- One trailing carriage return removed (R156). -/
def dropReturn (t : Text) : Text := if t.getLast? = some '\r' then t.dropLast else t

/-- The non-empty lines, trimmed (R156). -/
def nonEmptyLines (t : Text) : List Text :=
  ((splitLines t).map (fun l => trim (dropReturn l))).filter (fun l => !l.isEmpty)

/-- The operands after the mnemonic and its space; the length of a parsed instruction is 0 (R156). -/
def parseOperands (mnemonic rest : Text) : Option ParsedLine :=
  match splitAtFirst ',' rest with
  | some (d, s) =>
    if trim d = [] ∨ trim s = [] then none else some ⟨mnemonic, trim d, some (trim s), 0⟩
  | none => if rest = [] then none else some ⟨mnemonic, rest, none, 0⟩

/-- `ParseLine(t)` on a trimmed, non-empty line; none is `TextParse` (R156). -/
def parseLine (t : Text) : Option ParsedLine :=
  match splitAtFirst ' ' t with
  | none => none
  | some (mnemonic, rest) => parseOperands mnemonic (trim rest)

/-- All lines, in order, counted from `n`; the first that fails gives its number (60_exceptions.md R301, R304, R307). -/
def parseLinesFrom : Nat → List Text → Except Nat (List ParsedLine)
  | _, [] => .ok []
  | n, l :: rest =>
    match parseLine l with
    | none => .error n
    | some p =>
      match parseLinesFrom (n + 1) rest with
      | .error k => .error k
      | .ok ps => .ok (p :: ps)

/-- The whole text (R156); a failure gives the line number, from 1 over the non-empty lines. -/
def parseText (t : Text) : Except Nat (List ParsedLine) := parseLinesFrom 1 (nonEmptyLines t)

/-! ## Interpretation of operand text -/

/-- A lower-case letter, `[a-z]`. -/
def isLower (c : Char) : Bool := decide (97 ≤ c.toNat ∧ c.toNat ≤ 122)

/-- The text inside brackets, if the text is `"[" ++ u ++ "]"`. -/
def inBrackets : Text → Option Text
  | '[' :: rest => if rest.getLast? = some ']' then some rest.dropLast else none
  | _ => none

/-- The text after a prefix, if it has that prefix. -/
def afterPrefix : Text → Text → Option Text
  | [], t => some t
  | _ :: _, [] => none
  | p :: ps, c :: cs => if p = c then afterPrefix ps cs else none

/-- `u` as `Base(r)` or `Base(r) ++ " + " ++ n` for one base (R157). -/
def memoryOfBase (u : Text) (b : Base) : Option Operand :=
  if u = baseText b then some (.mem b 0#16)
  else
    match afterPrefix (baseText b ++ plusText) u with
    | some n =>
      match decNumber n with
      | some d => some (.mem b d)
      | none => none
    | none => none

/-- The operand inside brackets (R157). -/
def bracketOperand (u : Text) : Except LookupKind Operand :=
  match decNumber u with
  | some a => .ok (.direct a)
  | none =>
    match allBases.findSome? (memoryOfBase u) with
    | some op => .ok op
    | none => .error .unparsableOperand

/-- `Interpret(t)` (R157). -/
def interpret (t : Text) : Except LookupKind Operand :=
  match regOfText t with
  | some r => .ok (.reg r)
  | none =>
    match decNumber t with
    | some v => .ok (.imm v)
    | none =>
      match hexNumber t with
      | some v => .ok (.imm v)
      | none =>
        match inBrackets t with
        | some u => bracketOperand u
        | none => if t ≠ [] ∧ t.all isLower then .error .unknownRegister else .error .unparsableOperand

end Sys2Proof.Machine
end

