-- ==== Sys2Proof/Machine/Operands.lean ====
section
/-! DEFINITION. Operands at execution: the operands that each row's fields stand for (30_encoding.md R122 to R137, R143),
the operand interpretation and the checks of the step (40_mov.md R201 to R204). -/

namespace Sys2Proof.Machine

/-! ## The operands of a row -/

/-- The operand of an r/m field (R125 to R128): a byte displacement is zero-extended. -/
def rmOperand : RmOperand → Operand
  | .direct a => .direct a
  | .base b => .mem b 0#16
  | .disp8 b d => .mem b (zext16 d)
  | .disp16 b d => .mem b d
  | .reg r => .reg r

/-- Whether an r/m operand is a memory operand, that is mode other than 11 (R203). -/
def isMemoryRm : RmOperand → Bool
  | .reg _ => false
  | _ => true

/-- The immediate of the formats without an `s` bit: always 16 bits once decoded (R131). -/
def immOperand : Imm → Operand
  | .byte v => .imm (zext16 v)
  | .word v => .imm v

/-- The immediate of GRP: sign-extended if `s = 1`, whatever `w` is (R131). -/
def grpOperand : GrpImm → Operand
  | .byte v => .imm (zext16 v)
  | .word v => .imm v
  | .signed _ v => .imm (sext16 v)

/-- The destination of the format RM: the register field if `d = 1` (R143). -/
def rmRegDestination (d : Bool) (reg : RegName) (rm : RmOperand) : Operand :=
  if d then .reg reg else rmOperand rm

/-- The source of the format RM: the register field if `d = 0` (R143). -/
def rmRegSource (d : Bool) (reg : RegName) (rm : RmOperand) : Operand :=
  if d then rmOperand rm else .reg reg

/-- The mnemonic of a row. -/
def instrMnemonic : Instr → Mnemonic
  | .movRmReg _ _ _ | .movImmRm _ _ _ | .movImmReg _ _ | .movMemAcc _ _ | .movAccMem _ _ => .mov
  | .addRmReg _ _ _ | .addImmRm _ _ | .addImmAcc _ => .add
  | .subRmReg _ _ _ | .subImmRm _ _ | .subImmAcc _ => .sub
  | .cmpRmReg _ _ _ | .cmpImmRm _ _ | .cmpImmAcc _ => .cmp
  | .jo _ => .jo
  | .jno _ => .jno
  | .jb _ => .jb
  | .jnb _ => .jnb
  | .je _ => .je
  | .jne _ => .jne
  | .jbe _ => .jbe
  | .ja _ => .ja
  | .js _ => .js
  | .jns _ => .jns
  | .jp _ => .jp
  | .jnp _ => .jnp
  | .jl _ => .jl
  | .jnl _ => .jnl
  | .jle _ => .jle
  | .jg _ => .jg
  | .loopnz _ => .loopnz
  | .loopz _ => .loopz
  | .loop _ => .loop
  | .jcxz _ => .jcxz

/-- The destination of a row (R122, R129, R133, R137, R143, R144). -/
def instrDestination : Instr → Operand
  | .movRmReg d reg rm | .addRmReg d reg rm | .subRmReg d reg rm | .cmpRmReg d reg rm => rmRegDestination d reg rm
  | .movImmRm _ rm _ => rmOperand rm
  | .addImmRm rm _ | .subImmRm rm _ | .cmpImmRm rm _ => rmOperand rm
  | .movImmReg reg _ => .reg reg
  | .movMemAcc w _ => .reg (accumulator w)
  | .movAccMem _ a => .direct a
  | .addImmAcc data | .subImmAcc data | .cmpImmAcc data => .reg (accumulator data.width)
  | .jo b | .jno b | .jb b | .jnb b | .je b | .jne b | .jbe b | .ja b => .rel b
  | .js b | .jns b | .jp b | .jnp b | .jl b | .jnl b | .jle b | .jg b => .rel b
  | .loopnz b | .loopz b | .loop b | .jcxz b => .rel b

/-- The source of a row (R129, R131, R132, R143, R144); a jump has none (10_state.md R45). -/
def instrSource : Instr → Operand
  | .movRmReg d reg rm | .addRmReg d reg rm | .subRmReg d reg rm | .cmpRmReg d reg rm => rmRegSource d reg rm
  | .movImmRm _ _ data => immOperand data
  | .addImmRm _ data | .subImmRm _ data | .cmpImmRm _ data => grpOperand data
  | .movImmReg _ data => immOperand data
  | .movMemAcc _ a => .direct a
  | .movAccMem w _ => .reg (accumulator w)
  | .addImmAcc data | .subImmAcc data | .cmpImmAcc data => immOperand data
  | .jo _ | .jno _ | .jb _ | .jnb _ | .je _ | .jne _ | .jbe _ | .ja _ => .none
  | .js _ | .jns _ | .jp _ | .jnp _ | .jl _ | .jnl _ | .jle _ | .jg _ => .none
  | .loopnz _ | .loopz _ | .loop _ | .jcxz _ => .none

/-- The decoded instruction that a row stands for (10_state.md R45). -/
def decodedOf (i : Instr) : DecodedInstruction :=
  ⟨instrMnemonic i, instrSource i, instrDestination i, (encode i).length⟩

/-! ## Operands of a step -/

/-- An operand as the step receives it: structured from the Decode Unit, or text from a parsed line (40_mov.md R201). -/
inductive EuOperand where
  | structured (op : Operand)
  | text (t : Text)
  deriving DecidableEq, Repr

/-- The operand itself; text goes through `Interpret` (R201). -/
def operandOf : EuOperand → Except LookupKind Operand
  | .structured op => .ok op
  | .text t => interpret t

/-- `DestCheck(dst)`: the register that the step writes (R202, R203). -/
def destCheck : Operand → Except LookupKind RegName
  | .reg name => .ok name
  | .mem _ _ => .error .memoryOperand
  | .direct _ => .error .memoryOperand
  | .imm _ => .error .nonRegisterDestination
  | .rel _ => .error .nonRegisterDestination
  | .none => .error .nonRegisterDestination

/-- An immediate cut to the destination's width, `v[w-1:0]` (R204). -/
def truncateTo (w : Width) (v : Word) : Word :=
  match w with
  | .byte => zext16 (lowByte v)
  | .word => v

/-- `SrcValue(src, w)` (R204). -/
def srcValue (f : RegFile) (w : Width) : Operand → Except LookupKind Word
  | .none => .error .missingOperand
  | .mem _ _ => .error .memoryOperand
  | .direct _ => .error .memoryOperand
  | .rel _ => .error .unparsableOperand
  | .imm v => .ok (truncateTo w v)
  | .reg name => if name.width = w then .ok (f.read name) else .error .widthMismatch

/-- The destination register and the source value of a `mov`, `add`, `sub` or `cmp`, or the first check that fails
(R205, 60_exceptions.md R307): the destination is interpreted and checked before the source. -/
def operandCheck (f : RegFile) (dst src : EuOperand) : Except LookupKind (RegName × Word) :=
  match operandOf dst with
  | .error k => .error k
  | .ok d =>
    match destCheck d with
    | .error k => .error k
    | .ok name =>
      match operandOf src with
      | .error k => .error k
      | .ok s =>
        match srcValue f name.width s with
        | .error k => .error k
        | .ok v => .ok (name, v)

end Sys2Proof.Machine
end

