-- ==== Sys2Proof/Machine/Pipeline.lean ====
section
/-! DEFINITION. The decode pipeline over any SCHEMA, as the pseudocode of 30_encoding.md gives it: the Opcode Matcher
(R110 to R118), the Flag Extractor (R119), the Field Decoder (R120 to R136), and one iteration of the Bitstream Walker
(R137, R140 to R145) as a function of the bytes from the cursor on. -/

namespace Sys2Proof.Machine

/-- A fault of the Decode Unit, before the walker adds `idx` to it (60_exceptions.md R301). -/
inductive DecodeFault where
  | schema (kind : SchemaKind)
  | truncated
  deriving DecidableEq, Repr

/-! ## The Opcode Matcher -/

/-- The candidates of a multi entry, in order; a test that needs a missing `b1` is `Truncated` (R113, R117). -/
def matchCandidates (b0 : Byte) (b1 : Option Byte) :
    List (SecondaryOperand × InstructionDefinition) → Except DecodeFault (Option InstructionDefinition)
  | [] => .ok none
  | (sec, d) :: rest =>
    if sec.bitOffset ≤ 6 then
      if lowField b0 = sec.expected then .ok (some d) else matchCandidates b0 b1 rest
    else
      match b1 with
      | none => .error .truncated
      | some b => if regField b = sec.expected then .ok (some d) else matchCandidates b0 (some b) rest

/-- The mask test of R112. -/
def maskTest (b0 : Byte) (e : OpcodeEntry) : Bool := b0 &&& topMask (e.offset - 1) == e.pattern

/-- `OM(b0, b1)` (R111 to R116): the first entry whose mask test passes decides, also when none of its candidates
holds (R115). -/
def opcodeMatch : Schema → Byte → Option Byte → Except DecodeFault (Option InstructionDefinition)
  | [], _, _ => .ok none
  | e :: rest, b0, b1 =>
    if maskTest b0 e then
      match e.lookup with
      | .single d => .ok (some d)
      | .multi candidates => matchCandidates b0 b1 candidates
    else opcodeMatch rest b0 b1

/-! ## The Flag Extractor -/

/-- One flag set. -/
def setFlag (fl : FlagSet) (f : Flag) (v : Bool) : FlagSet :=
  match f with
  | .direction => { fl with d := some v }
  | .signExtend => { fl with s := some v }
  | .wordSize => { fl with w := some v }

/-- The flags from cursor position `p` on: each is the bit `b0[7 - p]` (R119). -/
def extractFlagsFrom (b0 : Byte) : Nat → List Flag → FlagSet → FlagSet
  | _, [], fl => fl
  | p, f :: rest, fl => extractFlagsFrom b0 (p + 1) rest (setFlag fl f (b0.getLsbD (7 - p)))

/-- `FE(b0, def)` (R119). -/
def extractFlags (b0 : Byte) (d : InstructionDefinition) : FlagSet :=
  extractFlagsFrom b0 (d.offset - 1) d.flags ⟨none, none, none⟩

/-! ## The Field Decoder -/

/-- The bits at cursor positions `c` to `c + n - 1`, the first most significant; none if a byte is missing
(00_scope.md R16). -/
def fieldBits (win : List Byte) (c : Nat) : Nat → Option Nat
  | 0 => some 0
  | n + 1 =>
    match fieldBits win c n, win[(c + n) / 8]? with
    | some v, some b => some (2 * v + (b.getMsbD ((c + n) % 8)).toNat)
    | _, _ => none

/-- `Field(win, c, n)` (00_scope.md R16). -/
def readField (win : List Byte) (c n : Nat) : Except DecodeFault (BitVec n) :=
  match fieldBits win c n with
  | some v => .ok (BitVec.ofNat n v)
  | none => .error .truncated

/-- `Bytes(win, c, 1)` (00_scope.md R17). -/
def readByte (win : List Byte) (c : Nat) : Except DecodeFault Byte :=
  if c % 8 = 0 then
    match win[c / 8]? with
    | some b => .ok b
    | none => .error .truncated
  else .error (.schema .misaligned)

/-- `LE16(Bytes(win, c, 2))` (00_scope.md R17). -/
def readWord (win : List Byte) (c : Nat) : Except DecodeFault Word :=
  if c % 8 = 0 then
    match win[c / 8]?, win[c / 8 + 1]? with
    | some lo, some hi => .ok (le16 lo hi)
    | _, _ => .error .truncated
  else .error (.schema .misaligned)

/-- The operand of an RM argument, with the cursor past its 3 bits; the flag says whether it is the "quirky" direct
address (R125 to R128). -/
def rmArgument (win : List Byte) (c : Nat) (w : Width) (mode : BitVec 2) (r : BitVec 3) :
    Except DecodeFault (Operand × Bool) :=
  match mode.toNat with
  | 0 =>
    if r = 0b110#3 then
      match readWord win c with
      | .ok a => .ok (.direct a, true)
      | .error e => .error e
    else .ok (.mem (baseOf r) 0#16, false)
  | 1 =>
    match readByte win c with
    | .ok b => .ok (.mem (baseOf r) (zext16 b), false)
    | .error e => .error e
  | 2 =>
    match readWord win c with
    | .ok d => .ok (.mem (baseOf r) d, false)
    | .error e => .error e
  | _ => .ok (.reg (regName w r), false)

/-- How far `Word(Displacement)` moves the cursor (R130). -/
def displacementBits (mode : BitVec 2) (quirky : Bool) : Nat :=
  match mode.toNat with
  | 0 => if quirky then 16 else 0
  | 1 => 8
  | 2 => 16
  | _ => 0

/-- The immediate-size policy of R131: the value and the bits it takes. -/
def dataArgument (fl : FlagSet) (win : List Byte) (c : Nat) : Except DecodeFault (Word × Nat) :=
  if fl.w = some true ∧ fl.s ≠ some true then
    match readWord win c with
    | .ok v => .ok (v, 16)
    | .error e => .error e
  else
    match readByte win c with
    | .ok b => .ok (if fl.s = some true then sext16 b else zext16 b, 8)
    | .error e => .error e

/-- The slot rule of R129. -/
def Scratch.place (sc : Scratch) (op : Operand) : Scratch :=
  if sc.regIsDest then { sc with dst := op } else { sc with src := op }

/-- One argument of the Field Decoder (R121 to R133). -/
def decodeArgument (fl : FlagSet) (win : List Byte) (a : Argument) (sc : Scratch) : Except DecodeFault Scratch :=
  match a with
  | .mode =>
    match readField win sc.cursor 2 with
    | .ok m => .ok { sc with mode := some m, cursor := sc.cursor + 2 }
    | .error e => .error e
  | .registerExplicit _ => .ok { sc with regIsDest := true, cursor := sc.cursor + 3 }
  | .registerImplicit =>
    match fl.w with
    | none => .error (.schema .wordSizeUnknown)
    | some w =>
      match readField win sc.cursor 3 with
      | .ok r => .ok { sc with dst := .reg (regName (Width.ofBit w) r), cursor := sc.cursor + 3 }
      | .error e => .error e
  | .registerOrMemory =>
    match fl.w, sc.mode with
    | none, _ => .error (.schema .wordSizeUnknown)
    | some _, none => .error (.schema .noMode)
    | some w, some mode =>
      match readField win sc.cursor 3 with
      | .error e => .error e
      | .ok r =>
        match rmArgument win (sc.cursor + 3) (Width.ofBit w) mode r with
        | .error e => .error e
        | .ok (op, isQuirky) =>
          .ok (Scratch.place { sc with cursor := sc.cursor + 3, quirky := sc.quirky || isQuirky } op)
  | .wordDisplacement =>
    match sc.mode with
    | none => .error (.schema .noMode)
    | some mode => .ok { sc with cursor := sc.cursor + displacementBits mode sc.quirky }
  | .wordData =>
    match dataArgument fl win sc.cursor with
    | .ok (v, n) => .ok { sc with src := .imm v, cursor := sc.cursor + n }
    | .error e => .error e
  | .wordAddress =>
    match readWord win sc.cursor with
    | .ok v => .ok { sc with src := .direct v, cursor := sc.cursor + 16 }
    | .error e => .error e
  | .byte =>
    match readByte win sc.cursor with
    | .ok b => .ok { sc with dst := .rel b, cursor := sc.cursor + 8 }
    | .error e => .error e
  | .fixedBit => .ok { sc with cursor := sc.cursor + 1 }
  | .segmentRegister => .ok { sc with cursor := sc.cursor + 2 }

/-- The argument list, in order (R120). -/
def decodeArguments (fl : FlagSet) (win : List Byte) : List Argument → Scratch → Except DecodeFault Scratch
  | [], sc => .ok sc
  | a :: rest, sc =>
    match decodeArgument fl win a sc with
    | .ok sc => decodeArguments fl win rest sc
    | .error e => .error e

/-- The scratch at the start of a call (R51, R120). -/
def Scratch.start (d : InstructionDefinition) : Scratch :=
  ⟨(d.offset - 1) + d.flags.length, none, false, false, .none, .none⟩

/-- `FD(def, fl, win)` (R136); the answer is the scratch, which holds `src`, `dst` and the bits consumed. -/
def fieldDecode (d : InstructionDefinition) (fl : FlagSet) (win : List Byte) : Except DecodeFault Scratch :=
  match decodeArguments fl win d.args (Scratch.start d) with
  | .error e => .error e
  | .ok sc => if sc.cursor % 8 = 0 then .ok sc else .error (.schema .misaligned)

/-! ## One iteration of the walker -/

/-- The accumulator fills an empty destination (R137). -/
def defaultDestination (fl : FlagSet) (dst : Operand) : Except DecodeFault Operand :=
  if dst = .none then
    match fl.w with
    | none => .error (.schema .wordSizeUnknown)
    | some w => .ok (.reg (accumulator (Width.ofBit w)))
  else .ok dst

/-- The direction value (R144). -/
def directionValue (d : InstructionDefinition) (fl : FlagSet) : Option Bool :=
  match fl.d with
  | some v => some v
  | none => d.impliedDirection

/-- The decoded instruction: default first, then the direction swap (R137, R143, R145). -/
def assemble (d : InstructionDefinition) (fl : FlagSet) (sc : Scratch) : Except DecodeFault DecodedInstruction :=
  match defaultDestination fl sc.dst with
  | .error e => .error e
  | .ok dst =>
    if directionValue d fl = some false then .ok ⟨d.mnemonic, dst, sc.src, sc.cursor / 8⟩
    else .ok ⟨d.mnemonic, sc.src, dst, sc.cursor / 8⟩

/-- What one iteration finds at the cursor. -/
inductive Iteration where
  /-- `idx` is not below N: the walk ends -/
  | endOfStream
  /-- no match: the byte is skipped (R148) -/
  | skip
  | hit (d : DecodedInstruction) (sc : Scratch)
  deriving DecidableEq, Repr

/-- The iteration after a hit (R140 to R145). The window is `max_byte_count + 1` bytes or what is left (R142). -/
def decodeHit (d : InstructionDefinition) (b0 : Byte) (bs : List Byte) : Except DecodeFault Iteration :=
  if flagsFit d then
    match fieldDecode d (extractFlags b0 d) (bs.take (d.maxByteCount + 1)) with
    | .error e => .error e
    | .ok sc =>
      match assemble d (extractFlags b0 d) sc with
      | .error e => .error e
      | .ok di => .ok (.hit di sc)
  else .error (.schema .flagsOverflow)

/-- One iteration of `BW`, over the bytes from the cursor to the end of the stream (R140). -/
def iterate (schema : Schema) : List Byte → Except DecodeFault Iteration
  | [] => .ok .endOfStream
  | b0 :: rest =>
    match opcodeMatch schema b0 rest.head? with
    | .error e => .error e
    | .ok none => .ok .skip
    | .ok (some d) => decodeHit d b0 (b0 :: rest)

end Sys2Proof.Machine
end

