-- ==== Sys2Proof/Machine/DecodeUnit.lean ====
section
/-! DEFINITION. The Decode Unit's transition: one iteration of the Bitstream Walker on the state (30_encoding.md R140). -/

namespace Sys2Proof.Machine

/-- The fault of the Decode Unit, with the `idx` of the instruction (60_exceptions.md R301, 30_encoding.md R147). -/
def raiseDecode (f : DecodeFault) (s : State) : Host.Outcome State Fault Refusal :=
  match f with
  | .schema kind => .fault (.schemaInconsistency kind s.idx)
  | .truncated => .fault (.truncated s.idx)

/-- The element of the output list for what the pipeline decoded from `bs`: the row of the ROM that these bytes
encode, if the pipeline's result is that row's, and else the result itself (log entry 12). -/
def listing (idx : Nat) (bs : List Byte) (d : DecodedInstruction) : Listed :=
  match decode bs with
  | .hit i _ => if decodedOf i = d then .row idx i else .replaced idx d
  | .unmatched => .replaced idx d
  | .truncated => .replaced idx d

/-- One iteration (R140): skip a byte, or append an instruction and advance by its length, or end the walk. -/
def walkStep (s : State) : Host.Outcome State Fault Refusal :=
  match iterate s.schema (Memory.bytesFrom s.mem s.idx) with
  | .error f => raiseDecode f s
  | .ok .endOfStream => .next s.endWalk
  | .ok .skip => .next { s with idx := s.idx + 1 }
  | .ok (.hit d sc) =>
    .next { s with
      decoded := s.decoded ++ [listing s.idx (Memory.bytesFrom s.mem s.idx) d]
      scratch := sc
      idx := s.idx + d.length }

end Sys2Proof.Machine
end

