-- ==== Sys2Proof/Machine/Output.lean ====
section
/-! DEFINITION. What the host prints, as functions of the state: the lines of `decode` mode (00_scope.md R12), the trace
lines (60_exceptions.md R320) and the dump (R321). The numeric fault codes of R301 stand here too. -/

namespace Sys2Proof.Machine

/-- The numeric code of a fault (R301). -/
def faultCode : Fault → Nat
  | .schemaInconsistency .flagsOverflow _ => 1
  | .schemaInconsistency .wordSizeUnknown _ => 2
  | .schemaInconsistency .noMode _ => 3
  | .schemaInconsistency .misaligned _ => 4
  | .truncated _ => 10
  | .execLookup .unknownRegister _ => 20
  | .execLookup .unparsableOperand _ => 21
  | .execLookup .nonRegisterDestination _ => 22
  | .execLookup .memoryOperand _ => 23
  | .execLookup .widthMismatch _ => 24
  | .execLookup .unknownMnemonic _ => 25
  | .execLookup .missingOperand _ => 26
  | .textParse _ => 30

/-- The information that a fault records: `idx`, list position or line number (R301). -/
def faultInfo : Fault → Nat
  | .schemaInconsistency _ idx => idx
  | .truncated idx => idx
  | .execLookup _ pos => pos
  | .textParse line => line

/-- The decoded instruction of a list element; a parsed line has none. -/
def decodedOfListed : Listed → Option DecodedInstruction
  | .row _ i => some (decodedOf i)
  | .replaced _ d => some d
  | .line _ => none

/-- The instruction texts of the Decode Unit's output list (R12, 30_encoding.md R155). -/
def decodeLines (s : State) : List Text := (s.decoded.filterMap decodedOfListed).map renderInstruction

/-- `TraceLine` (R320). -/
def traceLine (mn dtext stext : Text) : Option TraceRecord → Text
  | some r =>
    mn ++ [' '] ++ dtext ++ [',', ' '] ++ stext ++ [';', ' '] ++ reg16Text r.reg ++ [':', ' '] ++ hexText r.before ++
      [' ', '-', '-', '>', ' '] ++ hexText r.after
  | none => mn ++ [' '] ++ dtext ++ (if stext = [] then [] else [',', ' '] ++ stext)

/-- The trace line of a list element. Operand texts of a parsed line are printed as written (R320). -/
def listedTraceLine (x : Listed) (r : Option TraceRecord) : Option Text :=
  match x with
  | .line l => some (traceLine l.mnemonic l.destination (l.source.getD []) r)
  | .row _ _ => none
  | .replaced _ _ => none

/-- The trace lines printed so far: one for each step that completed, in order (R320). The direct path prints none
(R322). -/
def traceLines (s : State) : List Text :=
  ((s.program.zip s.trace).map (fun p => listedTraceLine p.1 p.2)).filterMap id

/-- One line of the dump, `name: hex` (R321). -/
def dumpLine (f : RegFile) (r : Reg16) : Text := reg16Text r ++ [':', ' '] ++ hexText (f.word r)

/-- The final dump: twelve lines in canonical order, without the flags (R321). -/
def dumpLines (s : State) : List Text := allReg16.map (dumpLine s.regs)

/-- What the host has printed in this state (R12, R303, R320 to R322): `decode` mode prints the instructions when the
walk has ended without a fault; `execute` mode prints trace lines as steps complete, and the dump after the last. -/
def printed (s : State) : List Text :=
  match s.mode, s.phase with
  | .decode, .finished => decodeLines s
  | .execute, .executing => traceLines s
  | .execute, .finished => traceLines s ++ dumpLines s
  | _, _ => []

end Sys2Proof.Machine
end

