-- ==== Sys2Proof/Machine/Flags.lean ====
section
/-! DEFINITION. The flag function (10_state.md R39) and the ALU on the addressed half or the whole register
(41_arith.md R220 to R223). -/

namespace Sys2Proof.Machine

/-- `Flags(V)`: `ZF` is whether V is 0, `SF` is bit 15 (R39). -/
def flagsOf (v : Word) : Flags := ⟨v == 0#16, v.msb⟩

/-- The two ALU operations. -/
inductive AluOp where
  | add
  | sub
  deriving DecidableEq, Repr

/-- `a op_16 b` (00_scope.md R18). -/
def alu16 (op : AluOp) (a b : Word) : Word :=
  match op with
  | .add => a + b
  | .sub => a - b

/-- `a op_8 b` (00_scope.md R18). -/
def alu8 (op : AluOp) (a b : Byte) : Byte :=
  match op with
  | .add => a + b
  | .sub => a - b

/-- The operation on a register's pair: one 16-bit operation, or one 8-bit operation in a half with no carry or borrow
into the other (R220, R221, R223). -/
def BytePair.alu (p : BytePair) (op : AluOp) (m : AccessMode) (v : Word) : BytePair :=
  match m with
  | .universal => .ofWord (alu16 op p.toWord v)
  | .high => { p with hi := alu8 op p.hi (lowByte v) }
  | .low => { p with lo := alu8 op p.lo (lowByte v) }

end Sys2Proof.Machine
end

