-- ==== Sys2Proof/Machine/Arith.lean ====
section
/-! DEFINITION. The arithmetic family (41_arith.md R220 to R242): `ExecAddSub`, `ExecCmp`, and one meaning for each
row. -/

namespace Sys2Proof.Machine

/-- `ExecAddSub(op, dst, src)` (R220): the addressed half or the whole register is written, and the flags come from the
whole parent register after it (R222). -/
def addSubOp (op : AluOp) (dst src : EuOperand) (s : State) : Host.Outcome State Fault Refusal :=
  match operandCheck s.regs dst src with
  | .error k => raiseLookup k s
  | .ok (name, v) =>
    let parent := (resolve name).1
    let result := (s.regs.get parent).alu op (resolve name).2 v
    .next (State.retire { s with regs := s.regs.set parent result, flags := flagsOf result.toWord }
      (some ⟨parent, s.regs.word parent, result.toWord⟩))

/-- `ExecCmp(dst, src)` (R223): the same difference on a private copy; only the flags are written, and the record holds
the value the register would have. -/
def cmpOp (dst src : EuOperand) (s : State) : Host.Outcome State Fault Refusal :=
  match operandCheck s.regs dst src with
  | .error k => raiseLookup k s
  | .ok (name, v) =>
    let parent := (resolve name).1
    let copy := (s.regs.get parent).alu .sub (resolve name).2 v
    .next (State.retire { s with flags := flagsOf copy.toWord }
      (some ⟨parent, s.regs.word parent, copy.toWord⟩))

/-- `add` register with register/memory, E6 (R230). -/
def execAddRmReg (d : Bool) (reg : RegName) (rm : RmOperand) (s : State) : Host.Outcome State Fault Refusal :=
  addSubOp .add (.structured (rmRegDestination d reg rm)) (.structured (rmRegSource d reg rm)) s

/-- `add` immediate to register/memory, E7 candidate `add` (R231). -/
def execAddImmRm (rm : RmOperand) (data : GrpImm) (s : State) : Host.Outcome State Fault Refusal :=
  addSubOp .add (.structured (rmOperand rm)) (.structured (grpOperand data)) s

/-- `add` immediate to accumulator, E8 (R232). -/
def execAddImmAcc (data : Imm) (s : State) : Host.Outcome State Fault Refusal :=
  addSubOp .add (.structured (.reg (accumulator data.width))) (.structured (immOperand data)) s

/-- `sub` register with register/memory, E9 (R235). -/
def execSubRmReg (d : Bool) (reg : RegName) (rm : RmOperand) (s : State) : Host.Outcome State Fault Refusal :=
  addSubOp .sub (.structured (rmRegDestination d reg rm)) (.structured (rmRegSource d reg rm)) s

/-- `sub` immediate from register/memory, E7 candidate `sub` (R236). -/
def execSubImmRm (rm : RmOperand) (data : GrpImm) (s : State) : Host.Outcome State Fault Refusal :=
  addSubOp .sub (.structured (rmOperand rm)) (.structured (grpOperand data)) s

/-- `sub` immediate from accumulator, E10 (R237). -/
def execSubImmAcc (data : Imm) (s : State) : Host.Outcome State Fault Refusal :=
  addSubOp .sub (.structured (.reg (accumulator data.width))) (.structured (immOperand data)) s

/-- `cmp` register with register/memory, E11 (R240). -/
def execCmpRmReg (d : Bool) (reg : RegName) (rm : RmOperand) (s : State) : Host.Outcome State Fault Refusal :=
  cmpOp (.structured (rmRegDestination d reg rm)) (.structured (rmRegSource d reg rm)) s

/-- `cmp` immediate with register/memory, E7 candidate `cmp` (R241). -/
def execCmpImmRm (rm : RmOperand) (data : GrpImm) (s : State) : Host.Outcome State Fault Refusal :=
  cmpOp (.structured (rmOperand rm)) (.structured (grpOperand data)) s

/-- `cmp` immediate with accumulator, E12 (R242). -/
def execCmpImmAcc (data : Imm) (s : State) : Host.Outcome State Fault Refusal :=
  cmpOp (.structured (.reg (accumulator data.width))) (.structured (immOperand data)) s

end Sys2Proof.Machine
end

