-- ==== Sys2Proof/Machine/Branch.lean ====
section
/-! DEFINITION. The branch family (42_branch.md R260 to R283). The block decodes its 20 mnemonics and executes none: each
is a no-op with no trace record. -/

namespace Sys2Proof.Machine

/-- `ExecBranch`: no operand is interpreted, no register and no flag is written, and the record is `None` (R260). -/
def branchOp (s : State) : Host.Outcome State Fault Refusal := .next (State.retire s none)

/-- `jo`, overflow (R263). -/
def execJo (_b : Byte) (s : State) : Host.Outcome State Fault Refusal := branchOp s

/-- `jno`, not overflow (R264). -/
def execJno (_b : Byte) (s : State) : Host.Outcome State Fault Refusal := branchOp s

/-- `jb`, below (R265). -/
def execJb (_b : Byte) (s : State) : Host.Outcome State Fault Refusal := branchOp s

/-- `jnb`, not below (R266). -/
def execJnb (_b : Byte) (s : State) : Host.Outcome State Fault Refusal := branchOp s

/-- `je`, equal (R267). -/
def execJe (_b : Byte) (s : State) : Host.Outcome State Fault Refusal := branchOp s

/-- `jne`, not equal (R268). -/
def execJne (_b : Byte) (s : State) : Host.Outcome State Fault Refusal := branchOp s

/-- `jbe`, below or equal (R269). -/
def execJbe (_b : Byte) (s : State) : Host.Outcome State Fault Refusal := branchOp s

/-- `ja`, above (R270). -/
def execJa (_b : Byte) (s : State) : Host.Outcome State Fault Refusal := branchOp s

/-- `js`, sign (R271). -/
def execJs (_b : Byte) (s : State) : Host.Outcome State Fault Refusal := branchOp s

/-- `jns`, not sign (R272). -/
def execJns (_b : Byte) (s : State) : Host.Outcome State Fault Refusal := branchOp s

/-- `jp`, parity (R273). -/
def execJp (_b : Byte) (s : State) : Host.Outcome State Fault Refusal := branchOp s

/-- `jnp`, not parity (R274). -/
def execJnp (_b : Byte) (s : State) : Host.Outcome State Fault Refusal := branchOp s

/-- `jl`, less (R275). -/
def execJl (_b : Byte) (s : State) : Host.Outcome State Fault Refusal := branchOp s

/-- `jnl`, not less (R276). -/
def execJnl (_b : Byte) (s : State) : Host.Outcome State Fault Refusal := branchOp s

/-- `jle`, less or equal (R277). -/
def execJle (_b : Byte) (s : State) : Host.Outcome State Fault Refusal := branchOp s

/-- `jg`, greater (R278). -/
def execJg (_b : Byte) (s : State) : Host.Outcome State Fault Refusal := branchOp s

/-- `loopnz`, loop while not zero; `cx` is not decremented (R279). -/
def execLoopnz (_b : Byte) (s : State) : Host.Outcome State Fault Refusal := branchOp s

/-- `loopz`, loop while zero; `cx` is not decremented (R280). -/
def execLoopz (_b : Byte) (s : State) : Host.Outcome State Fault Refusal := branchOp s

/-- `loop`, loop; `cx` is not decremented (R281). -/
def execLoop (_b : Byte) (s : State) : Host.Outcome State Fault Refusal := branchOp s

/-- `jcxz`, jump if CX is zero; `cx` is not read (R282). -/
def execJcxz (_b : Byte) (s : State) : Host.Outcome State Fault Refusal := branchOp s

end Sys2Proof.Machine
end

