-- ==== Sys2Proof/Machine/Mov.lean ====
section
/-! DEFINITION. The `mov` family (40_mov.md R205 to R210): one operation, `ExecMov`, and one meaning for each row. -/

namespace Sys2Proof.Machine

/-- `ExecMov(dst, src)` (R205): the flags stay. -/
def movOp (dst src : EuOperand) (s : State) : Host.Outcome State Fault Refusal :=
  match operandCheck s.regs dst src with
  | .error k => raiseLookup k s
  | .ok (name, v) =>
    let regs := s.regs.write name v
    let parent := (resolve name).1
    .next (State.retire { s with regs := regs } (some ⟨parent, s.regs.word parent, regs.word parent⟩))

/-- `mov` register with register/memory, E1 (R206). -/
def execMovRmReg (d : Bool) (reg : RegName) (rm : RmOperand) (s : State) : Host.Outcome State Fault Refusal :=
  movOp (.structured (rmRegDestination d reg rm)) (.structured (rmRegSource d reg rm)) s

/-- `mov` immediate to register/memory, E2 (R207); the unchecked field has no effect (30_encoding.md R118). -/
def execMovImmRm (_unchecked : BitVec 3) (rm : RmOperand) (data : Imm) (s : State) :
    Host.Outcome State Fault Refusal :=
  movOp (.structured (rmOperand rm)) (.structured (immOperand data)) s

/-- `mov` immediate to register, E3 (R208). -/
def execMovImmReg (reg : RegName) (data : Imm) (s : State) : Host.Outcome State Fault Refusal :=
  movOp (.structured (.reg reg)) (.structured (immOperand data)) s

/-- `mov` direct memory to accumulator, E4 (R209): always `ExecLookup(MemoryOperand)`, by the source. -/
def execMovMemAcc (w : Width) (a : Word) (s : State) : Host.Outcome State Fault Refusal :=
  movOp (.structured (.reg (accumulator w))) (.structured (.direct a)) s

/-- `mov` accumulator to direct memory, E5 (R210): always `ExecLookup(MemoryOperand)`, by the destination. -/
def execMovAccMem (w : Width) (a : Word) (s : State) : Host.Outcome State Fault Refusal :=
  movOp (.structured (.direct a)) (.structured (.reg (accumulator w))) s

end Sys2Proof.Machine
end

