-- ==== Sys2Proof/Machine/Dispatch.lean ====
section
/-! DEFINITION. The dispatch from a row of the opcode table to its meaning (40_mov.md R200). -/

namespace Sys2Proof.Machine

def exec (i : Instr) (s : State) : Host.Outcome State Fault Refusal :=
  match i with
  | .movRmReg d reg rm => Sys2Proof.Machine.execMovRmReg d reg rm s
  | .movImmRm unchecked rm data => Sys2Proof.Machine.execMovImmRm unchecked rm data s
  | .movImmReg reg data => Sys2Proof.Machine.execMovImmReg reg data s
  | .movMemAcc w a => Sys2Proof.Machine.execMovMemAcc w a s
  | .movAccMem w a => Sys2Proof.Machine.execMovAccMem w a s
  | .addRmReg d reg rm => Sys2Proof.Machine.execAddRmReg d reg rm s
  | .addImmRm rm data => Sys2Proof.Machine.execAddImmRm rm data s
  | .addImmAcc data => Sys2Proof.Machine.execAddImmAcc data s
  | .subRmReg d reg rm => Sys2Proof.Machine.execSubRmReg d reg rm s
  | .subImmRm rm data => Sys2Proof.Machine.execSubImmRm rm data s
  | .subImmAcc data => Sys2Proof.Machine.execSubImmAcc data s
  | .cmpRmReg d reg rm => Sys2Proof.Machine.execCmpRmReg d reg rm s
  | .cmpImmRm rm data => Sys2Proof.Machine.execCmpImmRm rm data s
  | .cmpImmAcc data => Sys2Proof.Machine.execCmpImmAcc data s
  | .jo b => Sys2Proof.Machine.execJo b s
  | .jno b => Sys2Proof.Machine.execJno b s
  | .jb b => Sys2Proof.Machine.execJb b s
  | .jnb b => Sys2Proof.Machine.execJnb b s
  | .je b => Sys2Proof.Machine.execJe b s
  | .jne b => Sys2Proof.Machine.execJne b s
  | .jbe b => Sys2Proof.Machine.execJbe b s
  | .ja b => Sys2Proof.Machine.execJa b s
  | .js b => Sys2Proof.Machine.execJs b s
  | .jns b => Sys2Proof.Machine.execJns b s
  | .jp b => Sys2Proof.Machine.execJp b s
  | .jnp b => Sys2Proof.Machine.execJnp b s
  | .jl b => Sys2Proof.Machine.execJl b s
  | .jnl b => Sys2Proof.Machine.execJnl b s
  | .jle b => Sys2Proof.Machine.execJle b s
  | .jg b => Sys2Proof.Machine.execJg b s
  | .loopnz b => Sys2Proof.Machine.execLoopnz b s
  | .loopz b => Sys2Proof.Machine.execLoopz b s
  | .loop b => Sys2Proof.Machine.execLoop b s
  | .jcxz b => Sys2Proof.Machine.execJcxz b s

end Sys2Proof.Machine
end

