-- ==== Sys2Proof/Machine/Run.lean ====
section
/-! DEFINITION. The run: the Execution Unit's transition over its list (40_mov.md R200, 10_state.md R53), the parse of
`execute` mode (60_exceptions.md R304), and the placing of a table word where the next step runs it. -/

namespace Sys2Proof.Machine

/-! ## The Execution Unit -/

/-- The dispatch on the mnemonic (R200). -/
def execMnemonic (m : Mnemonic) (dst src : EuOperand) (s : State) : Host.Outcome State Fault Refusal :=
  match m with
  | .mov => movOp dst src s
  | .add => addSubOp .add dst src s
  | .sub => addSubOp .sub dst src s
  | .cmp => cmpOp dst src s
  | .jo | .jno | .jb | .jnb | .je | .jne | .jbe | .ja | .js | .jns | .jp | .jnp | .jl | .jnl | .jle | .jg => branchOp s
  | .loopnz | .loopz | .loop | .jcxz => branchOp s

/-- The step on a decoded instruction with structured operands (R200, R201). -/
def execDecoded (d : DecodedInstruction) (s : State) : Host.Outcome State Fault Refusal :=
  execMnemonic d.mnemonic (.structured d.destination) (.structured d.source) s

/-- The source of a parsed line, which may be absent (30_encoding.md R156). -/
def lineSource (l : ParsedLine) : EuOperand :=
  match l.source with
  | some t => .text t
  | none => .structured .none

/-- The step on a parsed line: an unknown mnemonic is a fault before any operand is read (R200, R201). -/
def execLine (l : ParsedLine) (s : State) : Host.Outcome State Fault Refusal :=
  match mnemonicOfText l.mnemonic with
  | none => raiseLookup .unknownMnemonic s
  | some m => execMnemonic m (.text l.destination) (lineSource l) s

/-- The step of the Execution Unit on an element of its list. -/
def execListed (x : Listed) (s : State) : Host.Outcome State Fault Refusal :=
  match x with
  | .row _ i => exec i s
  | .replaced _ d => execDecoded d s
  | .line l => execLine l s

/-- The next instruction of the list, or the end of the run after the last (60_exceptions.md R327). DESIGN CHOICE: that end
is a transition of its own, which executes nothing, so n instructions take n + 1 steps to `finished` (log entry 17). -/
def executeStep (s : State) : Host.Outcome State Fault Refusal :=
  match s.program[s.pos]? with
  | none => .next { s with phase := .finished }
  | some x => execListed x s

/-! ## The parse of `execute` mode -/

/-- Every line is parsed before the first is executed (30_encoding.md R156, 60_exceptions.md R304). -/
def parseStep (s : State) : Host.Outcome State Fault Refusal :=
  match parseText s.text with
  | .error line => .fault (.textParse line)
  | .ok ls => .next (s.startExecution (ls.map .line))

/-! ## A word of the opcode table -/

/-- The state whose next step runs the instruction of a table word: its bytes are the stream, and the list of the
Execution Unit is that one instruction. Where the decoder refuses the word, its bytes are the stream and the walker is
at its start (log entry 2). -/
def placeWord (s : State) (nbits w : Nat) : State :=
  match decode (tableBytes nbits w) with
  | .hit i rest =>
    { s with
      mem := Memory.ofBytes ((tableBytes nbits w).take ((tableBytes nbits w).length - rest.length))
      program := [.row 0 i]
      pos := 0
      phase := .executing }
  | .unmatched => { s with mem := Memory.ofBytes (tableBytes nbits w), idx := 0, decoded := [], phase := .decoding }
  | .truncated => { s with mem := Memory.ofBytes (tableBytes nbits w), idx := 0, decoded := [], phase := .decoding }

end Sys2Proof.Machine
end

