-- ==== Sys2Proof/Machine/Step.lean ====
section
/-! DEFINITION. One step of the block: one atomic transition of the unit whose turn it is (00_scope.md R7,
60_exceptions.md R307). -/

namespace Sys2Proof.Machine

/-- One transition. A finished run stays as it is (log entry 1). -/
def step (s : State) : Host.Outcome State Fault Refusal :=
  match s.phase with
  | .decoding => walkStep s
  | .parsing => parseStep s
  | .executing => executeStep s
  | .finished => .next s

/-- The state whose next step runs the instruction of a table word (log entries 2 and 7). -/
def State.withFetchWord (s : State) (nbits w : Nat) : State := placeWord s nbits w

end Sys2Proof.Machine
end

