-- ==== Sys2Proof/Safety.lean ====
section
/-! DEFINITION. What counts as a safe run, in the terms the claims use: a run without a fault, and the invariant of the
block with the ROM. -/

namespace Sys2Proof.Machine

/-- `n` steps from `s` without a fault or a refusal (60_exceptions.md R306). -/
def RunsClean (n : Nat) (s : State) : Prop := ∃ t, Host.Core.run Sys2Proof.core n s = .next t

/-- A list element that the stream really holds: a row stands at its index, byte for byte; a parsed line has no bytes.
With the ROM no other element is ever listed. -/
def Faithful (m : Memory) : Listed → Prop
  | .row idx i => i.wf = true ∧ encode i <+: Memory.bytesFrom m idx
  | .replaced _ _ => False
  | .line _ => True

/-- The invariant of the block with the ROM of 30_encoding.md R100. -/
structure Inv (s : State) : Prop where
  /-- the stream lists exactly the indices 0 to N-1 (20_memory.md R70) -/
  streamForm : Memory.wf s.mem = true
  /-- the SCHEMA is the ROM (10_state.md R54) -/
  schemaIsRom : s.schema = romSchema
  /-- the cursor never passes the end of the stream (R50) -/
  cursorInStream : s.idx ≤ Memory.size s.mem
  /-- the output list holds what the stream holds (30_encoding.md R146) -/
  decodedFaithful : ∀ x ∈ s.decoded, Faithful s.mem x
  /-- so does the list that the Execution Unit runs (10_state.md R53) -/
  programFaithful : ∀ x ∈ s.program, Faithful s.mem x
  /-- one trace record for each executed instruction (60_exceptions.md R322) -/
  oneRecordEach : s.trace.length = s.pos
  /-- the list position stays in the list (60_exceptions.md R301) -/
  posInList : s.pos ≤ s.program.length

end Sys2Proof.Machine
end

