-- ==== Sys2Proof/Certificates/Slice0/Obligations.lean ====
section
/-! DEFINITION. The statements about the block, from the numbered rules of spec/. `Sys2Proof.Spec` holds the few
functions that the statements use to say a result in plain arithmetic, apart from the model's own functions. -/

namespace Sys2Proof.Spec

open Sys2Proof.Machine

/-! ## Results in plain arithmetic -/

/-- `256 * hi + lo` (10_state.md R31). -/
def pairValue (p : BytePair) : Nat := 256 * p.hi.toNat + p.lo.toNat

/-- The pair of a value below 65536. -/
def pairOf (n : Nat) : BytePair := ⟨BitVec.ofNat 8 (n / 256), BitVec.ofNat 8 (n % 256)⟩

/-- `(a + b) mod m` or `(a - b) mod m` for `a, b < m` (00_scope.md R18). -/
def arith (op : AluOp) (m a b : Nat) : Nat :=
  match op with
  | .add => (a + b) % m
  | .sub => (a + (m - b)) % m

/-- The pair after `add` or `sub` of `v`: the whole register modulo 65536, or one half modulo 256 (41_arith.md R221). -/
def resultPair (op : AluOp) (m : AccessMode) (p : BytePair) (v : Nat) : BytePair :=
  match m with
  | .universal => pairOf (arith op 65536 (pairValue p) (v % 65536))
  | .high => ⟨BitVec.ofNat 8 (arith op 256 p.hi.toNat (v % 256)), p.lo⟩
  | .low => ⟨p.hi, BitVec.ofNat 8 (arith op 256 p.lo.toNat (v % 256))⟩

/-- The pair after a write of `v` (10_state.md R34). -/
def writtenPair (m : AccessMode) (p : BytePair) (v : Nat) : BytePair :=
  match m with
  | .universal => pairOf v
  | .high => ⟨BitVec.ofNat 8 (v % 256), p.lo⟩
  | .low => ⟨p.hi, BitVec.ofNat 8 (v % 256)⟩

/-- `Flags(V)` of a pair's value (10_state.md R39). -/
def pairFlags (p : BytePair) : Flags := ⟨decide (pairValue p = 0), decide (0x8000 ≤ pairValue p)⟩

/-- What a register name reads as (10_state.md R33). -/
def registerValue (f : RegFile) (name : RegName) : Nat :=
  match (resolve name).2 with
  | .universal => pairValue (f.get (resolve name).1)
  | .high => (f.get (resolve name).1).hi.toNat
  | .low => (f.get (resolve name).1).lo.toNat

/-- The immediate of a form without an `s` bit (30_encoding.md R131). -/
def immValue : Imm → Nat
  | .byte v => v.toNat
  | .word v => v.toNat

/-- The immediate of the group: with `s = 1` a byte from 0x80 on stands for `0xFF00 | byte` (30_encoding.md R131). -/
def groupValue : GrpImm → Nat
  | .byte v => v.toNat
  | .word v => v.toNat
  | .signed _ v => if 0x80 ≤ v.toNat then 0xFF00 + v.toNat else v.toNat

/-- The accumulator of a width (30_encoding.md R137). -/
def accumulatorName : Width → RegName
  | .byte => .r8 .al
  | .word => .r16 .ax

/-- The state after `mov` of `v` to `name`, with its record (40_mov.md R205). -/
def movState (name : RegName) (v : Nat) (s : State) : State :=
  let p := s.regs.get (resolve name).1
  let q := writtenPair (resolve name).2 p v
  { s with
    regs := s.regs.set (resolve name).1 q
    trace := s.trace ++ [some ⟨(resolve name).1, BitVec.ofNat 16 (pairValue p), BitVec.ofNat 16 (pairValue q)⟩]
    pos := s.pos + 1 }

/-- The state after `add` or `sub` of `v` to `name`, with its record (41_arith.md R220). -/
def arithState (op : AluOp) (name : RegName) (v : Nat) (s : State) : State :=
  let p := s.regs.get (resolve name).1
  let q := resultPair op (resolve name).2 p v
  { s with
    regs := s.regs.set (resolve name).1 q
    flags := pairFlags q
    trace := s.trace ++ [some ⟨(resolve name).1, BitVec.ofNat 16 (pairValue p), BitVec.ofNat 16 (pairValue q)⟩]
    pos := s.pos + 1 }

/-- The state after `cmp` of `name` with `v`: the registers stay (41_arith.md R223). -/
def cmpState (name : RegName) (v : Nat) (s : State) : State :=
  { arithState .sub name v s with regs := s.regs }

/-- The state after a branch: a record `None` and the next list position (42_branch.md R260). -/
def branchState (s : State) : State := { s with trace := s.trace ++ [none], pos := s.pos + 1 }

/-! ## Words used by the statements -/

/-- The four mnemonics that the Execution Unit interprets (40_mov.md R202). -/
def executed : List Mnemonic := [.mov, .add, .sub, .cmp]

/-- The displacement bytes of an r/m operand (30_encoding.md R92). -/
def dispLength : RmOperand → Nat
  | .direct _ => 2
  | .base _ => 0
  | .disp8 _ _ => 1
  | .disp16 _ _ => 2
  | .reg _ => 0

/-- The data bytes by `w`, and by `s` where the format has it (30_encoding.md R93). -/
def dataLength (w : Width) (s : Bool) : Nat := if w = .word ∧ s = false then 2 else 1

/-- The test of a candidate: the value compared is `b0[2:0]` up to position 6 and else `b1[5:3]`; none where it needs a
missing `b1` (30_encoding.md R113). -/
def candidateTest (b0 : Byte) (b1 : Option Byte) (c : SecondaryOperand) : Option Bool :=
  if c.bitOffset ≤ 6 then some (decide (b0.extractLsb' 0 3 = c.expected))
  else b1.map (fun b => decide (b.extractLsb' 3 3 = c.expected))

/-- The sixteen upper-case hexadecimal digits (60_exceptions.md R320). -/
def hexDigits : List Char :=
  ['0', '1', '2', '3', '4', '5', '6', '7', '8', '9', 'A', 'B', 'C', 'D', 'E', 'F']

/-- `0x` and the four digits of a value below 65536, with leading zeros (60_exceptions.md R320). -/
def hexForm (n : Nat) : Text :=
  ['0', 'x'] ++ [n / 4096 % 16, n / 256 % 16, n / 16 % 16, n % 16].map (fun k => hexDigits.getD k '0')

/-- The line of a decoded instruction (30_encoding.md R155). -/
def instructionLine (d : DecodedInstruction) : Text :=
  mnemonicText d.mnemonic ++ [' '] ++ renderOperand d.destination ++
    (if d.source = .none then [] else [',', ' '] ++ renderOperand d.source)

/-- The trace line of a parsed line whose step gave this record (60_exceptions.md R320). -/
def stepLine (l : ParsedLine) : Option TraceRecord → Text
  | some r =>
    l.mnemonic ++ [' '] ++ l.destination ++ [',', ' '] ++ l.source.getD [] ++ [';', ' '] ++ reg16Text r.reg ++
      [':', ' '] ++ hexForm r.before.toNat ++ [' ', '-', '-', '>', ' '] ++ hexForm r.after.toNat
  | none => l.mnemonic ++ [' '] ++ l.destination ++ (if l.source.getD [] = [] then [] else [',', ' '] ++ l.source.getD [])

/-- A memory operand (40_mov.md R203). -/
def isMemory : Operand → Bool
  | .mem _ _ => true
  | .direct _ => true
  | _ => false

/-- The operand that the text of an operand stands for; a branch's byte is text for a number (30_encoding.md R158). -/
def reread : Operand → Operand
  | .rel b => .imm (b.setWidth 16)
  | op => op

/-- A first byte of the ROM (30_encoding.md R102), the group apart. -/
def isRomByte (b : Nat) : Prop :=
  b ≤ 0x05 ∨ (0x28 ≤ b ∧ b ≤ 0x2D) ∨ (0x38 ≤ b ∧ b ≤ 0x3D) ∨ (0x70 ≤ b ∧ b ≤ 0x7F) ∨ (0x88 ≤ b ∧ b ≤ 0x8B) ∨
    (0xA0 ≤ b ∧ b ≤ 0xA3) ∨ (0xB0 ≤ b ∧ b ≤ 0xBF) ∨ (0xC6 ≤ b ∧ b ≤ 0xC7) ∨ (0xE0 ≤ b ∧ b ≤ 0xE3)

/-- A first byte of the group E7. -/
def isGroupByte (b : Nat) : Prop := 0x80 ≤ b ∧ b ≤ 0x83

/-- The list elements of instructions that stand one after another from an index on. -/
def rowsFrom : Nat → List Instr → List Listed
  | _, [] => []
  | k, i :: rest => .row k i :: rowsFrom (k + (encode i).length) rest

/-- The bytes of instructions that stand one after another. -/
def encodeAll : List Instr → List Byte
  | [] => []
  | i :: rest => encode i ++ encodeAll rest

/-- The instructions of a list executed in order, up to the first fault (10_state.md R53, 60_exceptions.md R303). -/
def execAll : List Instr → State → Host.Outcome State Fault Refusal
  | [], s => .next s
  | i :: rest, s =>
    match exec i s with
    | .next t => execAll rest t
    | .fault f => .fault f
    | .refused r => .refused r

end Sys2Proof.Spec

open Sys2Proof Sys2Proof.Machine

/-! ## Encoding -/

/-- Decoding the bytes of a well-formed instruction gives that instruction and leaves the rest of the stream, for every
row of the opcode table and every operand (30_encoding.md R91, R92, R100, R105, R107). That the row `mov_imm_rm` keeps its
unchecked 3-bit field, which is therefore read back too, is the model's choice, log entry 11. -/
def Obligations.DecodeReadsBackEveryEncoding : Prop :=
  ∀ (i : Instr) (rest : List Byte), i.wf = true → decode (encode i ++ rest) = .hit i rest

/-- Whatever the decoder reads is well formed, and encoding it gives back the very bytes that were read: no bit of an
encoding is dropped (30_encoding.md R91, R118). For the first bytes 0xC6 and 0xC7 with a register field other than 000 this
rests on the model's choice to keep the unchecked field in the instruction, log entry 11. -/
def Obligations.EncodeGivesBackTheDecodedBytes : Prop :=
  ∀ (bs rest : List Byte) (i : Instr), decode bs = .hit i rest → i.wf = true ∧ encode i ++ rest = bs

/-- Words written out from the spec's encodings decode to their instructions: 10001001 11 011 001 is `mov cx, bx`,
10110001 is `mov cl`, 1000001 1 11 000 011 is `add bx` with a signed byte, 11100010 is `loop`. -/
def Obligations.WrittenWordsDecode : Prop :=
  decode [0b10001001#8, 0b11011001#8] = .hit (.movRmReg false (.r16 .bx) (.reg (.r16 .cx))) [] ∧
  decode [0b10110001#8, 0x0C#8] = .hit (.movImmReg (.r8 .cl) (.byte 0x0C#8)) [] ∧
  decode [0b10000011#8, 0b11000011#8, 0x80#8] = .hit (.addImmRm (.reg (.r16 .bx)) (.signed .word 0x80#8)) [] ∧
  decode [0b11100010#8, 0xFE#8] = .hit (.loop 0xFE#8) []

/-- The length of an encoding by its format, for every row of each format and every r/m operand: the displacement has 2,
0, 1, 2 and 0 bytes (30_encoding.md R92, R93). -/
def Obligations.EncodingLengthsFollowTheFormats : Prop :=
  (∀ d reg rm, (encode (.movRmReg d reg rm)).length = 2 + Spec.dispLength rm ∧
    (encode (.addRmReg d reg rm)).length = 2 + Spec.dispLength rm ∧
    (encode (.subRmReg d reg rm)).length = 2 + Spec.dispLength rm ∧
    (encode (.cmpRmReg d reg rm)).length = 2 + Spec.dispLength rm) ∧
  (∀ u rm data, (encode (.movImmRm u rm data)).length =
    2 + Spec.dispLength rm + Spec.dataLength data.width false) ∧
  (∀ rm data,
    (encode (.addImmRm rm data)).length = 2 + Spec.dispLength rm + Spec.dataLength data.width data.signBit ∧
    (encode (.subImmRm rm data)).length = 2 + Spec.dispLength rm + Spec.dataLength data.width data.signBit ∧
    (encode (.cmpImmRm rm data)).length = 2 + Spec.dispLength rm + Spec.dataLength data.width data.signBit) ∧
  (∀ reg data, (encode (.movImmReg reg data)).length = 1 + Spec.dataLength data.width false) ∧
  (∀ w a, (encode (.movMemAcc w a)).length = 3 ∧ (encode (.movAccMem w a)).length = 3) ∧
  (∀ data, (encode (.addImmAcc data)).length = 1 + Spec.dataLength data.width false ∧
    (encode (.subImmAcc data)).length = 1 + Spec.dataLength data.width false ∧
    (encode (.cmpImmAcc data)).length = 1 + Spec.dataLength data.width false) ∧
  (∀ b, ∀ i ∈ [Instr.jo b, .jno b, .jb b, .jnb b, .je b, .jne b, .jbe b, .ja b, .js b, .jns b, .jp b, .jnp b, .jl b,
    .jnl b, .jle b, .jg b, .loopnz b, .loopz b, .loop b, .jcxz b], (encode i).length = 2)

/-- A stream that ends inside an instruction: every proper, non-empty beginning of an encoding is `truncated`, and the
walker faults at that instruction's index (30_encoding.md R117, R135, 42_branch.md R283). -/
def Obligations.CutInstructionIsTruncated : Prop :=
  ∀ (i : Instr) (n : Nat) (s : State), i.wf = true → 0 < n → n < (encode i).length →
    s.phase = .decoding → s.schema = romSchema → Memory.bytesFrom s.mem s.idx = (encode i).take n →
    step s = .fault (.truncated s.idx)

/-! ## The Opcode Matcher and the SCHEMA -/

/-- The ROM meets the checks W1 to W7, and no first byte passes two mask tests (30_encoding.md R101, 10_state.md R43). -/
def Obligations.RomIsWellFormed : Prop :=
  schemaWf romSchema = true ∧ ∀ b0 : Byte, (romSchema.filter (maskTest b0)).length ≤ 1

/-- Table order is priority order: the first entry whose mask test passes decides, whatever stands after it. For a
single definition it is a hit whatever `b1` is (R111, R112), and with no passing entry there is no match (R116). -/
def Obligations.FirstPassingEntryDecides : Prop :=
  (∀ (before after : Schema) (e : OpcodeEntry) (d : InstructionDefinition) (b0 : Byte) (b1 : Option Byte),
    (∀ x ∈ before, maskTest b0 x = false) → maskTest b0 e = true → e.lookup = .single d →
    opcodeMatch (before ++ e :: after) b0 b1 = .ok (some d)) ∧
  (∀ (schema : Schema) (b0 : Byte) (b1 : Option Byte), (∀ x ∈ schema, maskTest b0 x = false) →
    opcodeMatch schema b0 b1 = .ok none)

/-- In a multi entry, the first candidate whose 3-bit value agrees is the hit: `b0[2:0]` up to position 6, else
`b1[5:3]` (R113, R114). A missing `b1` is no hindrance where no tested candidate needs it. -/
def Obligations.FirstAgreeingCandidateHits : Prop :=
  ∀ (before after : Schema) (e : OpcodeEntry) (cs ds : List (SecondaryOperand × InstructionDefinition))
    (c : SecondaryOperand × InstructionDefinition) (b0 : Byte) (b1 : Option Byte),
    (∀ x ∈ before, maskTest b0 x = false) → maskTest b0 e = true → e.lookup = .multi (cs ++ c :: ds) →
    (∀ x ∈ cs, Spec.candidateTest b0 b1 x.1 = some false) → Spec.candidateTest b0 b1 c.1 = some true →
    opcodeMatch (before ++ e :: after) b0 b1 = .ok (some c.2)

/-- A multi entry whose mask test passes and none of whose candidates holds is no match for the whole matcher, whatever
entries come after it, with or without `b1` (R115). -/
def Obligations.NoCandidateIsNoMatch : Prop :=
  ∀ (before after : Schema) (e : OpcodeEntry) (cs : List (SecondaryOperand × InstructionDefinition)) (b0 : Byte)
    (b1 : Option Byte),
    (∀ x ∈ before, maskTest b0 x = false) → maskTest b0 e = true → e.lookup = .multi cs →
    (∀ x ∈ cs, Spec.candidateTest b0 b1 x.1 = some false) →
    opcodeMatch (before ++ e :: after) b0 b1 = .ok none

/-- A byte in 0x80 to 0x83 that is the last byte of the stream is `Truncated` at `idx` (R117). -/
def Obligations.GroupByteAtTheEndIsTruncated : Prop :=
  ∀ (s : State) (b0 : Byte), s.phase = .decoding → s.schema = romSchema → Spec.isGroupByte b0.toNat →
    Memory.bytesFrom s.mem s.idx = [b0] → step s = .fault (.truncated s.idx)

/-- The block has no illegal-instruction fault: a byte that hits nothing is skipped, with no output, and the next byte
is tried (R148). The bytes are those outside the map of R102, and a group byte whose `b1[5:3]` is not 000, 101 or
111. -/
def Obligations.UnrecognizedByteIsSkipped : Prop :=
  ∀ (s : State) (b0 : Byte) (rest : List Byte), s.phase = .decoding → s.schema = romSchema →
    Memory.bytesFrom s.mem s.idx = b0 :: rest →
    ((¬ Spec.isRomByte b0.toNat ∧ ¬ Spec.isGroupByte b0.toNat) ∨
      (Spec.isGroupByte b0.toNat ∧ ∃ b1 tail, rest = b1 :: tail ∧
        b1.extractLsb' 3 3 ≠ 0b000#3 ∧ b1.extractLsb' 3 3 ≠ 0b101#3 ∧ b1.extractLsb' 3 3 ≠ 0b111#3)) →
    step s = .next { s with idx := s.idx + 1 }

/-! ## The Flag Extractor and the Field Decoder -/

/-- Flag number `k` of a definition is the bit `b0[7 - p]` with `p = (offset - 1) + k`, and a flag that is not declared
is absent (R119). The flags of a definition are distinct. Past the first byte, where p is above 7, the bit is the model's
choice, log entry 16, and no step uses it: `FlagsOverflow` comes first. So is that the offset 0 counts like the offset 1. -/
def Obligations.FlagsFollowTheFixedBits : Prop :=
  ∀ (d : InstructionDefinition) (b0 : Byte), d.flags.Nodup →
    (∀ k, d.flags[k]? = some .direction → (extractFlags b0 d).d = some (b0.getLsbD (7 - ((d.offset - 1) + k)))) ∧
    (∀ k, d.flags[k]? = some .signExtend → (extractFlags b0 d).s = some (b0.getLsbD (7 - ((d.offset - 1) + k)))) ∧
    (∀ k, d.flags[k]? = some .wordSize → (extractFlags b0 d).w = some (b0.getLsbD (7 - ((d.offset - 1) + k)))) ∧
    (.direction ∉ d.flags → (extractFlags b0 d).d = none) ∧
    (.signExtend ∉ d.flags → (extractFlags b0 d).s = none) ∧
    (.wordSize ∉ d.flags → (extractFlags b0 d).w = none)

/-- The r/m operand by mode, with the bytes at the cursor after the r/m field: direct address, base, base and unsigned
byte, base and little-endian word, register (R125 to R128). Each clause asks for the bytes that its mode reads. -/
def Obligations.RmOperandFollowsTheMode : Prop :=
  ∀ (win : List Byte) (k : Nat) (w : Width) (r : BitVec 3),
    (∀ lo hi, win[k]? = some lo → win[k + 1]? = some hi → rmArgument win (8 * k) w 0b00#2 0b110#3 =
      .ok (.direct (BitVec.ofNat 16 (lo.toNat + 256 * hi.toNat)), true)) ∧
    (r ≠ 0b110#3 → rmArgument win (8 * k) w 0b00#2 r = .ok (.mem (baseOf r) 0#16, false)) ∧
    (∀ lo, win[k]? = some lo →
      rmArgument win (8 * k) w 0b01#2 r = .ok (.mem (baseOf r) (BitVec.ofNat 16 lo.toNat), false)) ∧
    (∀ lo hi, win[k]? = some lo → win[k + 1]? = some hi → rmArgument win (8 * k) w 0b10#2 r =
      .ok (.mem (baseOf r) (BitVec.ofNat 16 (lo.toNat + 256 * hi.toNat)), false)) ∧
    rmArgument win (8 * k) w 0b11#2 r = .ok (.reg (regName w r), false)

/-- The slot rule: the operand of an RM goes to the destination after an explicit register argument, else to the source,
in every mode (R129). -/
def Obligations.ExplicitRegisterClaimsTheDestination : Prop :=
  ∀ (fl : FlagSet) (win : List Byte) (w : Bool) (mode : BitVec 2) (r : BitVec 3) (op : Operand) (q : Bool)
    (sc : Scratch), fl.w = some w → sc.mode = some mode → readField win sc.cursor 3 = .ok r →
    rmArgument win (sc.cursor + 3) (Width.ofBit w) mode r = .ok (op, q) →
    ∃ t, decodeArgument fl win .registerOrMemory sc = .ok t ∧ t.cursor = sc.cursor + 3 ∧ t.mode = sc.mode ∧
      t.regIsDest = sc.regIsDest ∧ t.quirky = (sc.quirky || q) ∧
      t.dst = (if sc.regIsDest then op else sc.dst) ∧ t.src = (if sc.regIsDest then sc.src else op)

/-- `Word(Displacement)` only advances the cursor: 16 bits for the quirky direct address, 0, 8, 16 and 0 bits for the
four modes (R130). -/
def Obligations.DisplacementOnlyAdvances : Prop :=
  ∀ (fl : FlagSet) (win : List Byte) (sc : Scratch),
    (sc.mode = none → decodeArgument fl win .wordDisplacement sc = .error (.schema .noMode)) ∧
    (sc.mode = some 0b00#2 → decodeArgument fl win .wordDisplacement sc =
      .ok { sc with cursor := sc.cursor + (if sc.quirky then 16 else 0) }) ∧
    (sc.mode = some 0b01#2 → decodeArgument fl win .wordDisplacement sc = .ok { sc with cursor := sc.cursor + 8 }) ∧
    (sc.mode = some 0b10#2 → decodeArgument fl win .wordDisplacement sc = .ok { sc with cursor := sc.cursor + 16 }) ∧
    (sc.mode = some 0b11#2 → decodeArgument fl win .wordDisplacement sc = .ok { sc with cursor := sc.cursor + 0 })

/-- The immediate-size policy: two bytes little-endian for `W = 1` without `S = 1`; one byte sign-extended for
`S = 1`, whatever `W` is; else one byte unsigned (R131). Only the first case asks for a second byte. -/
def Obligations.ImmediateSizePolicy : Prop :=
  ∀ (fl : FlagSet) (win : List Byte) (sc : Scratch) (k : Nat) (lo : Byte),
    sc.cursor = 8 * k → win[k]? = some lo →
    (∀ hi, win[k + 1]? = some hi → fl.w = some true → fl.s ≠ some true → decodeArgument fl win .wordData sc =
      .ok { sc with src := .imm (BitVec.ofNat 16 (lo.toNat + 256 * hi.toNat)), cursor := sc.cursor + 16 }) ∧
    (fl.s = some true → decodeArgument fl win .wordData sc =
      .ok { sc with
        src := .imm (BitVec.ofNat 16 (if 0x80 ≤ lo.toNat then 0xFF00 + lo.toNat else lo.toNat))
        cursor := sc.cursor + 8 }) ∧
    (fl.w ≠ some true → fl.s ≠ some true → decodeArgument fl win .wordData sc =
      .ok { sc with src := .imm (BitVec.ofNat 16 lo.toNat), cursor := sc.cursor + 8 })

/-- The accumulator fills an empty destination before the direction swap, and a direction value of 0, from the `D` flag
or else from the definition, swaps source and destination (R137, R143, R144). A destination that is there stays, with or
without a `W` flag; an empty one without a `W` flag is `WordSizeUnknown`. -/
def Obligations.DefaultThenDirectionSwap : Prop :=
  ∀ (d : InstructionDefinition) (fl : FlagSet) (sc : Scratch),
    (fl.w = none → sc.dst = .none → assemble d fl sc = .error (.schema .wordSizeUnknown)) ∧
    ∀ (dst : Operand),
      ((sc.dst ≠ .none ∧ dst = sc.dst) ∨
        (sc.dst = .none ∧ ∃ w, fl.w = some w ∧ dst = .reg (Spec.accumulatorName (if w then .word else .byte)))) →
      (fl.d = some true → assemble d fl sc = .ok ⟨d.mnemonic, sc.src, dst, sc.cursor / 8⟩) ∧
      (fl.d = some false → assemble d fl sc = .ok ⟨d.mnemonic, dst, sc.src, sc.cursor / 8⟩) ∧
      (fl.d = none → d.impliedDirection = some false →
        assemble d fl sc = .ok ⟨d.mnemonic, dst, sc.src, sc.cursor / 8⟩) ∧
      (fl.d = none → d.impliedDirection ≠ some false →
        assemble d fl sc = .ok ⟨d.mnemonic, sc.src, dst, sc.cursor / 8⟩)

/-! ## The Bitstream Walker -/

/-- Two readings of the spec agree: on any bytes, one iteration of the SCHEMA-driven pipeline over the ROM finds exactly
what the decoder of the format tables finds, operand for operand and length for length (R93 and R102 against R140). -/
def Obligations.PipelineAgreesWithDecoder : Prop :=
  ∀ (b0 : Byte) (tail : List Byte),
    match decode (b0 :: tail) with
    | .hit i _ => ∃ sc, iterate romSchema (b0 :: tail) = .ok (.hit (decodedOf i) sc)
    | .unmatched => iterate romSchema (b0 :: tail) = .ok .skip
    | .truncated => iterate romSchema (b0 :: tail) = .error .truncated

/-- A step runs the decoded instruction. Where the bytes at the walker's cursor decode to `i`, the step of the Decode
Unit appends the row `i` to its output list, advances by its length, and changes nothing else but its scratch; where a
row `i` is next in the list, the step of the Execution Unit is `exec i`; where a parsed line is next, it is `execLine` of
that line; where an instruction of a replaced SCHEMA is next, it is the dispatch on its mnemonic with its operands
(40_mov.md R200, R201; log entry 12). -/
def Obligations.StepRunsTheDecodedInstruction : Prop :=
  (∀ (s : State) (i : Instr) (rest : List Byte), s.phase = .decoding → s.schema = romSchema →
    decode (Memory.bytesFrom s.mem s.idx) = .hit i rest →
    ∃ sc, step s = .next { s with
      decoded := s.decoded ++ [.row s.idx i], scratch := sc, idx := s.idx + (encode i).length }) ∧
  (∀ (s : State) (idx : Nat) (i : Instr), s.phase = .executing → s.program[s.pos]? = some (.row idx i) →
    step s = exec i s) ∧
  (∀ (s : State) (l : ParsedLine), s.phase = .executing → s.program[s.pos]? = some (.line l) →
    step s = execLine l s) ∧
  (∀ (s : State) (idx : Nat) (d : DecodedInstruction), s.phase = .executing →
    s.program[s.pos]? = some (.replaced idx d) →
    step s = execDecoded d s ∧
      execDecoded d s = execMnemonic d.mnemonic (.structured d.destination) (.structured d.source) s)

/-- With the ROM, `Truncated` is the only fault of the Decode Unit that an input can cause, and it carries `idx`
(60_exceptions.md R302). -/
def Obligations.RomRaisesOnlyTruncated : Prop :=
  ∀ (s : State) (f : Fault), s.phase = .decoding → s.schema = romSchema → step s = .fault f → f = .truncated s.idx

/-- A well-formed SCHEMA never raises `FlagsOverflow` or `Misaligned`, on any bytes (10_state.md R43 checks W1 and W6).
That W6 asks byte reads to be aligned is the model's reading, log entry 14, and so is that the other two kinds stay
possible under W1 to W7. -/
def Obligations.WellFormedSchemaKeepsItsBytes : Prop :=
  ∀ (s : State) (n : Nat), schemaWf s.schema = true → s.phase = .decoding →
    step s ≠ .fault (.schemaInconsistency .flagsOverflow n) ∧ step s ≠ .fault (.schemaInconsistency .misaligned n)

/-- The cursor never moves backwards: an iteration over the ROM that goes on skips one byte with no output, or outputs
one element and advances by at least 2 bytes (10_state.md R50, 30_encoding.md R145). -/
def Obligations.CursorOnlyAdvances : Prop :=
  ∀ (s t : State), s.phase = .decoding → s.schema = romSchema → step s = .next t → t.phase = .decoding →
    (t.idx = s.idx + 1 ∧ t.decoded = s.decoded) ∨
    (s.idx + 2 ≤ t.idx ∧ ∃ x, t.decoded = s.decoded ++ [x])

/-- The walk ends: over a stream of N bytes, at most N + 1 steps end in a fault or leave the decoding phase. At most N of
them are iterations (30_encoding.md R145); the one more is the end of the walk, which is a step of its own by the model's
choice, log entry 8. -/
def Obligations.WalkEndsWithinTheStream : Prop :=
  ∀ (mode : RunMode) (bs : List Byte), ∃ n, n ≤ bs.length + 1 ∧
    ((∃ f, Host.Core.run Sys2Proof.core n (State.loadStream mode bs) = .fault f) ∨
      (∃ t, Host.Core.run Sys2Proof.core n (State.loadStream mode bs) = .next t ∧ t.phase ≠ .decoding))

/-- A walker iteration changes nothing but the cursor, the scratch and the output list: the registers, the flags, the
stream and the SCHEMA stay (10_state.md R52, R54, 20_memory.md R75). -/
def Obligations.WalkerFrame : Prop :=
  ∀ (s t : State), s.phase = .decoding → step s = .next t → t.phase = .decoding →
    t.regs = s.regs ∧ t.flags = s.flags ∧ t.schema = s.schema ∧ t.text = s.text ∧ t.program = s.program ∧
    t.pos = s.pos ∧ t.trace = s.trace ∧ t.mode = s.mode ∧ (∀ a, Memory.read t.mem a = Memory.read s.mem a)

/-- Instructions that stand one after another decode to their list, in stream order, each at its own index: after one
iteration for each, and one more that meets the end, a `decode` run is finished with exactly that output (R146). That the
end of the walk is a step of its own, which the count includes, is the model's choice, log entry 8. -/
def Obligations.StreamOfInstructionsDecodes : Prop :=
  ∀ (is : List Instr), (∀ i ∈ is, i.wf = true) →
    ∃ t, Host.Core.run Sys2Proof.core (is.length + 1) (State.loadStream .decode (Spec.encodeAll is)) = .next t ∧
      t.phase = .finished ∧ t.decoded = Spec.rowsFrom 0 is

/-- The resync law: an unrecognized byte between two instructions costs neither of them (R148, 95_test_vectors.md L1.7).
The four steps are two instructions, one skip and the end of the walk, which is a step of its own by the model's choice,
log entry 8. -/
def Obligations.ResyncAfterUnrecognizedByte : Prop :=
  ∀ (i j : Instr) (u : Byte), i.wf = true → j.wf = true → ¬ Spec.isRomByte u.toNat → ¬ Spec.isGroupByte u.toNat →
    ∃ t, Host.Core.run Sys2Proof.core 4 (State.loadStream .decode (encode i ++ u :: encode j)) = .next t ∧
      t.phase = .finished ∧ t.decoded = [.row 0 i, .row ((encode i).length + 1) j]

/-! ## The run -/

/-- The state at the start of a run: every register, both flags, the cursor, the ROM, the output list and the trace hold
the values of 10_state.md R56, and every Field Decoder call starts with the scratch of R51. -/
def Obligations.ResetHoldsTheTable : Prop :=
  (∀ r, State.reset.regs.word r = 0#16) ∧ State.reset.flags.zf = false ∧ State.reset.flags.sf = false ∧
  State.reset.idx = 0 ∧ State.reset.schema = romSchema ∧ State.reset.decoded = [] ∧ State.reset.trace = [] ∧
  (∀ d : InstructionDefinition, Scratch.start d = ⟨(d.offset - 1) + d.flags.length, none, false, false, .none, .none⟩)

/-- At the end of the walk the direct path hands the whole output list to the Execution Unit, which starts from the
reset state at the first instruction; `decode` mode ends the run with its output (60_exceptions.md R307,
70_reset_and_hazards.md R340). That the hand-over is a step of its own is the model's choice, log entry 8. -/
def Obligations.EndOfTheWalk : Prop :=
  ∀ (s : State), s.phase = .decoding → Memory.bytesFrom s.mem s.idx = [] →
    (s.mode = .direct → step s = .next { State.reset with
      schema := s.schema, mem := s.mem, text := s.text, program := s.decoded, phase := .executing }) ∧
    (s.mode = .decode → step s = .next { s with phase := .finished })

/-- The Execution Unit has no program counter: after the last instruction the run is finished, with registers, flags
and trace as they are, and a finished run stays as it is. That the end is a step of its own is the model's choice, log entry
17, and so is the second half, log entry 1. -/
def Obligations.RunEndsAfterTheLastInstruction : Prop :=
  ∀ (s : State),
    (s.phase = .executing → s.program.length ≤ s.pos → step s = .next { s with phase := .finished }) ∧
    (s.phase = .finished → step s = .next s)

/-- The direct path: a stream of instructions decodes whole and then runs each of them once, in order, from the reset
state, up to the first fault (10_state.md R53, 60_exceptions.md R303, R307, 70_reset_and_hazards.md R340). That the
hand-over with its reset is a step of its own, which the count includes, is the model's choice, log entry 8. -/
def Obligations.DirectRunExecutesInOrder : Prop :=
  ∀ (is : List Instr), (∀ i ∈ is, i.wf = true) →
    Host.Core.run Sys2Proof.core (is.length + 1 + is.length) (State.loadStream .direct (Spec.encodeAll is)) =
      Spec.execAll is { State.reset with
        mem := Memory.ofBytes (Spec.encodeAll is), program := Spec.rowsFrom 0 is, phase := .executing }

/-- No step writes the stream or the SCHEMA: every read of `S[i]` gives the same byte (20_memory.md R75, R80,
10_state.md R54). -/
def Obligations.StreamAndSchemaAreNeverWritten : Prop :=
  ∀ (s t : State), step s = .next t →
    t.schema = s.schema ∧ t.text = s.text ∧ ∀ a, Memory.read t.mem a = Memory.read s.mem a

/-- Every instruction has its meaning: no step is ever refused. -/
def Obligations.NoStepIsRefused : Prop := ∀ (s : State) (r : Refusal), step s ≠ .refused r

/-- The invariant of the block with the ROM is kept by every step, from every state that meets it: the stream keeps its
form, the cursor stays in it, both lists hold only instructions that the stream holds byte for byte, and there is one
record for each executed instruction. -/
def Obligations.InvariantIsKept : Prop := ∀ (s t : State), Inv s → step s = .next t → Inv t

/-- The invariant holds at reset and after the host's loads of a stream (with the ROM), a text, or a list of parsed lines
(20_memory.md R70, 10_state.md R56). A replaced SCHEMA, and a list of rows with no stream that holds them, are loads of log
entry 2 that the invariant does not describe. -/
def Obligations.InvariantHoldsAtTheStart : Prop :=
  Inv State.reset ∧ (∀ mode bs, Inv (State.loadStream mode bs)) ∧
  (∀ mode bs, Inv (State.loadSchema romSchema mode bs)) ∧ (∀ text, Inv (State.loadText text)) ∧
  (∀ ls : List ParsedLine, Inv (State.loadList (ls.map .line)))

/-! ## Registers and flags -/

/-- An 8-bit name is a view of one half of its parent, and a 16-bit name reads both halves (10_state.md R32, R33). -/
def Obligations.NamesReadTheirHalves : Prop :=
  ∀ (f : RegFile),
    (∀ r, (f.read (.r16 r)).toNat = 256 * (f.get r).hi.toNat + (f.get r).lo.toNat) ∧
    (f.read (.r8 .al)).toNat = f.ax.lo.toNat ∧ (f.read (.r8 .ah)).toNat = f.ax.hi.toNat ∧
    (f.read (.r8 .bl)).toNat = f.bx.lo.toNat ∧ (f.read (.r8 .bh)).toNat = f.bx.hi.toNat ∧
    (f.read (.r8 .cl)).toNat = f.cx.lo.toNat ∧ (f.read (.r8 .ch)).toNat = f.cx.hi.toNat ∧
    (f.read (.r8 .dl)).toNat = f.dx.lo.toNat ∧ (f.read (.r8 .dh)).toNat = f.dx.hi.toNat

/-- `RegWrite` writes the addressed half or both halves, and no write to one register changes another
(10_state.md R34). -/
def Obligations.WritesStayInTheirHalf : Prop :=
  ∀ (f : RegFile) (name : RegName) (v : Word),
    (f.write name v).get (resolve name).1 = Spec.writtenPair (resolve name).2 (f.get (resolve name).1) v.toNat ∧
    ∀ q, q ≠ (resolve name).1 → (f.write name v).get q = f.get q

/-- The flags after an arithmetic step come from the full 16-bit value of the destination's parent register after the
operation, whichever half was written: `ZF` is whether it is 0, `SF` is whether it is at least 0x8000. For `add` and `sub`
it is the register's own value, for `cmp` that of the recorded private copy (10_state.md R39, 41_arith.md R222). -/
def Obligations.FlagsReadTheWholeRegister : Prop :=
  ∀ (i : Instr) (s t : State), instrMnemonic i ∈ [.add, .sub, .cmp] → exec i s = .next t →
    ∃ name r, instrDestination i = .reg name ∧ t.trace = s.trace ++ [some r] ∧ r.reg = (resolve name).1 ∧
      r.before = s.regs.word r.reg ∧ t.flags.zf = decide (r.after.toNat = 0) ∧
      t.flags.sf = decide (0x8000 ≤ r.after.toNat) ∧
      (instrMnemonic i ≠ .cmp → t.regs.word r.reg = r.after) ∧ (instrMnemonic i = .cmp → t.regs = s.regs)

/-! ## Results and completion -/

/-- `mov` with a register destination completes: the addressed half or the whole register takes the source value, the
flags stay, and the record holds the parent's value before and after (40_mov.md R205 to R208). -/
def Obligations.MovWritesTheSource : Prop :=
  (∀ (d : Bool) (reg r : RegName) (s : State), reg.width = r.width →
    exec (.movRmReg d reg (.reg r)) s =
      .next (Spec.movState (if d then reg else r) (Spec.registerValue s.regs (if d then r else reg)) s)) ∧
  (∀ (u : BitVec 3) (r : RegName) (data : Imm) (s : State), data.width = r.width →
    exec (.movImmRm u (.reg r) data) s = .next (Spec.movState r (Spec.immValue data) s)) ∧
  (∀ (r : RegName) (data : Imm) (s : State), data.width = r.width →
    exec (.movImmReg r data) s = .next (Spec.movState r (Spec.immValue data) s)) ∧
  (∀ (dst : Operand) (src : EuOperand) (k : LookupKind) (s : State), destCheck dst = .error k →
    movOp (.structured dst) src s = .fault (.execLookup k s.pos)) ∧
  (∀ (dst src : Operand) (name : RegName) (k : LookupKind) (s : State), destCheck dst = .ok name →
    srcValue s.regs name.width src = .error k →
    movOp (.structured dst) (.structured src) s = .fault (.execLookup k s.pos))

/-- `add` with a register destination completes: modulo 65536 in the whole register or modulo 256 in the addressed half
alone; the checks that fail stop it as they stop `mov` (41_arith.md R220, R221, R230 to R232). -/
def Obligations.AddWritesTheSum : Prop :=
  (∀ (d : Bool) (reg r : RegName) (s : State), reg.width = r.width →
    exec (.addRmReg d reg (.reg r)) s =
      .next (Spec.arithState .add (if d then reg else r) (Spec.registerValue s.regs (if d then r else reg)) s)) ∧
  (∀ (r : RegName) (data : GrpImm) (s : State), data.width = r.width →
    exec (.addImmRm (.reg r) data) s = .next (Spec.arithState .add r (Spec.groupValue data) s)) ∧
  (∀ (data : Imm) (s : State),
    exec (.addImmAcc data) s = .next (Spec.arithState .add (Spec.accumulatorName data.width) (Spec.immValue data) s)) ∧
  (∀ (dst : Operand) (src : EuOperand) (k : LookupKind) (s : State), destCheck dst = .error k →
    addSubOp .add (.structured dst) src s = .fault (.execLookup k s.pos)) ∧
  (∀ (dst src : Operand) (name : RegName) (k : LookupKind) (s : State), destCheck dst = .ok name →
    srcValue s.regs name.width src = .error k →
    addSubOp .add (.structured dst) (.structured src) s = .fault (.execLookup k s.pos))

/-- `sub` with a register destination completes: the difference modulo 65536 or modulo 256, with the same
checks (41_arith.md R220, R221, R235 to R237). -/
def Obligations.SubWritesTheDifference : Prop :=
  (∀ (d : Bool) (reg r : RegName) (s : State), reg.width = r.width →
    exec (.subRmReg d reg (.reg r)) s =
      .next (Spec.arithState .sub (if d then reg else r) (Spec.registerValue s.regs (if d then r else reg)) s)) ∧
  (∀ (r : RegName) (data : GrpImm) (s : State), data.width = r.width →
    exec (.subImmRm (.reg r) data) s = .next (Spec.arithState .sub r (Spec.groupValue data) s)) ∧
  (∀ (data : Imm) (s : State),
    exec (.subImmAcc data) s = .next (Spec.arithState .sub (Spec.accumulatorName data.width) (Spec.immValue data) s)) ∧
  (∀ (dst : Operand) (src : EuOperand) (k : LookupKind) (s : State), destCheck dst = .error k →
    addSubOp .sub (.structured dst) src s = .fault (.execLookup k s.pos)) ∧
  (∀ (dst src : Operand) (name : RegName) (k : LookupKind) (s : State), destCheck dst = .ok name →
    srcValue s.regs name.width src = .error k →
    addSubOp .sub (.structured dst) (.structured src) s = .fault (.execLookup k s.pos))

/-- `cmp` with a register destination completes: the flags and the record of the same difference, on a private copy, so
no register is written, with the same checks (41_arith.md R223, R240 to R242). -/
def Obligations.CmpWritesOnlyTheFlags : Prop :=
  (∀ (d : Bool) (reg r : RegName) (s : State), reg.width = r.width →
    exec (.cmpRmReg d reg (.reg r)) s =
      .next (Spec.cmpState (if d then reg else r) (Spec.registerValue s.regs (if d then r else reg)) s)) ∧
  (∀ (r : RegName) (data : GrpImm) (s : State), data.width = r.width →
    exec (.cmpImmRm (.reg r) data) s = .next (Spec.cmpState r (Spec.groupValue data) s)) ∧
  (∀ (data : Imm) (s : State),
    exec (.cmpImmAcc data) s = .next (Spec.cmpState (Spec.accumulatorName data.width) (Spec.immValue data) s)) ∧
  (∀ (dst : Operand) (src : EuOperand) (k : LookupKind) (s : State), destCheck dst = .error k →
    cmpOp (.structured dst) src s = .fault (.execLookup k s.pos)) ∧
  (∀ (dst src : Operand) (name : RegName) (k : LookupKind) (s : State), destCheck dst = .ok name →
    srcValue s.regs name.width src = .error k →
    cmpOp (.structured dst) (.structured src) s = .fault (.execLookup k s.pos))

/-- All 20 branch and loop instructions are no-ops: no register, no flag, record `None`, and the next instruction of the
list is next (42_branch.md R260 to R282). `loop` does not decrement `cx`. -/
def Obligations.BranchesDoNothing : Prop :=
  ∀ (b : Byte) (s : State),
    exec (.jo b) s = .next (Spec.branchState s) ∧ exec (.jno b) s = .next (Spec.branchState s) ∧
    exec (.jb b) s = .next (Spec.branchState s) ∧ exec (.jnb b) s = .next (Spec.branchState s) ∧
    exec (.je b) s = .next (Spec.branchState s) ∧ exec (.jne b) s = .next (Spec.branchState s) ∧
    exec (.jbe b) s = .next (Spec.branchState s) ∧ exec (.ja b) s = .next (Spec.branchState s) ∧
    exec (.js b) s = .next (Spec.branchState s) ∧ exec (.jns b) s = .next (Spec.branchState s) ∧
    exec (.jp b) s = .next (Spec.branchState s) ∧ exec (.jnp b) s = .next (Spec.branchState s) ∧
    exec (.jl b) s = .next (Spec.branchState s) ∧ exec (.jnl b) s = .next (Spec.branchState s) ∧
    exec (.jle b) s = .next (Spec.branchState s) ∧ exec (.jg b) s = .next (Spec.branchState s) ∧
    exec (.loopnz b) s = .next (Spec.branchState s) ∧ exec (.loopz b) s = .next (Spec.branchState s) ∧
    exec (.loop b) s = .next (Spec.branchState s) ∧ exec (.jcxz b) s = .next (Spec.branchState s)

/-! ## Stops -/

/-- A memory operand, as destination or as source after a register destination, raises `ExecLookup(MemoryOperand)`, for
each of the four mnemonics, and no next state arises, so no register or flag changes (40_mov.md R203). -/
def Obligations.MemoryOperandsFault : Prop :=
  (∀ (m : Mnemonic) (dst : Operand) (src : EuOperand) (s : State), m ∈ Spec.executed → Spec.isMemory dst = true →
    execMnemonic m (.structured dst) src s = .fault (.execLookup .memoryOperand s.pos)) ∧
  (∀ (m : Mnemonic) (name : RegName) (src : Operand) (s : State), m ∈ Spec.executed → Spec.isMemory src = true →
    execMnemonic m (.structured (.reg name)) (.structured src) s = .fault (.execLookup .memoryOperand s.pos))

/-- The memory forms of the rows stop: every row of the formats RM, IMM_RM and GRP with a mode other than 11
(40_mov.md R206, R207, 41_arith.md R230, R231, R235, R236, R240, R241). -/
def Obligations.MemoryFormsFault : Prop :=
  ∀ (d : Bool) (u : BitVec 3) (reg : RegName) (rm : RmOperand) (imm : Imm) (g : GrpImm) (s : State),
    rm.mode ≠ 0b11#2 →
    exec (.movRmReg d reg rm) s = .fault (.execLookup .memoryOperand s.pos) ∧
    exec (.addRmReg d reg rm) s = .fault (.execLookup .memoryOperand s.pos) ∧
    exec (.subRmReg d reg rm) s = .fault (.execLookup .memoryOperand s.pos) ∧
    exec (.cmpRmReg d reg rm) s = .fault (.execLookup .memoryOperand s.pos) ∧
    exec (.movImmRm u rm imm) s = .fault (.execLookup .memoryOperand s.pos) ∧
    exec (.addImmRm rm g) s = .fault (.execLookup .memoryOperand s.pos) ∧
    exec (.subImmRm rm g) s = .fault (.execLookup .memoryOperand s.pos) ∧
    exec (.cmpImmRm rm g) s = .fault (.execLookup .memoryOperand s.pos)

/-- The two accumulator forms with a direct address always stop with `ExecLookup(MemoryOperand)` (40_mov.md R209,
R210). -/
def Obligations.AccumulatorMemoryMovesAlwaysFault : Prop :=
  ∀ (w : Width) (a : Word) (s : State),
    exec (.movMemAcc w a) s = .fault (.execLookup .memoryOperand s.pos) ∧
    exec (.movAccMem w a) s = .fault (.execLookup .memoryOperand s.pos)

/-- The destination check and the source value, case by case, with the fault each raises; an immediate keeps its low
bits and a register of another width is refused (40_mov.md R202, R204). -/
def Obligations.OperandChecks : Prop :=
  ∀ (f : RegFile) (w : Width) (name : RegName) (b : Base) (v : Word) (r : Byte),
    destCheck (.reg name) = .ok name ∧ destCheck (.mem b v) = .error .memoryOperand ∧
    destCheck (.direct v) = .error .memoryOperand ∧ destCheck (.imm v) = .error .nonRegisterDestination ∧
    destCheck (.rel r) = .error .nonRegisterDestination ∧ destCheck .none = .error .nonRegisterDestination ∧
    srcValue f w .none = .error .missingOperand ∧ srcValue f w (.mem b v) = .error .memoryOperand ∧
    srcValue f w (.direct v) = .error .memoryOperand ∧ srcValue f w (.rel r) = .error .unparsableOperand ∧
    srcValue f .byte (.imm v) = .ok (BitVec.ofNat 16 (v.toNat % 256)) ∧ srcValue f .word (.imm v) = .ok v ∧
    (name.width ≠ w → srcValue f w (.reg name) = .error .widthMismatch) ∧
    (name.width = w → srcValue f w (.reg name) = .ok (BitVec.ofNat 16 (Spec.registerValue f name)))

/-- A fault of the Execution Unit is precise: it is an `ExecLookup` with the list position of the instruction that
raised it (60_exceptions.md R301, R305). -/
def Obligations.ExecutionFaultsCarryThePosition : Prop :=
  ∀ (s : State) (f : Fault), s.phase = .executing → step s = .fault f → ∃ k, f = .execLookup k s.pos

/-! ## Frames -/

/-- The frame of `mov`: with destination `name`, a next state keeps every other register, the other half of the parent
for an 8-bit name, both flags, every byte of the stream, the SCHEMA, the Decode Unit's state and the list. -/
def Obligations.MovFrame : Prop :=
  ∀ (i : Instr) (name : RegName) (s t : State), instrMnemonic i = .mov → instrDestination i = .reg name →
    exec i s = .next t →
    (∀ q, q ≠ (resolve name).1 → t.regs.get q = s.regs.get q) ∧
    ((resolve name).2 = .low → (t.regs.get (resolve name).1).hi = (s.regs.get (resolve name).1).hi) ∧
    ((resolve name).2 = .high → (t.regs.get (resolve name).1).lo = (s.regs.get (resolve name).1).lo) ∧
    t.flags = s.flags ∧ t.schema = s.schema ∧ t.idx = s.idx ∧ t.scratch = s.scratch ∧ t.decoded = s.decoded ∧
    t.text = s.text ∧ t.program = s.program ∧ t.mode = s.mode ∧ t.phase = s.phase ∧
    ∀ a, Memory.read t.mem a = Memory.read s.mem a

/-- The frame of `add` and `sub`: as that of `mov`, but that `ZF` and `SF` are written. -/
def Obligations.AddSubFrame : Prop :=
  ∀ (i : Instr) (name : RegName) (s t : State), instrMnemonic i ∈ [.add, .sub] → instrDestination i = .reg name →
    exec i s = .next t →
    (∀ q, q ≠ (resolve name).1 → t.regs.get q = s.regs.get q) ∧
    ((resolve name).2 = .low → (t.regs.get (resolve name).1).hi = (s.regs.get (resolve name).1).hi) ∧
    ((resolve name).2 = .high → (t.regs.get (resolve name).1).lo = (s.regs.get (resolve name).1).lo) ∧
    t.schema = s.schema ∧ t.idx = s.idx ∧ t.scratch = s.scratch ∧ t.decoded = s.decoded ∧
    t.text = s.text ∧ t.program = s.program ∧ t.mode = s.mode ∧ t.phase = s.phase ∧
    ∀ a, Memory.read t.mem a = Memory.read s.mem a

/-- The frame of `cmp` and of the branches: no register is written at all, and by a branch no flag (10_state.md R35,
R38). -/
def Obligations.CmpAndBranchFrame : Prop :=
  ∀ (i : Instr) (s t : State), instrMnemonic i ∉ [.mov, .add, .sub] → exec i s = .next t →
    t.regs = s.regs ∧ (instrMnemonic i ≠ .cmp → t.flags = s.flags) ∧
    t.schema = s.schema ∧ t.idx = s.idx ∧ t.scratch = s.scratch ∧ t.decoded = s.decoded ∧
    t.text = s.text ∧ t.program = s.program ∧ t.mode = s.mode ∧ t.phase = s.phase ∧
    ∀ a, Memory.read t.mem a = Memory.read s.mem a

/-- Control never transfers: a completed instruction makes the next one of the list next and adds one record, which is
`None` exactly for the branches (10_state.md R53, 40_mov.md R200). -/
def Obligations.ControlNeverTransfers : Prop :=
  ∀ (i : Instr) (s t : State), exec i s = .next t →
    t.pos = s.pos + 1 ∧ ∃ r, t.trace = s.trace ++ [r] ∧ (r = none ↔ instrMnemonic i ∉ Spec.executed)

/-! ## Text -/

/-- The round trip: the rendered line of a row parses to its mnemonic and its operand texts, with the length 0, and every operand's text is
interpreted as that operand, a branch's byte as the number it spells (30_encoding.md R158). -/
def Obligations.RenderedTextReadsBack : Prop :=
  (∀ (i : Instr), parseLine (renderInstruction (decodedOf i)) =
    some ⟨mnemonicText (instrMnemonic i), renderOperand (instrDestination i),
      if instrSource i = .none then none else some (renderOperand (instrSource i)), 0⟩) ∧
  (∀ (op : Operand), op ≠ .none → interpret (renderOperand op) = .ok (Spec.reread op))

/-- The text path and the direct path agree: executing the parsed line of a row's rendering is executing the row
(00_scope.md R11, 30_encoding.md R158). -/
def Obligations.TextPathAgreesWithDirectPath : Prop :=
  ∀ (i : Instr) (s : State), ∃ l, parseLine (renderInstruction (decodedOf i)) = some l ∧ execLine l s = exec i s

/-- Every line is parsed before the first is executed: the first line that fails is the fault, with its number from 1,
and with none failing the run starts from the reset state with one list element for each line, of length 0
(30_encoding.md R156, 60_exceptions.md R304). That the parse of the whole text is one step, and what trimming removes in
`nonEmptyLines`, is the model's choice, log entry 9. -/
def Obligations.ParsingComesFirst : Prop :=
  ∀ (s : State), s.phase = .parsing →
    (∀ n l, (nonEmptyLines s.text)[n]? = some l → parseLine l = none →
      (∀ k m, k < n → (nonEmptyLines s.text)[k]? = some m → parseLine m ≠ none) →
      step s = .fault (.textParse (n + 1))) ∧
    ((∀ l ∈ nonEmptyLines s.text, parseLine l ≠ none) →
      ∃ ls : List ParsedLine, (nonEmptyLines s.text).map parseLine = ls.map some ∧ (∀ l ∈ ls, l.length = 0) ∧
        step s = .next { State.reset with
          schema := s.schema, mem := s.mem, text := s.text, mode := s.mode, program := ls.map .line,
          phase := .executing })

/-- A mnemonic that is not one of the 24 spellings, a synonym too, is `UnknownMnemonic`, whatever the operands
(40_mov.md R200, 42_branch.md R261). -/
def Obligations.UnknownMnemonicFaults : Prop :=
  ∀ (l : ParsedLine) (s : State), (∀ m, mnemonicText m ≠ l.mnemonic) →
    execLine l s = .fault (.execLookup .unknownMnemonic s.pos)

/-- The operands of a branch line are not interpreted: any texts at all, and the step is the no-op
(42_branch.md R260). -/
def Obligations.BranchTextIsNotInterpreted : Prop :=
  ∀ (m : Mnemonic) (d : Text) (src : Option Text) (n : Nat) (s : State), m ∉ Spec.executed →
    execLine ⟨mnemonicText m, d, src, n⟩ s = .next (Spec.branchState s)

/-- The destination is interpreted and checked before the source: a destination that fails gives its own fault, whatever
the source is; after a register destination a source text that fails gives its own (60_exceptions.md R307). -/
def Obligations.DestinationChecksComeFirst : Prop :=
  (∀ (m : Mnemonic) (d : Text) (src : Option Text) (n : Nat) (k : LookupKind) (s : State), m ∈ Spec.executed →
    interpret d = .error k → execLine ⟨mnemonicText m, d, src, n⟩ s = .fault (.execLookup k s.pos)) ∧
  (∀ (m : Mnemonic) (d : Text) (op : Operand) (src : Option Text) (n : Nat) (k : LookupKind) (s : State),
    m ∈ Spec.executed → interpret d = .ok op → destCheck op = .error k →
    execLine ⟨mnemonicText m, d, src, n⟩ s = .fault (.execLookup k s.pos)) ∧
  (∀ (m : Mnemonic) (name : RegName) (src : Text) (n : Nat) (k : LookupKind) (s : State), m ∈ Spec.executed →
    interpret src = .error k →
    execLine ⟨mnemonicText m, regText name, some src, n⟩ s = .fault (.execLookup k s.pos))

/-- The segment registers are registers like the others where text names them: `mov` of any number to `cs`, `ss`, `ds`
or `es`, or to any 16-bit register, writes it (10_state.md R37). -/
def Obligations.SegmentRegistersTakeText : Prop :=
  ∀ (r : Reg16) (v : Word) (n : Nat) (s : State),
    execLine ⟨['m', 'o', 'v'], reg16Text r, some (decText v.toNat), n⟩ s =
      .next (Spec.movState (.r16 r) v.toNat s)

/-- The dump is twelve lines in canonical order, a name and `0x` with four upper-case hexadecimal digits each
(60_exceptions.md R320, R321), and it is printed in a finished `execute` run only: before the first step nothing is printed,
while steps run only their trace lines, by `decode` mode only the instructions of a finished walk (00_scope.md R12), and by
the direct path nothing (R322). That what is printed is a function of the state is the model's choice, log entry 15, and so
is that the run is finished by a step after the last instruction, log entry 17. -/
def Obligations.DumpIsTwelveLines : Prop :=
  ∀ (s : State),
    dumpLines s = [Reg16.ax, .bx, .cx, .dx, .sp, .bp, .si, .di, .cs, .ss, .ds, .es].map
      (fun r => reg16Text r ++ [':', ' '] ++ Spec.hexForm (Spec.pairValue (s.regs.get r))) ∧
    (s.mode = .execute → s.phase = .finished → printed s = traceLines s ++ dumpLines s) ∧
    (s.mode = .execute → s.phase = .executing → printed s = traceLines s) ∧
    (s.mode = .execute → s.phase = .parsing → printed s = []) ∧
    (s.mode = .execute → s.phase = .decoding → printed s = []) ∧
    (s.mode = .decode → printed s = if s.phase = .finished then decodeLines s else []) ∧
    (s.mode = .direct → printed s = [])

/-- What the printed lines are. The trace lines of a run over parsed lines are one for each record, in order: the texts as
they were written, the parent register and two hexadecimal values, or for a branch the instruction alone
(60_exceptions.md R320). The lines of `decode` mode are one for each element of the output list, in order: the mnemonic, the
destination and, if there is one, the source (00_scope.md R12, 30_encoding.md R155). -/
def Obligations.PrintedLinesFollowTheirForms : Prop :=
  (∀ (s : State) (ls : List ParsedLine), s.program = ls.map .line →
    traceLines s = (ls.zip s.trace).map (fun p => Spec.stepLine p.1 p.2)) ∧
  (∀ (s : State) (xs : List (Listed × DecodedInstruction)),
    (∀ x ∈ xs, (∃ idx i, x.1 = .row idx i ∧ x.2 = decodedOf i) ∨ ∃ idx, x.1 = .replaced idx x.2) →
    s.decoded = xs.map (fun x => x.1) → decodeLines s = xs.map (fun x => Spec.instructionLine x.2))
end

