-- ==== Sys2Proof/Laws/Memory.lean ====
section
/-! SUPPORT. The canonical form of the stream and the reads of it. The block writes no memory (00_scope.md R17), so the only
operation that makes a memory is the host's load. -/

namespace Sys2Proof.Machine

theorem Memory.layout_wfFrom (start : Nat) (bs : List Byte) : Memory.wfFrom start (Memory.layout start bs) = true := by
  induction bs generalizing start with
  | nil => rfl
  | cons b rest ih => simp [Memory.layout, Memory.wfFrom, ih]

/-- Loading keeps the canonical form. -/
theorem Memory.ofBytes_wf (bs : List Byte) : Memory.wf (Memory.ofBytes bs) = true := Memory.layout_wfFrom 0 bs

/-- So does the reset state. -/
theorem State.reset_mem_wf : Memory.wf State.reset.mem = true := rfl

theorem Memory.layout_size (start : Nat) (bs : List Byte) : Memory.size (Memory.layout start bs) = bs.length := by
  induction bs generalizing start with
  | nil => rfl
  | cons b rest ih => simpa [Memory.size, Memory.layout] using ih (start + 1)

@[simp] theorem Memory.ofBytes_size (bs : List Byte) : Memory.size (Memory.ofBytes bs) = bs.length :=
  Memory.layout_size 0 bs

/-- In the canonical form, the bytes from an index on are the stream without its first bytes. -/
theorem Memory.bytesFrom_of_wfFrom (m : Memory) (start i : Nat) (h : Memory.wfFrom start m = true) (hi : start ≤ i) :
    Memory.bytesFrom m i = (m.drop (i - start)).map (·.2) := by
  induction m generalizing start with
  | nil => simp [Memory.bytesFrom]
  | cons c rest ih =>
    simp only [Memory.wfFrom, Bool.and_eq_true, beq_iff_eq] at h
    obtain ⟨hc, hrest⟩ := h
    by_cases hlt : start < i
    · have hd : i - start = (i - (start + 1)) + 1 := by omega
      have hnot : ¬ i ≤ c.1 := by omega
      have := ih (start + 1) hrest (by omega)
      rw [hd, List.drop_succ_cons]
      simpa [Memory.bytesFrom, hnot] using this
    · have he : i = start := by omega
      subst he
      have hle : i ≤ c.1 := by omega
      have hall : ∀ (k : Nat) (m : Memory), Memory.wfFrom k m = true → i ≤ k → Memory.bytesFrom m i = m.map (·.2) := by
        intro k m
        induction m generalizing k with
        | nil => intros; rfl
        | cons d ds ihd =>
          intro hk hik
          simp only [Memory.wfFrom, Bool.and_eq_true, beq_iff_eq] at hk
          have hd : i ≤ d.1 := by omega
          simpa [Memory.bytesFrom, hd] using ihd (k + 1) hk.2 (by omega)
      have := hall (i + 1) rest hrest (by omega)
      simp only [Nat.sub_self, List.drop_zero, List.map_cons]
      simpa [Memory.bytesFrom, hle] using this

theorem Memory.bytesFrom_of_wf (m : Memory) (i : Nat) (h : Memory.wf m = true) :
    Memory.bytesFrom m i = (m.drop i).map (·.2) := by
  simpa using Memory.bytesFrom_of_wfFrom m 0 i h (Nat.zero_le i)

theorem Memory.bytesFrom_length (m : Memory) (i : Nat) (h : Memory.wf m = true) :
    (Memory.bytesFrom m i).length = Memory.size m - i := by
  simp [Memory.bytesFrom_of_wf m i h, Memory.size]

/-- What is left after `k` more bytes. -/
theorem Memory.bytesFrom_add (m : Memory) (i k : Nat) (h : Memory.wf m = true) :
    Memory.bytesFrom m (i + k) = (Memory.bytesFrom m i).drop k := by
  rw [Memory.bytesFrom_of_wf m _ h, Memory.bytesFrom_of_wf m i h, ← List.map_drop, List.drop_drop]

theorem Memory.layout_map (start : Nat) (bs : List Byte) : (Memory.layout start bs).map (·.2) = bs := by
  induction bs generalizing start with
  | nil => rfl
  | cons b rest ih => simp [Memory.layout, ih]

/-- The bytes that were loaded. -/
@[simp] theorem Memory.bytesFrom_ofBytes (bs : List Byte) (i : Nat) :
    Memory.bytesFrom (Memory.ofBytes bs) i = bs.drop i := by
  rw [Memory.bytesFrom_of_wf _ i (Memory.ofBytes_wf bs), List.map_drop, Memory.ofBytes, Memory.layout_map]

theorem Memory.layout_read (start : Nat) (bs : List Byte) (i : Nat) :
    Memory.read (Memory.layout start bs) (start + i) = bs[i]? := by
  induction bs generalizing start i with
  | nil => rfl
  | cons b rest ih =>
    cases i with
    | zero => simp [Memory.layout, Memory.read]
    | succ i =>
      have h : start + (i + 1) = start + 1 + i := by omega
      have hne : ¬ start = start + 1 + i := by omega
      simp only [Memory.layout, Memory.read, h, if_neg hne, ih, List.getElem?_cons_succ]

/-- Reading the stream gives the byte that was loaded, and none outside it (20_memory.md R78, R82). -/
theorem Memory.read_ofBytes (bs : List Byte) (i : Nat) : Memory.read (Memory.ofBytes bs) i = bs[i]? := by
  have := Memory.layout_read 0 bs i
  rwa [Nat.zero_add] at this

end Sys2Proof.Machine
end

