-- ==== Sys2Proof/Laws/PerInstr.lean ====
section
/-! SUPPORT. Families of lemmas with one lemma for each constructor of `Instr`. `Length`: an instruction of the ROM has
2 to 6 bytes (30_encoding.md R90). -/

namespace Sys2Proof.Laws

/-! ## Lengths of the parts -/

theorem rm_bytes_length (rm : RmOperand) : rm.bytes.length ≤ 2 := by
  cases rm <;> simp [RmOperand.bytes, leBytes]

theorem imm_bytes_length (data : Imm) : 1 ≤ data.bytes.length ∧ data.bytes.length ≤ 2 := by
  cases data <;> simp [Imm.bytes, leBytes]

theorem grpImm_bytes_length (data : GrpImm) : 1 ≤ data.bytes.length ∧ data.bytes.length ≤ 2 := by
  cases data <;> simp [GrpImm.bytes, leBytes]

theorem encodeRmReg_length (op : BitVec 6) (d : Bool) (reg : RegName) (rm : RmOperand) :
    2 ≤ (encodeRmReg op d reg rm).length ∧ (encodeRmReg op d reg rm).length ≤ 4 := by
  have := rm_bytes_length rm
  simp [encodeRmReg]; omega

theorem encodeGroup_length (eee : BitVec 3) (rm : RmOperand) (data : GrpImm) :
    3 ≤ (encodeGroup eee rm data).length ∧ (encodeGroup eee rm data).length ≤ 6 := by
  have := rm_bytes_length rm
  have := grpImm_bytes_length data
  simp [encodeGroup]; omega

theorem encodeImmAcc_length (op : BitVec 7) (data : Imm) :
    2 ≤ (encodeImmAcc op data).length ∧ (encodeImmAcc op data).length ≤ 3 := by
  have := imm_bytes_length data
  simp [encodeImmAcc]; omega

/-! ## The family -/

/-- Two to six bytes (R90). -/
def Length.Statement (i : Instr) : Prop :=
  2 ≤ (encode i).length ∧ (encode i).length ≤ Config.longestInstruction

theorem Length.movRmReg (d : Bool) (reg : RegName) (rm : RmOperand) :
    Length.Statement (.movRmReg d reg rm) := by
  have := encodeRmReg_length 0b100010#6 d reg rm
  exact ⟨this.1, le_trans this.2 (by decide)⟩

theorem Length.movImmRm (unchecked : BitVec 3) (rm : RmOperand) (data : Imm) :
    Length.Statement (.movImmRm unchecked rm data) := by
  have := rm_bytes_length rm
  have := imm_bytes_length data
  simp [Length.Statement, encode, Config.longestInstruction]; omega

theorem Length.movImmReg (reg : RegName) (data : Imm) :
    Length.Statement (.movImmReg reg data) := by
  have := imm_bytes_length data
  simp [Length.Statement, encode, Config.longestInstruction]; omega

theorem Length.movMemAcc (w : Width) (a : Word) :
    Length.Statement (.movMemAcc w a) := by
  simp [Length.Statement, encode, leBytes, Config.longestInstruction]

theorem Length.movAccMem (w : Width) (a : Word) :
    Length.Statement (.movAccMem w a) := by
  simp [Length.Statement, encode, leBytes, Config.longestInstruction]

theorem Length.addRmReg (d : Bool) (reg : RegName) (rm : RmOperand) :
    Length.Statement (.addRmReg d reg rm) := by
  have := encodeRmReg_length 0b000000#6 d reg rm
  exact ⟨this.1, le_trans this.2 (by decide)⟩

theorem Length.addImmRm (rm : RmOperand) (data : GrpImm) :
    Length.Statement (.addImmRm rm data) := by
  have := encodeGroup_length 0b000#3 rm data
  exact ⟨le_trans (by decide) this.1, this.2⟩

theorem Length.addImmAcc (data : Imm) :
    Length.Statement (.addImmAcc data) := by
  have := encodeImmAcc_length 0b0000010#7 data
  exact ⟨this.1, le_trans this.2 (by decide)⟩

theorem Length.subRmReg (d : Bool) (reg : RegName) (rm : RmOperand) :
    Length.Statement (.subRmReg d reg rm) := by
  have := encodeRmReg_length 0b001010#6 d reg rm
  exact ⟨this.1, le_trans this.2 (by decide)⟩

theorem Length.subImmRm (rm : RmOperand) (data : GrpImm) :
    Length.Statement (.subImmRm rm data) := by
  have := encodeGroup_length 0b101#3 rm data
  exact ⟨le_trans (by decide) this.1, this.2⟩

theorem Length.subImmAcc (data : Imm) :
    Length.Statement (.subImmAcc data) := by
  have := encodeImmAcc_length 0b0010110#7 data
  exact ⟨this.1, le_trans this.2 (by decide)⟩

theorem Length.cmpRmReg (d : Bool) (reg : RegName) (rm : RmOperand) :
    Length.Statement (.cmpRmReg d reg rm) := by
  have := encodeRmReg_length 0b001110#6 d reg rm
  exact ⟨this.1, le_trans this.2 (by decide)⟩

theorem Length.cmpImmRm (rm : RmOperand) (data : GrpImm) :
    Length.Statement (.cmpImmRm rm data) := by
  have := encodeGroup_length 0b111#3 rm data
  exact ⟨le_trans (by decide) this.1, this.2⟩

theorem Length.cmpImmAcc (data : Imm) :
    Length.Statement (.cmpImmAcc data) := by
  have := encodeImmAcc_length 0b0011110#7 data
  exact ⟨this.1, le_trans this.2 (by decide)⟩

theorem Length.jo (b : Byte) :
    Length.Statement (.jo b) := by
  simp [Length.Statement, encode, Config.longestInstruction]

theorem Length.jno (b : Byte) :
    Length.Statement (.jno b) := by
  simp [Length.Statement, encode, Config.longestInstruction]

theorem Length.jb (b : Byte) :
    Length.Statement (.jb b) := by
  simp [Length.Statement, encode, Config.longestInstruction]

theorem Length.jnb (b : Byte) :
    Length.Statement (.jnb b) := by
  simp [Length.Statement, encode, Config.longestInstruction]

theorem Length.je (b : Byte) :
    Length.Statement (.je b) := by
  simp [Length.Statement, encode, Config.longestInstruction]

theorem Length.jne (b : Byte) :
    Length.Statement (.jne b) := by
  simp [Length.Statement, encode, Config.longestInstruction]

theorem Length.jbe (b : Byte) :
    Length.Statement (.jbe b) := by
  simp [Length.Statement, encode, Config.longestInstruction]

theorem Length.ja (b : Byte) :
    Length.Statement (.ja b) := by
  simp [Length.Statement, encode, Config.longestInstruction]

theorem Length.js (b : Byte) :
    Length.Statement (.js b) := by
  simp [Length.Statement, encode, Config.longestInstruction]

theorem Length.jns (b : Byte) :
    Length.Statement (.jns b) := by
  simp [Length.Statement, encode, Config.longestInstruction]

theorem Length.jp (b : Byte) :
    Length.Statement (.jp b) := by
  simp [Length.Statement, encode, Config.longestInstruction]

theorem Length.jnp (b : Byte) :
    Length.Statement (.jnp b) := by
  simp [Length.Statement, encode, Config.longestInstruction]

theorem Length.jl (b : Byte) :
    Length.Statement (.jl b) := by
  simp [Length.Statement, encode, Config.longestInstruction]

theorem Length.jnl (b : Byte) :
    Length.Statement (.jnl b) := by
  simp [Length.Statement, encode, Config.longestInstruction]

theorem Length.jle (b : Byte) :
    Length.Statement (.jle b) := by
  simp [Length.Statement, encode, Config.longestInstruction]

theorem Length.jg (b : Byte) :
    Length.Statement (.jg b) := by
  simp [Length.Statement, encode, Config.longestInstruction]

theorem Length.loopnz (b : Byte) :
    Length.Statement (.loopnz b) := by
  simp [Length.Statement, encode, Config.longestInstruction]

theorem Length.loopz (b : Byte) :
    Length.Statement (.loopz b) := by
  simp [Length.Statement, encode, Config.longestInstruction]

theorem Length.loop (b : Byte) :
    Length.Statement (.loop b) := by
  simp [Length.Statement, encode, Config.longestInstruction]

theorem Length.jcxz (b : Byte) :
    Length.Statement (.jcxz b) := by
  simp [Length.Statement, encode, Config.longestInstruction]

end Sys2Proof.Laws
end

