-- ==== Sys2Proof/Laws/State.lean ====
section
/-! SUPPORT. One lemma for each field and each update of the state, and the laws of the register file and of register
halves. -/

namespace Sys2Proof.Machine

/-! ## The register file -/

@[simp] theorem RegFile.get_set_same (f : RegFile) (r : Reg16) (p : BytePair) : (f.set r p).get r = p := by
  cases r <;> rfl

theorem RegFile.get_set_other (f : RegFile) (r q : Reg16) (p : BytePair) (h : q ≠ r) :
    (f.set r p).get q = f.get q := by
  cases r <;> cases q <;> first | rfl | exact absurd rfl h

@[simp] theorem RegFile.set_get (f : RegFile) (r : Reg16) : f.set r (f.get r) = f := by
  cases r <;> rfl

theorem RegFile.write_eq (f : RegFile) (name : RegName) (v : Word) :
    f.write name v = f.set (resolve name).1 ((f.get (resolve name).1).write (resolve name).2 v) := rfl

theorem RegFile.get_write_same (f : RegFile) (name : RegName) (v : Word) :
    (f.write name v).get (resolve name).1 = (f.get (resolve name).1).write (resolve name).2 v := by
  simp [RegFile.write_eq]

theorem RegFile.get_write_other (f : RegFile) (name : RegName) (v : Word) (q : Reg16) (h : q ≠ (resolve name).1) :
    (f.write name v).get q = f.get q :=
  RegFile.get_set_other f _ q _ h

/-! ## Words and halves -/

/-- A word made of two bytes, bit by bit. -/
theorem append_getLsbD (hi lo : Byte) (i : Nat) :
    BitVec.getLsbD (w := 16) (hi ++ lo) i = if i < 8 then lo.getLsbD i else hi.getLsbD (i - 8) :=
  @BitVec.getLsbD_append 8 8 i hi lo

@[simp] theorem lowByte_append (hi lo : Byte) : lowByte (hi ++ lo) = lo := by
  refine BitVec.eq_of_getLsbD_eq fun i h => ?_
  simp only [lowByte, BitVec.getLsbD_extractLsb', append_getLsbD, h, Nat.zero_add, if_true,
    decide_true, Bool.true_and]

@[simp] theorem highByte_append (hi lo : Byte) : highByte (hi ++ lo) = hi := by
  refine BitVec.eq_of_getLsbD_eq fun i h => ?_
  have h8 : ¬ 8 + i < 8 := by omega
  simp only [highByte, BitVec.getLsbD_extractLsb', append_getLsbD, h, if_neg h8,
    Nat.add_sub_cancel_left, decide_true, Bool.true_and]

@[simp] theorem highByte_append_lowByte (v : Word) : (highByte v ++ lowByte v : Word) = v := by
  refine BitVec.eq_of_getLsbD_eq fun i h => ?_
  rw [append_getLsbD]
  by_cases hi : i < 8
  · simp [lowByte, hi]
  · have h8 : i - 8 < 8 := by omega
    have he : 8 + (i - 8) = i := by omega
    simp [highByte, hi, h8, he]

@[simp] theorem BytePair.toWord_ofWord (v : Word) : (BytePair.ofWord v).toWord = v := highByte_append_lowByte v

@[simp] theorem BytePair.ofWord_toWord (p : BytePair) : BytePair.ofWord p.toWord = p := by
  obtain ⟨hi, lo⟩ := p
  simp only [BytePair.toWord, BytePair.ofWord, highByte_append, lowByte_append]

@[simp] theorem BytePair.write_universal (p : BytePair) (v : Word) : p.write .universal v = .ofWord v := rfl
@[simp] theorem BytePair.write_high_hi (p : BytePair) (v : Word) : (p.write .high v).hi = lowByte v := rfl
@[simp] theorem BytePair.write_high_lo (p : BytePair) (v : Word) : (p.write .high v).lo = p.lo := rfl
@[simp] theorem BytePair.write_low_hi (p : BytePair) (v : Word) : (p.write .low v).hi = p.hi := rfl
@[simp] theorem BytePair.write_low_lo (p : BytePair) (v : Word) : (p.write .low v).lo = lowByte v := rfl

@[simp] theorem BytePair.alu_high_lo (p : BytePair) (op : AluOp) (v : Word) : (p.alu op .high v).lo = p.lo := rfl
@[simp] theorem BytePair.alu_low_hi (p : BytePair) (op : AluOp) (v : Word) : (p.alu op .low v).hi = p.hi := rfl

/-! ## Retiring a step -/

section retire
variable (s : State) (r : Option TraceRecord)

@[simp] theorem State.retire_regs : (s.retire r).regs = s.regs := rfl
@[simp] theorem State.retire_flags : (s.retire r).flags = s.flags := rfl
@[simp] theorem State.retire_schema : (s.retire r).schema = s.schema := rfl
@[simp] theorem State.retire_mem : (s.retire r).mem = s.mem := rfl
@[simp] theorem State.retire_idx : (s.retire r).idx = s.idx := rfl
@[simp] theorem State.retire_scratch : (s.retire r).scratch = s.scratch := rfl
@[simp] theorem State.retire_decoded : (s.retire r).decoded = s.decoded := rfl
@[simp] theorem State.retire_text : (s.retire r).text = s.text := rfl
@[simp] theorem State.retire_program : (s.retire r).program = s.program := rfl
@[simp] theorem State.retire_pos : (s.retire r).pos = s.pos + 1 := rfl
@[simp] theorem State.retire_trace : (s.retire r).trace = s.trace ++ [r] := rfl
@[simp] theorem State.retire_mode : (s.retire r).mode = s.mode := rfl
@[simp] theorem State.retire_phase : (s.retire r).phase = s.phase := rfl

end retire

/-! ## Starting an execute run -/

section startExecution
variable (s : State) (l : List Listed)

@[simp] theorem State.startExecution_regs : (s.startExecution l).regs = RegFile.zero := rfl
@[simp] theorem State.startExecution_flags : (s.startExecution l).flags = ⟨false, false⟩ := rfl
@[simp] theorem State.startExecution_schema : (s.startExecution l).schema = s.schema := rfl
@[simp] theorem State.startExecution_mem : (s.startExecution l).mem = s.mem := rfl
@[simp] theorem State.startExecution_idx : (s.startExecution l).idx = 0 := rfl
@[simp] theorem State.startExecution_scratch : (s.startExecution l).scratch = Scratch.reset := rfl
@[simp] theorem State.startExecution_decoded : (s.startExecution l).decoded = [] := rfl
@[simp] theorem State.startExecution_text : (s.startExecution l).text = s.text := rfl
@[simp] theorem State.startExecution_program : (s.startExecution l).program = l := rfl
@[simp] theorem State.startExecution_pos : (s.startExecution l).pos = 0 := rfl
@[simp] theorem State.startExecution_trace : (s.startExecution l).trace = [] := rfl
@[simp] theorem State.startExecution_mode : (s.startExecution l).mode = s.mode := rfl
@[simp] theorem State.startExecution_phase : (s.startExecution l).phase = .executing := rfl

end startExecution

end Sys2Proof.Machine
end

