-- ==== Sys2Proof/Laws/Step.lean ====
section
/-! SUPPORT. What each shared operation can do, said once: if it answers a next state, or a fault, then one of these
cases holds. Later proofs cite these lemmas and do not unfold the operations. -/

namespace Sys2Proof.Machine

/-! ## The operations of the Execution Unit -/

/-- The state after a `mov` that passed its checks. -/
theorem movOp_of_check {dst src : EuOperand} {s : State} {name : RegName} {v : Word}
    (h : operandCheck s.regs dst src = .ok (name, v)) :
    movOp dst src s = .next (State.retire { s with regs := s.regs.write name v }
      (some ⟨(resolve name).1, s.regs.word (resolve name).1, (s.regs.write name v).word (resolve name).1⟩)) := by
  simp [movOp, h]

theorem movOp_of_error {dst src : EuOperand} {s : State} {k : LookupKind}
    (h : operandCheck s.regs dst src = .error k) : movOp dst src s = raiseLookup k s := by
  simp [movOp, h]

theorem addSubOp_of_check {op : AluOp} {dst src : EuOperand} {s : State} {name : RegName} {v : Word}
    (h : operandCheck s.regs dst src = .ok (name, v)) :
    addSubOp op dst src s =
      .next (State.retire
        { s with
          regs := s.regs.set (resolve name).1 ((s.regs.get (resolve name).1).alu op (resolve name).2 v)
          flags := flagsOf ((s.regs.get (resolve name).1).alu op (resolve name).2 v).toWord }
        (some ⟨(resolve name).1, s.regs.word (resolve name).1,
          ((s.regs.get (resolve name).1).alu op (resolve name).2 v).toWord⟩)) := by
  simp [addSubOp, h]

theorem addSubOp_of_error {op : AluOp} {dst src : EuOperand} {s : State} {k : LookupKind}
    (h : operandCheck s.regs dst src = .error k) : addSubOp op dst src s = raiseLookup k s := by
  simp [addSubOp, h]

theorem cmpOp_of_check {dst src : EuOperand} {s : State} {name : RegName} {v : Word}
    (h : operandCheck s.regs dst src = .ok (name, v)) :
    cmpOp dst src s =
      .next (State.retire
        { s with flags := flagsOf ((s.regs.get (resolve name).1).alu .sub (resolve name).2 v).toWord }
        (some ⟨(resolve name).1, s.regs.word (resolve name).1,
          ((s.regs.get (resolve name).1).alu .sub (resolve name).2 v).toWord⟩)) := by
  simp [cmpOp, h]

theorem cmpOp_of_error {dst src : EuOperand} {s : State} {k : LookupKind}
    (h : operandCheck s.regs dst src = .error k) : cmpOp dst src s = raiseLookup k s := by
  simp [cmpOp, h]

/-- What a `mov`, `add`, `sub` or `cmp` can do: one of the checks fails and its fault carries the list position, or a
next state keeps everything but registers, flags, trace and position. -/
theorem movOp_cases (dst src : EuOperand) (s : State) :
    (∃ k, movOp dst src s = raiseLookup k s) ∨
    (∃ regs r, movOp dst src s = .next (State.retire { s with regs := regs } (some r))) := by
  cases h : operandCheck s.regs dst src with
  | error k => exact .inl ⟨k, movOp_of_error h⟩
  | ok p => exact .inr ⟨_, _, movOp_of_check (name := p.1) (v := p.2) h⟩

theorem addSubOp_cases (op : AluOp) (dst src : EuOperand) (s : State) :
    (∃ k, addSubOp op dst src s = raiseLookup k s) ∨
    (∃ regs flags r, addSubOp op dst src s =
      .next (State.retire { s with regs := regs, flags := flags } (some r))) := by
  cases h : operandCheck s.regs dst src with
  | error k => exact .inl ⟨k, addSubOp_of_error h⟩
  | ok p => exact .inr ⟨_, _, _, addSubOp_of_check (name := p.1) (v := p.2) h⟩

theorem cmpOp_cases (dst src : EuOperand) (s : State) :
    (∃ k, cmpOp dst src s = raiseLookup k s) ∨
    (∃ flags r, cmpOp dst src s = .next (State.retire { s with flags := flags } (some r))) := by
  cases h : operandCheck s.regs dst src with
  | error k => exact .inl ⟨k, cmpOp_of_error h⟩
  | ok p => exact .inr ⟨_, _, cmpOp_of_check (name := p.1) (v := p.2) h⟩

/-- What a step of the Execution Unit can do, whatever the list element is. -/
theorem execMnemonic_cases (m : Mnemonic) (dst src : EuOperand) (s : State) :
    (∃ k, execMnemonic m dst src s = raiseLookup k s) ∨
    (∃ regs flags r, execMnemonic m dst src s =
      .next (State.retire { s with regs := regs, flags := flags } r)) := by
  cases m with
  | mov =>
    obtain ⟨k, h⟩ | ⟨regs, r, h⟩ := movOp_cases dst src s
    · exact .inl ⟨k, h⟩
    · exact .inr ⟨regs, s.flags, some r, h⟩
  | add =>
    obtain ⟨k, h⟩ | ⟨regs, fl, r, h⟩ := addSubOp_cases .add dst src s
    · exact .inl ⟨k, h⟩
    · exact .inr ⟨regs, fl, some r, h⟩
  | sub =>
    obtain ⟨k, h⟩ | ⟨regs, fl, r, h⟩ := addSubOp_cases .sub dst src s
    · exact .inl ⟨k, h⟩
    · exact .inr ⟨regs, fl, some r, h⟩
  | cmp =>
    obtain ⟨k, h⟩ | ⟨fl, r, h⟩ := cmpOp_cases dst src s
    · exact .inl ⟨k, h⟩
    · exact .inr ⟨s.regs, fl, some r, h⟩
  | _ => exact .inr ⟨s.regs, s.flags, none, rfl⟩

/-! ## The Decode Unit -/

/-- What one iteration of the walker can do (30_encoding.md R140). -/
theorem walkStep_cases (s : State) :
    (∃ f, iterate s.schema (Memory.bytesFrom s.mem s.idx) = .error f ∧ walkStep s = raiseDecode f s) ∨
    (iterate s.schema (Memory.bytesFrom s.mem s.idx) = .ok .endOfStream ∧ walkStep s = .next s.endWalk) ∨
    (iterate s.schema (Memory.bytesFrom s.mem s.idx) = .ok .skip ∧ walkStep s = .next { s with idx := s.idx + 1 }) ∨
    (∃ d sc, iterate s.schema (Memory.bytesFrom s.mem s.idx) = .ok (.hit d sc) ∧
      walkStep s = .next { s with
        decoded := s.decoded ++ [listing s.idx (Memory.bytesFrom s.mem s.idx) d]
        scratch := sc
        idx := s.idx + d.length }) := by
  cases h : iterate s.schema (Memory.bytesFrom s.mem s.idx) with
  | error f => exact .inl ⟨f, rfl, by simp [walkStep, h]⟩
  | ok it =>
    cases it with
    | endOfStream => exact .inr (.inl ⟨rfl, by simp [walkStep, h]⟩)
    | skip => exact .inr (.inr (.inl ⟨rfl, by simp [walkStep, h]⟩))
    | hit d sc => exact .inr (.inr (.inr ⟨d, sc, rfl, by simp [walkStep, h]⟩))

/-- The walk ends exactly where no byte is left (30_encoding.md R140). -/
theorem iterate_nil (schema : Schema) : iterate schema [] = .ok .endOfStream := rfl

/-! ## The whole step -/

/-- Which unit a step belongs to. -/
theorem step_decoding {s : State} (h : s.phase = .decoding) : step s = walkStep s := by simp [step, h]

theorem step_parsing {s : State} (h : s.phase = .parsing) : step s = parseStep s := by simp [step, h]

theorem step_executing {s : State} (h : s.phase = .executing) : step s = executeStep s := by simp [step, h]

theorem step_finished {s : State} (h : s.phase = .finished) : step s = .next s := by simp [step, h]

/-- The step on the list element whose turn it is. -/
theorem executeStep_listed {s : State} {x : Listed} (h : s.program[s.pos]? = some x) :
    executeStep s = execListed x s := by
  simp [executeStep, h]

theorem executeStep_end {s : State} (h : s.program[s.pos]? = none) :
    executeStep s = .next { s with phase := .finished } := by
  simp [executeStep, h]

end Sys2Proof.Machine
end

