-- ==== Sys2Proof/Tests/Slice0.lean ====
section
/-! SUPPORT. Tests. Expected results are those of spec/95_test_vectors.md (named L1.x and 2.x below), or are worked out
by hand from the rule named. The witnesses at the end meet the hypotheses of the obligations. -/

namespace Sys2Proof.Tests

open Sys2Proof.Machine

/-! ## Helpers -/

/-- The decoder reads exactly these bytes as the instruction with this text. -/
def reads (bs : List Byte) (t : String) : Bool :=
  match decode bs with
  | .hit i [] => renderInstruction (decodedOf i) == t.toList
  | _ => false

/-- The decoder reads exactly these bytes as this instruction. -/
def readsAs (bs : List Byte) (i : Instr) : Bool := decode bs == .hit i []

/-- The registers, the flags and the records after a step. -/
def after : Host.Outcome State Fault Refusal → Option (RegFile × Flags × List (Option TraceRecord))
  | .next s => some (s.regs, s.flags, s.trace)
  | .fault _ => none
  | .refused _ => none

/-- The numeric code and the information of a fault. -/
def faulted : Host.Outcome State Fault Refusal → Option (Nat × Nat)
  | .fault f => some (faultCode f, faultInfo f)
  | .next _ => none
  | .refused _ => none

/-- A register file with `ax`, `bx` and `cx` set. -/
def file (ax bx cx : Word) : RegFile :=
  { RegFile.zero with ax := .ofWord ax, bx := .ofWord bx, cx := .ofWord cx }

/-- A state that is about to run one instruction over these registers. -/
def at1 (x : Listed) (f : RegFile) (zf sf : Bool) : State :=
  { State.loadList [x] with regs := f, flags := ⟨zf, sf⟩ }

/-- The step on the instruction that these bytes decode to. -/
def runs (bs : List Byte) (f : RegFile) : Option (RegFile × Flags × List (Option TraceRecord)) :=
  match decode bs with
  | .hit i [] => after (step (at1 (.row 0 i) f false false))
  | _ => none

/-- The step on a line of text. -/
def runsLine (t : String) (f : RegFile) (zf sf : Bool) : Host.Outcome State Fault Refusal :=
  match parseLine t.toList with
  | some l => step (at1 (.line l) f zf sf)
  | none => .fault (.textParse 0)

/-- A register-file result with its flags and its one record. -/
def wrote (f : RegFile) (zf sf : Bool) (r : Reg16) (before value : Word) :
    Option (RegFile × Flags × List (Option TraceRecord)) :=
  some (f, ⟨zf, sf⟩, [some ⟨r, before, value⟩])

/-- The output of a walk of at most `n` steps, with each index, or the fault. -/
def walk (n : Nat) (bs : List Byte) : Option (List Listed) × Option (Nat × Nat) :=
  match Host.Core.run Sys2Proof.core n (State.loadStream .decode bs) with
  | .next s => (if s.phase = .finished then some s.decoded else none, none)
  | .fault f => (none, some (faultCode f, faultInfo f))
  | .refused _ => (none, none)

/-! ## WellFormed refuses ill-formed terms -/

theorem test_wf_rejects_segment_register : (Instr.movImmReg (.r16 .ds) (.word 0#16)).wf = false := by decide

theorem test_wf_rejects_data_width : (Instr.movImmReg (.r8 .al) (.word 0#16)).wf = false := by decide

theorem test_wf_rejects_register_width : (Instr.addRmReg true (.r16 .ax) (.reg (.r8 .bl))).wf = false := by decide

theorem test_wf_rejects_segment_operand : (Instr.cmpRmReg true (.r16 .ax) (.reg (.r16 .es))).wf = false := by decide

theorem test_wf_rejects_bare_bp : (Instr.movRmReg true (.r16 .ax) (.base .bp)).wf = false := by decide

theorem test_wf_rejects_group_width : (Instr.subImmRm (.reg (.r8 .cl)) (.signed .word 1#8)).wf = false := by decide

theorem test_wf_accepts_each_shape :
    (Instr.movRmReg false (.r16 .bx) (.reg (.r16 .cx))).wf = true ∧ (Instr.addImmRm (.base .si) (.word 1#16)).wf = true ∧
    (Instr.movImmRm 0b001#3 (.direct 5#16) (.byte 7#8)).wf = true ∧ (Instr.jo 0#8).wf = true := by decide

/-! ## Decoding: the words of 2.2 to 2.6, at least one for each row -/

theorem test_decode_mov_words :
    reads [0x89#8, 0xD9#8] "mov cx, bx" ∧ reads [0x8B#8, 0x46#8, 0xFC#8] "mov ax, [bp + 252]" ∧
    reads [0x8B#8, 0x1E#8, 0xE8#8, 0x03#8] "mov bx, [1000]" ∧ reads [0xC6#8, 0xC8#8, 0x07#8] "mov al, 7" ∧
    reads [0xC7#8, 0x86#8, 0x00#8, 0x01#8, 0xFF#8, 0xFF#8] "mov [bp + 256], 65535" ∧
    reads [0xB4#8, 0x80#8] "mov ah, 128" ∧ reads [0xBF#8, 0xFF#8, 0xFF#8] "mov di, 65535" ∧
    reads [0xA1#8, 0xE8#8, 0x03#8] "mov ax, [1000]" ∧ reads [0xA2#8, 0x05#8, 0x00#8] "mov [5], al" := by decide

theorem test_decode_add_words :
    reads [0x01#8, 0xD8#8] "add ax, bx" ∧ reads [0x00#8, 0x47#8, 0xFC#8] "add [bx + 252], al" ∧
    reads [0x82#8, 0xC1#8, 0x80#8] "add cl, 65408" ∧
    reads [0x81#8, 0x82#8, 0x10#8, 0x00#8, 0x34#8, 0x12#8] "add [bp + si + 16], 4660" ∧
    reads [0x05#8, 0xE8#8, 0x03#8] "add ax, 1000" ∧ reads [0x04#8, 0x09#8] "add al, 9" := by decide

theorem test_decode_sub_words :
    reads [0x29#8, 0xD8#8] "sub ax, bx" ∧ reads [0x2B#8, 0x5E#8, 0x00#8] "sub bx, [bp]" ∧
    reads [0x83#8, 0xEB#8, 0x03#8] "sub bx, 3" ∧ reads [0x81#8, 0xEE#8, 0xFF#8, 0x7F#8] "sub si, 32767" ∧
    reads [0x2D#8, 0x10#8, 0x00#8] "sub ax, 16" := by decide

theorem test_decode_cmp_words :
    reads [0x39#8, 0xD8#8] "cmp ax, bx" ∧ reads [0x3A#8, 0x00#8] "cmp al, [bx + si]" ∧
    reads [0x83#8, 0xFB#8, 0x05#8] "cmp bx, 5" ∧ reads [0x80#8, 0x3E#8, 0x10#8, 0x00#8, 0x05#8] "cmp [16], 5" ∧
    reads [0x3C#8, 0x0A#8] "cmp al, 10" := by decide

/-- The first byte of each jump, written bit by bit from the patterns 01110ccc, 01111ccc and 111000cc. -/
theorem test_decode_branch_words :
    reads [0b01110000#8, 0x00#8] "jo 0" ∧ reads [0b01110001#8, 0x05#8] "jno 5" ∧ reads [0b01110010#8, 0x10#8] "jb 16" ∧
    reads [0b01110011#8, 0xFF#8] "jnb 255" ∧ reads [0b01110100#8, 0x02#8] "je 2" ∧
    reads [0b01110101#8, 0xFC#8] "jne 252" ∧ reads [0b01110110#8, 0x7F#8] "jbe 127" ∧
    reads [0b01110111#8, 0x80#8] "ja 128" ∧ reads [0b01111000#8, 0x01#8] "js 1" ∧
    reads [0b01111001#8, 0x20#8] "jns 32" ∧ reads [0b01111010#8, 0x03#8] "jp 3" ∧
    reads [0b01111011#8, 0x04#8] "jnp 4" ∧ reads [0b01111100#8, 0xF0#8] "jl 240" ∧
    reads [0b01111101#8, 0x0A#8] "jnl 10" ∧ reads [0b01111110#8, 0x06#8] "jle 6" ∧
    reads [0b01111111#8, 0x80#8] "jg 128" ∧ reads [0b11100000#8, 0x10#8] "loopnz 16" ∧
    reads [0b11100001#8, 0x01#8] "loopz 1" ∧ reads [0b11100010#8, 0xFE#8] "loop 254" ∧
    reads [0b11100011#8, 0x05#8] "jcxz 5" := by decide

/-- Rows and fields, written bit by bit from the encodings of 30_encoding.md R91 and R100. -/
theorem test_decode_rows :
    readsAs [0b10001010#8, 0b01011110#8, 0xFF#8] (.movRmReg true (.r8 .bl) (.disp8 .bp 0xFF#8)) ∧
    readsAs [0b11000111#8, 0b11000001#8, 0x34#8, 0x12#8] (.movImmRm 0b000#3 (.reg (.r16 .cx)) (.word 0x1234#16)) ∧
    readsAs [0b10111001#8, 0x34#8, 0x12#8] (.movImmReg (.r16 .cx) (.word 0x1234#16)) ∧
    readsAs [0b10100000#8, 0x10#8, 0x00#8] (.movMemAcc .byte 16#16) ∧
    readsAs [0b10100011#8, 0xE8#8, 0x03#8] (.movAccMem .word 1000#16) ∧
    readsAs [0b00000010#8, 0b11100000#8] (.addRmReg true (.r8 .ah) (.reg (.r8 .al))) ∧
    readsAs [0b10000001#8, 0b11000011#8, 0x80#8, 0x00#8] (.addImmRm (.reg (.r16 .bx)) (.word 0x0080#16)) ∧
    readsAs [0b00101011#8, 0b01011110#8, 0x00#8] (.subRmReg true (.r16 .bx) (.disp8 .bp 0#8)) ∧
    readsAs [0b10000000#8, 0b11101001#8, 0x01#8] (.subImmRm (.reg (.r8 .cl)) (.byte 1#8)) ∧
    readsAs [0b00101100#8, 0x01#8] (.subImmAcc (.byte 1#8)) ∧
    readsAs [0b00111001#8, 0b10011000#8, 0x34#8, 0x12#8] (.cmpRmReg false (.r16 .bx) (.disp16 .bxSi 0x1234#16)) ∧
    readsAs [0b10000011#8, 0b11111011#8, 0x05#8] (.cmpImmRm (.reg (.r16 .bx)) (.signed .word 5#8)) ∧
    readsAs [0b00111101#8, 0xE8#8, 0x03#8] (.cmpImmAcc (.word 1000#16)) := by decide

theorem test_decode_rejects :
    decode [0x90#8] = .unmatched ∧ decode [0x83#8, 0xCB#8, 0x01#8] = .unmatched ∧ decode [0xE4#8, 0x01#8] = .unmatched ∧
    decode [0x80#8] = .truncated ∧ decode [0x8B#8, 0x1E#8, 0xE8#8] = .truncated ∧
    decode [0x81#8, 0xC3#8, 0x80#8] = .truncated ∧ decode [0x75#8] = .truncated := by decide

/-! ## The walker: vectors of 2.7 and L1.7 -/

theorem test_walk_program :
    walk 4 [0xB8#8, 0x05#8, 0x00#8, 0x05#8, 0x0A#8, 0x00#8, 0x2D#8, 0x03#8, 0x00#8] =
      (some [.row 0 (.movImmReg (.r16 .ax) (.word 5#16)), .row 3 (.addImmAcc (.word 10#16)),
        .row 6 (.subImmAcc (.word 3#16))], none) := by decide

theorem test_walk_resync :
    walk 5 [0x89#8, 0xD9#8, 0x90#8, 0x90#8, 0xB1#8, 0x0C#8] =
      (some [.row 0 (.movRmReg false (.r16 .bx) (.reg (.r16 .cx))), .row 4 (.movImmReg (.r8 .cl) (.byte 12#8))],
        none) ∧
    walk 4 [0x89#8, 0xD9#8, 0x0F#8, 0xB1#8, 0x0C#8] =
      (some [.row 0 (.movRmReg false (.r16 .bx) (.reg (.r16 .cx))), .row 3 (.movImmReg (.r8 .cl) (.byte 12#8))],
        none) := by decide

theorem test_walk_truncated :
    walk 3 [0x83#8, 0xCB#8, 0x01#8] = (none, some (10, 2)) ∧ walk 2 [0xE4#8, 0x01#8] = (none, some (10, 1)) ∧
    walk 1 [0x80#8] = (none, some (10, 0)) := by decide

/-! ## A replaced SCHEMA: log entries 4, 12 and 14 -/

/-- The step over one definition with the fixed byte 0xF4, on the bytes F4 01. -/
def replacedStep (d : InstructionDefinition) : Host.Outcome State Fault Refusal :=
  step (State.loadSchema [⟨0xF4#8, 9, .single d⟩] .decode [0xF4#8, 0x01#8])

theorem test_replaced_flags_overflow :
    faulted (replacedStep ⟨.mov, 9, 2, [.wordSize], [], none⟩) = some (1, 0) := by decide

theorem test_replaced_word_size_unknown :
    schemaWf [⟨0xF4#8, 9, .single ⟨.mov, 9, 2, [], [.wordData], none⟩⟩] = true ∧
    faulted (replacedStep ⟨.mov, 9, 2, [], [.wordData], none⟩) = some (2, 0) := by decide

theorem test_replaced_no_mode :
    schemaWf [⟨0xF4#8, 9, .single ⟨.mov, 9, 2, [], [.wordDisplacement], none⟩⟩] = true ∧
    faulted (replacedStep ⟨.mov, 9, 2, [], [.wordDisplacement], none⟩) = some (3, 0) := by decide

theorem test_replaced_misaligned :
    faulted (replacedStep ⟨.mov, 9, 2, [], [.fixedBit, .byte], none⟩) = some (4, 0) := by decide

theorem test_replaced_is_listed :
    (match replacedStep ⟨.jo, 9, 2, [], [.byte], none⟩ with
      | .next s => s.decoded
      | _ => []) = [.replaced 0 ⟨.jo, .none, .rel 0x01#8, 2⟩] := by decide

/-! ## One step: vectors of 2.2 to 2.6 -/

theorem test_mov_register : runs [0x89#8, 0xD9#8] (file 0#16 0x1234#16 0#16) =
    wrote (file 0#16 0x1234#16 0x1234#16) false false .cx 0#16 0x1234#16 := by decide

theorem test_mov_half : runs [0x88#8, 0xC4#8] (file 0x00FF#16 0#16 0#16) =
    wrote (file 0xFFFF#16 0#16 0#16) false false .ax 0x00FF#16 0xFFFF#16 := by decide

theorem test_mov_immediate_to_rm : runs [0xC7#8, 0xC1#8, 0x34#8, 0x12#8] (file 0#16 0#16 0#16) =
    wrote (file 0#16 0#16 0x1234#16) false false .cx 0#16 0x1234#16 := by decide

theorem test_mov_immediate_to_register : runs [0xB0#8, 0x56#8] (file 0x1234#16 0#16 0#16) =
    wrote (file 0x1256#16 0#16 0#16) false false .ax 0x1234#16 0x1256#16 := by decide

theorem test_mov_accumulator_memory :
    faulted (step (at1 (.row 0 (.movMemAcc .word 1000#16)) .zero false false)) = some (23, 0) ∧
    faulted (step (at1 (.row 0 (.movAccMem .byte 5#16)) .zero false false)) = some (23, 0) := by decide

theorem test_add_register : runs [0x01#8, 0xC0#8] (file 0x8000#16 0#16 0#16) =
    wrote (file 0#16 0#16 0#16) true false .ax 0x8000#16 0#16 := by decide

theorem test_add_half : runs [0x02#8, 0xE0#8] (file 0x0012#16 0#16 0#16) =
    wrote (file 0x1212#16 0#16 0#16) false false .ax 0x0012#16 0x1212#16 := by decide

theorem test_add_group_signed : runs [0x83#8, 0xC3#8, 0x80#8] (file 0#16 0x0200#16 0#16) =
    wrote (file 0#16 0x0180#16 0#16) false false .bx 0x0200#16 0x0180#16 := by decide

theorem test_add_group_byte : runs [0x82#8, 0xC1#8, 0x80#8] (file 0#16 0#16 0x0010#16) =
    wrote (file 0#16 0#16 0x0090#16) false false .cx 0x0010#16 0x0090#16 := by decide

theorem test_add_accumulator : runs [0x04#8, 0x01#8] (file 0x01FF#16 0#16 0#16) =
    wrote (file 0x0100#16 0#16 0#16) false false .ax 0x01FF#16 0x0100#16 := by decide

theorem test_add_carries_into_high_half : runs [0x05#8, 0x01#8, 0x00#8] (file 0x7FFF#16 0#16 0#16) =
    wrote (file 0x8000#16 0#16 0#16) false true .ax 0x7FFF#16 0x8000#16 := by decide

theorem test_sub_register : runs [0x29#8, 0xD8#8] (file 0x0003#16 0x0005#16 0#16) =
    wrote (file 0xFFFE#16 0x0005#16 0#16) false true .ax 0x0003#16 0xFFFE#16 := by decide

theorem test_sub_half_of_itself : runs [0x28#8, 0xC0#8] (file 0x0101#16 0#16 0#16) =
    wrote (file 0x0100#16 0#16 0#16) false false .ax 0x0101#16 0x0100#16 := by decide

theorem test_sub_group : runs [0x83#8, 0xEB#8, 0x03#8] (file 0#16 0x0003#16 0#16) =
    wrote (file 0#16 0#16 0#16) true false .bx 0x0003#16 0#16 := by decide

theorem test_sub_accumulator : runs [0x2C#8, 0x01#8] (file 0x0100#16 0#16 0#16) =
    wrote (file 0x01FF#16 0#16 0#16) false false .ax 0x0100#16 0x01FF#16 := by decide

theorem test_cmp_register : runs [0x39#8, 0xD8#8] (file 0x0005#16 0x0005#16 0#16) =
    wrote (file 0x0005#16 0x0005#16 0#16) true false .ax 0x0005#16 0#16 := by decide

theorem test_cmp_group : runs [0x83#8, 0xFB#8, 0x05#8] (file 0#16 0x0004#16 0#16) =
    wrote (file 0#16 0x0004#16 0#16) false true .bx 0x0004#16 0xFFFF#16 := by decide

theorem test_cmp_accumulator : runs [0x3C#8, 0x0A#8] (file 0x010A#16 0#16 0#16) =
    wrote (file 0x010A#16 0#16 0#16) false false .ax 0x010A#16 0x0100#16 := by decide

theorem test_loop_does_not_decrement :
    after (step (at1 (.row 0 (.loop 254#8)) (file 0#16 0#16 3#16) true false)) =
      some (file 0#16 0#16 3#16, ⟨true, false⟩, [none]) := by decide

theorem test_jne_is_no_op :
    after (step (at1 (.row 0 (.jne 252#8)) (file 0#16 0#16 3#16) true false)) =
      some (file 0#16 0#16 3#16, ⟨true, false⟩, [none]) := by decide

/-! ## Text: vectors of 2.8, L1.5 and 60_exceptions.md R320, R321 -/

theorem test_line_hexadecimal : after (runsLine "mov ah, 0x34" (file 0x0012#16 0#16 0#16) false false) =
    wrote (file 0x3412#16 0#16 0#16) false false .ax 0x0012#16 0x3412#16 := by decide

theorem test_line_segment_register : after (runsLine "mov es, 7" .zero false false) =
    wrote (RegFile.zero.set .es (.ofWord 7#16)) false false .es 0#16 7#16 := by decide

theorem test_line_truncates : after (runsLine "mov al, 300" .zero false false) =
    wrote (file 0x002C#16 0#16 0#16) false false .ax 0#16 0x002C#16 := by decide

theorem test_line_keeps_flags : after (runsLine "mov ax, 0" .zero true true) =
    wrote .zero true true .ax 0#16 0#16 := by decide

theorem test_line_branch_operand : after (runsLine "jcxz foo" .zero false false) =
    some (.zero, ⟨false, false⟩, [none]) := by decide

/-- Each `ExecLookup` kind, by its code in R301. -/
theorem test_line_faults :
    faulted (runsLine "jz 5" .zero false false) = some (25, 0) ∧
    faulted (runsLine "mov foo, 1" .zero false false) = some (20, 0) ∧
    faulted (runsLine "mov ax, 70000" .zero false false) = some (21, 0) ∧
    faulted (runsLine "add 5, ax" .zero false false) = some (22, 0) ∧
    faulted (runsLine "sub ax, [bx + si]" .zero false false) = some (23, 0) ∧
    faulted (runsLine "cmp ax, bl" .zero false false) = some (24, 0) ∧
    faulted (runsLine "mov ax" .zero false false) = some (26, 0) := by decide

/-- Blank lines are dropped and a carriage return is removed (2.8). -/
theorem test_parse_text :
    parseText "mov ax, 1\r\n\n  \nadd ax, 2\r\n".toList =
      .ok [⟨"mov".toList, "ax".toList, some "1".toList, 0⟩, ⟨"add".toList, "ax".toList, some "2".toList, 0⟩] ∧
    parseText "mov ax, 1\nnop\n".toList = .error 2 := by decide

theorem test_trace_line :
    traceLine "mov".toList "ah".toList "0x34".toList (some ⟨.ax, 0x0012#16, 0x3412#16⟩) =
      "mov ah, 0x34; ax: 0x0012 --> 0x3412".toList ∧
    traceLine "jne".toList "252".toList [] none = "jne 252".toList ∧
    dumpLine (file 0x000C#16 0#16 0#16) .ax = "ax: 0x000C".toList := by decide

/-! ## Words of the opcode table: `b0 * 256 + b1` (log entry 7) -/

theorem test_table_words :
    decodeTableWord 16 0x89D9 = some (.movRmReg false (.r16 .bx) (.reg (.r16 .cx))) ∧
    decodeTableWord 16 0xC600 = some (.movImmRm 0#3 (.base .bxSi) (.byte 0#8)) ∧
    decodeTableWord 16 0x8038 = some (.cmpImmRm (.base .bxSi) (.byte 0#8)) ∧
    decodeTableWord 16 0xA200 = some (.movAccMem .byte 0#16) ∧ decodeTableWord 16 0xE300 = some (.jcxz 0#8) ∧
    decodeTableWord 16 0x9000 = none := by decide

theorem test_placed_word_runs :
    after (step (State.withFetchWord State.reset 16 0xB10C)) =
      wrote (file 0#16 0#16 0x000C#16) false false .cx 0#16 0x000C#16 ∧
    faulted (step (State.withFetchWord State.reset 16 0xA100)) = some (23, 0) := by decide

/-! ## Witnesses: values that meet all the hypotheses of an obligation, for each clause -/

/-- The longest instruction, `add [bp + si + 16], 4660`. -/
def longest : Instr := .addImmRm (.disp16 .bpSi 16#16) (.word 0x1234#16)

/-- `mov cx, bx`, the scenario of L1.8. -/
def movCxBx : Instr := .movRmReg false (.r16 .bx) (.reg (.r16 .cx))

/-- A state that is about to run `movCxBx`, with `bx` set. -/
def movState : State := at1 (.row 0 movCxBx) (file 0#16 0x1234#16 0#16) false false

/-- A state that is about to run `sub cl, 1`. -/
def subState : State := at1 (.row 0 (.subImmRm (.reg (.r8 .cl)) (.byte 1#8))) .zero false false

theorem witness_DecodeReadsBackEveryEncoding : movCxBx.wf = true ∧ longest.wf = true ∧ (Instr.jcxz 0xFF#8).wf = true := by
  decide

theorem witness_EncodeGivesBackTheDecodedBytes :
    decode [0xC6#8, 0xC8#8, 0x07#8, 0x90#8] = .hit (.movImmRm 0b001#3 (.reg (.r8 .al)) (.byte 7#8)) [0x90#8] := by decide

/-- The first and the last possible cut of the longest form. -/
theorem witness_CutInstructionIsTruncated :
    longest.wf = true ∧ (encode longest).length = 6 ∧
    (State.loadStream .decode ((encode longest).take 1)).phase = .decoding ∧
    (State.loadStream .decode ((encode longest).take 1)).schema = romSchema ∧
    Memory.bytesFrom (State.loadStream .decode ((encode longest).take 1)).mem 0 = (encode longest).take 1 ∧
    Memory.bytesFrom (State.loadStream .decode ((encode longest).take 5)).mem 0 = (encode longest).take 5 := by decide

/-- The byte 0xC6 passes the test of E2 and of no entry before it; 0x0F passes none. -/
theorem witness_FirstPassingEntryDecides :
    (∀ x ∈ romSchema.take 1, maskTest 0xC6#8 x = false) ∧
    (∃ e d, romSchema[1]? = some e ∧ maskTest 0xC6#8 e = true ∧ e.lookup = .single d) ∧
    (∀ x ∈ romSchema, maskTest 0x0F#8 x = false) := by
  exact ⟨by decide, ⟨_, _, rfl, by decide, rfl⟩, by decide⟩

/-- E7 with `b1[5:3] = 101` at schema position 11, and E15 with `b0[2:0] = 010` at position 6 and no `b1`. -/
theorem witness_FirstAgreeingCandidateHits :
    (∀ x ∈ romSchema.take 6, maskTest 0x80#8 x = false) ∧
    (∃ e, romSchema[6]? = some e ∧ maskTest 0x80#8 e = true ∧
      e.lookup = .multi ([groupCandidate 0b000#3 .add] ++ groupCandidate 0b101#3 .sub ::
        [groupCandidate 0b111#3 .cmp])) ∧
    Spec.candidateTest 0x80#8 (some 0xE8#8) (groupCandidate 0b000#3 .add).1 = some false ∧
    Spec.candidateTest 0x80#8 (some 0xE8#8) (groupCandidate 0b101#3 .sub).1 = some true ∧
    (∀ x ∈ romSchema.take 14, maskTest 0xE2#8 x = false) ∧
    (∃ e, romSchema[14]? = some e ∧ maskTest 0xE2#8 e = true ∧
      e.lookup = .multi ([jumpCandidate 0b000#3 .loopnz, jumpCandidate 0b001#3 .loopz] ++
        jumpCandidate 0b010#3 .loop :: [jumpCandidate 0b011#3 .jcxz])) ∧
    (∀ x ∈ [jumpCandidate 0b000#3 .loopnz, jumpCandidate 0b001#3 .loopz],
      Spec.candidateTest 0xE2#8 none x.1 = some false) ∧
    Spec.candidateTest 0xE2#8 none (jumpCandidate 0b010#3 .loop).1 = some true := by
  exact ⟨by decide, ⟨_, rfl, by decide, rfl⟩, by decide, by decide, by decide, ⟨_, rfl, by decide, rfl⟩, by decide,
    by decide⟩

/-- E15 hits the byte 0xE4 with no candidate, whether a byte follows or not. -/
theorem witness_NoCandidateIsNoMatch :
    (∀ x ∈ romSchema.take 14, maskTest 0xE4#8 x = false) ∧
    (∃ e cs, romSchema[14]? = some e ∧ maskTest 0xE4#8 e = true ∧ e.lookup = .multi cs ∧
      (∀ x ∈ cs, Spec.candidateTest 0xE4#8 none x.1 = some false) ∧
      ∀ x ∈ cs, Spec.candidateTest 0xE4#8 (some 0x01#8) x.1 = some false) := by
  exact ⟨by decide, ⟨_, _, rfl, by decide, rfl, by decide, by decide⟩⟩

theorem witness_GroupByteAtTheEndIsTruncated :
    Memory.bytesFrom (State.loadStream .decode [0x80#8]).mem 0 = [0x80#8] ∧ Spec.isGroupByte (0x80#8).toNat ∧
    Spec.isGroupByte (0x83#8).toNat ∧ faulted (step (State.loadStream .decode [0x83#8])) = some (10, 0) := by
  refine ⟨by decide, ?_, ?_, by decide⟩ <;> simp [Spec.isGroupByte]

/-- Both clauses: bytes next to the ROM's ranges, and a group byte with an unused `eee`. -/
theorem witness_UnrecognizedByteIsSkipped :
    Memory.bytesFrom (State.loadStream .decode [0x06#8, 0x01#8]).mem 0 = [0x06#8, 0x01#8] ∧
    (¬ Spec.isRomByte (0x06#8).toNat ∧ ¬ Spec.isGroupByte (0x06#8).toNat) ∧
    (¬ Spec.isRomByte (0xE4#8).toNat ∧ ¬ Spec.isGroupByte (0xE4#8).toNat) ∧
    Spec.isGroupByte (0x83#8).toNat ∧ (0xCB#8).extractLsb' 3 3 ≠ 0b000#3 ∧ (0xCB#8).extractLsb' 3 3 ≠ 0b101#3 ∧
    (0xCB#8).extractLsb' 3 3 ≠ 0b111#3 := by
  simp [Spec.isGroupByte, Spec.isRomByte]
  decide

theorem witness_FlagsFollowTheFixedBits :
    (groupCandidate 0b000#3 .add).2.flags.Nodup ∧ (groupCandidate 0b000#3 .add).2.flags[0]? = some .signExtend ∧
    (groupCandidate 0b000#3 .add).2.flags[1]? = some .wordSize ∧ .direction ∉ (groupCandidate 0b000#3 .add).2.flags ∧
    (InstructionDefinition.mk .mov 7 4 [.direction, .wordSize] argsRm none).flags[0]? = some .direction ∧
    .signExtend ∉ (InstructionDefinition.mk .mov 7 4 [.direction, .wordSize] argsRm none).flags ∧
    .wordSize ∉ (jumpCandidate 0b000#3 .jo).2.flags := by decide

/-- The bytes of the two-byte modes, the one byte of mode 01 as the last of the stream, and a base of mode 00 with none. -/
theorem witness_RmOperandFollowsTheMode :
    ([0x8B#8, 0x86#8, 0xFC#8, 0x01#8] : List Byte)[2]? = some 0xFC#8 ∧
    ([0x8B#8, 0x86#8, 0xFC#8, 0x01#8] : List Byte)[3]? = some 0x01#8 ∧
    ([0x8B#8, 0x46#8, 0xFC#8] : List Byte)[2]? = some 0xFC#8 ∧ (0b111#3) ≠ 0b110#3 ∧
    rmArgument [0x8B#8, 0x07#8] 16 .word 0b00#2 0b111#3 = .ok (.mem .bx 0#16, false) := by decide

/-- After an explicit register argument, and without one. -/
theorem witness_ExplicitRegisterClaimsTheDestination :
    readField [0xC6#8, 0x00#8] 13 3 = .ok 0b000#3 ∧
    rmArgument [0xC6#8, 0x00#8] 16 (Width.ofBit false) 0b00#2 0b000#3 = .ok (.mem .bxSi 0#16, false) ∧
    (Scratch.mk 13 (some 0b00#2) false true .none .none).regIsDest = true ∧
    (Scratch.mk 13 (some 0b00#2) false false .none .none).regIsDest = false := by decide

theorem witness_DisplacementOnlyAdvances :
    (Scratch.mk 16 none false true .none .none).mode = none ∧
    (Scratch.mk 16 (some 0b00#2) true true .none .none).mode = some 0b00#2 ∧
    (Scratch.mk 16 (some 0b01#2) false true .none .none).mode = some 0b01#2 ∧
    (Scratch.mk 16 (some 0b10#2) false true .none .none).mode = some 0b10#2 ∧
    (Scratch.mk 16 (some 0b11#2) false true .none .none).mode = some 0b11#2 := by decide

/-- The three cases: `W` alone, `S` with or without `W`, neither; the one-byte cases at the end of the stream. -/
theorem witness_ImmediateSizePolicy :
    (Scratch.mk 16 none false false .none .none).cursor = 8 * 2 ∧
    ([0x81#8, 0xC0#8, 0x80#8, 0x00#8] : List Byte)[2]? = some 0x80#8 ∧
    ([0x81#8, 0xC0#8, 0x80#8, 0x00#8] : List Byte)[3]? = some 0x00#8 ∧
    ([0x83#8, 0xC0#8, 0x80#8] : List Byte)[2]? = some 0x80#8 ∧
    (FlagSet.mk none (some false) (some true)).s ≠ some true ∧ (FlagSet.mk none (some true) (some false)).s = some true ∧
    (FlagSet.mk none none (some false)).w ≠ some true := by decide

/-- No `W` flag with and without a destination, an empty destination with a `W` flag, and the four direction cases. -/
theorem witness_DefaultThenDirectionSwap :
    (FlagSet.mk none none none).w = none ∧ (Scratch.mk 16 none false true .none .none).dst = .none ∧
    (Scratch.mk 16 none false true .none (.rel 0xFE#8)).dst ≠ .none ∧
    (FlagSet.mk (some true) none (some false)).w = some false ∧ (FlagSet.mk (some true) none (some false)).d = some true ∧
    (FlagSet.mk (some false) none (some true)).d = some false ∧ (FlagSet.mk none none (some true)).d = none ∧
    (InstructionDefinition.mk .mov 8 3 [.wordSize] [.wordAddress] (some false)).impliedDirection = some false ∧
    (InstructionDefinition.mk .mov 8 3 [.wordSize] [.wordAddress] none).impliedDirection ≠ some false := by decide

/-- Each clause of the step: the Decode Unit's, and the Execution Unit's for each kind of list element. -/
theorem witness_StepRunsTheDecodedInstruction :
    (State.loadStream .decode (encode movCxBx)).phase = .decoding ∧
    (State.loadStream .decode (encode movCxBx)).schema = romSchema ∧
    decode (Memory.bytesFrom (State.loadStream .decode (encode movCxBx)).mem 0) = .hit movCxBx [] ∧
    movState.phase = .executing ∧ movState.program[movState.pos]? = some (.row 0 movCxBx) ∧
    (State.loadList [.line ⟨['j', 'o'], ['1'], none, 0⟩]).phase = .executing ∧
    (State.loadList [.line ⟨['j', 'o'], ['1'], none, 0⟩]).program[0]? = some (.line ⟨['j', 'o'], ['1'], none, 0⟩) ∧
    (State.loadList [.replaced 0 ⟨.jo, .none, .rel 1#8, 2⟩]).phase = .executing ∧
    (State.loadList [.replaced 0 ⟨.jo, .none, .rel 1#8, 2⟩]).program[0]? =
      some (.replaced 0 ⟨.jo, .none, .rel 1#8, 2⟩) := by decide

theorem witness_RomRaisesOnlyTruncated :
    (State.loadStream .decode [0x89#8]).phase = .decoding ∧ (State.loadStream .decode [0x89#8]).schema = romSchema ∧
    ∃ f, step (State.loadStream .decode [0x89#8]) = .fault f := ⟨by decide, by decide, _, rfl⟩

/-- The ROM, and a replaced SCHEMA whose step raises another kind. -/
theorem witness_WellFormedSchemaKeepsItsBytes :
    schemaWf romSchema = true ∧ State.reset.phase = .decoding ∧
    schemaWf [⟨0xF4#8, 9, .single ⟨.mov, 9, 2, [], [.wordData], none⟩⟩] = true := by decide

/-- A skip, and a hit. -/
theorem witness_CursorOnlyAdvances :
    (∃ t, step (State.loadStream .decode [0x90#8]) = .next t ∧ t.phase = .decoding ∧ t.idx = 1) ∧
    (∃ t, step (State.loadStream .decode (encode longest)) = .next t ∧ t.phase = .decoding ∧ t.idx = 6) := by
  exact ⟨⟨_, rfl, by decide, by decide⟩, ⟨_, rfl, by decide, by decide⟩⟩

theorem witness_WalkerFrame :
    ∃ t, step (State.loadStream .decode (encode longest)) = .next t ∧ t.phase = .decoding := ⟨_, rfl, by decide⟩

theorem witness_StreamOfInstructionsDecodes : ∀ i ∈ [movCxBx, longest], i.wf = true := by decide

theorem witness_ResyncAfterUnrecognizedByte :
    movCxBx.wf = true ∧ (Instr.movImmReg (.r8 .cl) (.byte 12#8)).wf = true ∧ ¬ Spec.isRomByte (0x0F#8).toNat ∧
    ¬ Spec.isGroupByte (0x0F#8).toNat := by
  refine ⟨by decide, by decide, ?_, ?_⟩ <;> simp [Spec.isRomByte, Spec.isGroupByte]

theorem witness_EndOfTheWalk :
    State.reset.phase = .decoding ∧ Memory.bytesFrom State.reset.mem State.reset.idx = [] ∧
    State.reset.mode = .direct ∧ (State.loadStream .decode []).mode = .decode := by decide

theorem witness_RunEndsAfterTheLastInstruction :
    (State.loadList []).phase = .executing ∧ (State.loadList []).program.length ≤ (State.loadList []).pos ∧
    (State.mk .zero ⟨false, false⟩ romSchema [] 0 .reset [] [] [] 0 [] .direct .finished).phase = .finished := by decide

theorem witness_DirectRunExecutesInOrder : ∀ i ∈ [movCxBx, longest, .jo 0#8], i.wf = true := by decide

theorem witness_StreamAndSchemaAreNeverWritten : ∃ t, step movState = .next t := ⟨_, rfl⟩

/-- A state with a stream, in which the walker goes on. -/
theorem witness_InvariantIsKept :
    Inv (State.loadStream .direct (encode movCxBx)) ∧
    ∃ t, step (State.loadStream .direct (encode movCxBx)) = .next t := by
  refine ⟨⟨by decide, rfl, by decide, ?_, ?_, rfl, by decide⟩, _, rfl⟩ <;> intro x hx <;> cases hx

theorem witness_WritesStayInTheirHalf : Reg16.bx ≠ (resolve (.r8 .ah)).1 := by decide

/-- One for each of the three mnemonics. -/
theorem witness_FlagsReadTheWholeRegister :
    (∃ t, exec (.addImmAcc (.byte 1#8)) subState = .next t) ∧
    (∃ t, exec (.subImmRm (.reg (.r8 .cl)) (.byte 1#8)) subState = .next t) ∧
    (∃ t, exec (.cmpImmAcc (.word 1#16)) subState = .next t) ∧
    instrMnemonic (.addImmAcc (.byte 1#8)) ∈ [Mnemonic.add, .sub, .cmp] := by
  exact ⟨⟨_, rfl⟩, ⟨_, rfl⟩, ⟨_, rfl⟩, by decide⟩

theorem witness_MovWritesTheSource :
    (RegName.r16 .bx).width = (RegName.r16 .cx).width ∧ (RegName.r8 .ah).width = (RegName.r8 .al).width ∧
    (Imm.byte 7#8).width = (RegName.r8 .al).width ∧ (Imm.word 7#16).width = (RegName.r16 .es).width := by decide

/-- The two clauses about the checks, which the four result statements share. -/
theorem witness_checks_of_the_results :
    destCheck (.imm 5#16) = .error .nonRegisterDestination ∧ destCheck (.reg (.r16 .ax)) = .ok (.r16 .ax) ∧
    srcValue RegFile.zero .word (.reg (.r8 .bl)) = .error .widthMismatch := by decide

theorem witness_AddWritesTheSum :
    (RegName.r16 .ax).width = (RegName.r16 .ax).width ∧ (GrpImm.signed .byte 0x80#8).width = (RegName.r8 .cl).width ∧
    (GrpImm.signed .word 0x80#8).width = (RegName.r16 .bx).width := by decide

theorem witness_SubWritesTheDifference :
    (RegName.r8 .al).width = (RegName.r8 .al).width ∧ (GrpImm.byte 1#8).width = (RegName.r8 .cl).width := by decide

theorem witness_CmpWritesOnlyTheFlags :
    (RegName.r16 .ax).width = (RegName.r16 .bx).width ∧ (GrpImm.word 0x8000#16).width = (RegName.r16 .di).width := by
  decide

theorem witness_MemoryOperandsFault :
    Mnemonic.cmp ∈ Spec.executed ∧ Spec.isMemory (.mem .bp 2#16) = true ∧ Spec.isMemory (.direct 1000#16) = true := by
  decide

theorem witness_MemoryFormsFault :
    (RmOperand.direct 5#16).mode ≠ 0b11#2 ∧ (RmOperand.base .bx).mode ≠ 0b11#2 ∧
    (RmOperand.disp8 .bp 2#8).mode ≠ 0b11#2 ∧ (RmOperand.disp16 .bx 2#16).mode ≠ 0b11#2 := by decide

theorem witness_OperandChecks :
    (RegName.r8 .bl).width ≠ .word ∧ (RegName.r16 .bx).width ≠ .byte ∧ (RegName.r8 .bh).width = .byte ∧
    (RegName.r16 .es).width = .word := by decide

theorem witness_ExecutionFaultsCarryThePosition :
    (at1 (.row 0 (.movMemAcc .word 1000#16)) .zero false false).phase = .executing ∧
    ∃ f, step (at1 (.row 0 (.movMemAcc .word 1000#16)) .zero false false) = .fault f := ⟨by decide, _, rfl⟩

/-- A whole register, and each half. -/
theorem witness_MovFrame :
    instrMnemonic movCxBx = .mov ∧ instrDestination movCxBx = .reg (.r16 .cx) ∧ (∃ t, exec movCxBx movState = .next t) ∧
    instrDestination (.movImmReg (.r8 .ah) (.byte 7#8)) = .reg (.r8 .ah) ∧ (resolve (.r8 .ah)).2 = .high ∧
    instrDestination (.movImmReg (.r8 .al) (.byte 7#8)) = .reg (.r8 .al) ∧ (resolve (.r8 .al)).2 = .low ∧
    (∃ t, exec (.movImmReg (.r8 .ah) (.byte 7#8)) movState = .next t) ∧
    (∃ t, exec (.movImmReg (.r8 .al) (.byte 7#8)) movState = .next t) := by
  exact ⟨by decide, by decide, ⟨_, rfl⟩, by decide, by decide, by decide, by decide, ⟨_, rfl⟩, ⟨_, rfl⟩⟩

theorem witness_AddSubFrame :
    instrMnemonic (.subImmRm (.reg (.r8 .cl)) (.byte 1#8)) ∈ [Mnemonic.add, .sub] ∧
    instrDestination (.subImmRm (.reg (.r8 .cl)) (.byte 1#8)) = .reg (.r8 .cl) ∧ (resolve (.r8 .cl)).2 = .low ∧
    (∃ t, exec (.subImmRm (.reg (.r8 .cl)) (.byte 1#8)) subState = .next t) ∧
    instrDestination (.addRmReg true (.r8 .ah) (.reg (.r8 .al))) = .reg (.r8 .ah) ∧ (resolve (.r8 .ah)).2 = .high ∧
    (∃ t, exec (.addRmReg true (.r8 .ah) (.reg (.r8 .al))) subState = .next t) := by
  exact ⟨by decide, by decide, by decide, ⟨_, rfl⟩, by decide, by decide, ⟨_, rfl⟩⟩

theorem witness_CmpAndBranchFrame :
    instrMnemonic (.cmpImmAcc (.word 1#16)) ∉ [Mnemonic.mov, .add, .sub] ∧
    (∃ t, exec (.cmpImmAcc (.word 1#16)) movState = .next t) ∧ instrMnemonic (.loop 254#8) ≠ .cmp ∧
    (∃ t, exec (.loop 254#8) movState = .next t) := by
  exact ⟨by decide, ⟨_, rfl⟩, by decide, ⟨_, rfl⟩⟩

theorem witness_ControlNeverTransfers : ∃ t, exec (.jne 252#8) movState = .next t := ⟨_, rfl⟩

theorem witness_RenderedTextReadsBack : Operand.mem .bp 252#16 ≠ .none ∧ Operand.rel 0xFF#8 ≠ .none := by decide

/-- A text whose second line fails, and a text that parses whole. -/
theorem witness_ParsingComesFirst :
    (State.loadText "mov ax, 1\nnop\n".toList).phase = .parsing ∧
    (nonEmptyLines "mov ax, 1\nnop\n".toList)[1]? = some "nop".toList ∧ parseLine "nop".toList = none ∧
    parseLine "mov ax, 1".toList ≠ none ∧ ∀ l ∈ nonEmptyLines "mov ax, 1\n\njne 5".toList, parseLine l ≠ none := by decide

/-- The synonym `jz` of `je`. -/
theorem witness_UnknownMnemonicFaults : ∀ m, mnemonicText m ≠ ['j', 'z'] := by
  intro m; cases m <;> decide

theorem witness_BranchTextIsNotInterpreted : Mnemonic.jcxz ∉ Spec.executed ∧ Mnemonic.loop ∉ Spec.executed := by decide

/-- One for each clause. -/
theorem witness_DestinationChecksComeFirst :
    Mnemonic.mov ∈ Spec.executed ∧ interpret "foo".toList = .error .unknownRegister ∧
    interpret "5".toList = .ok (.imm 5#16) ∧ destCheck (.imm 5#16) = .error .nonRegisterDestination ∧
    interpret "70000".toList = .error .unparsableOperand := by decide

/-- Each mode, with the phases that the clauses name. -/
theorem witness_DumpIsTwelveLines :
    (State.mk .zero ⟨false, false⟩ romSchema [] 0 .reset [] [] [] 0 [] .execute .finished).mode = .execute ∧
    (State.mk .zero ⟨false, false⟩ romSchema [] 0 .reset [] [] [] 0 [] .execute .finished).phase = .finished ∧
    (State.mk .zero ⟨false, false⟩ romSchema [] 0 .reset [] [] [] 0 [] .execute .executing).phase = .executing ∧
    (State.mk .zero ⟨false, false⟩ romSchema [] 0 .reset [] [] [] 0 [] .execute .decoding).phase = .decoding ∧
    (State.loadText []).mode = .execute ∧ (State.loadText []).phase = .parsing ∧
    (State.loadStream .decode []).mode = .decode ∧ (State.loadStream .direct []).mode = .direct := by
  decide

/-- A run over a parsed line, and an output list with an element of each kind. -/
theorem witness_PrintedLinesFollowTheirForms :
    (State.loadList [.line ⟨['j', 'o'], ['1'], none, 0⟩]).program = [ParsedLine.mk ['j', 'o'] ['1'] none 0].map .line ∧
    (∀ x ∈ [(Listed.row 0 movCxBx, decodedOf movCxBx),
        (Listed.replaced 2 ⟨.jo, .none, .rel 1#8, 2⟩, DecodedInstruction.mk .jo .none (.rel 1#8) 2)],
      (∃ idx i, x.1 = .row idx i ∧ x.2 = decodedOf i) ∨ ∃ idx, x.1 = .replaced idx x.2) := by
  refine ⟨rfl, ?_⟩
  intro x hx
  simp only [List.mem_cons, List.not_mem_nil, or_false] at hx
  obtain rfl | rfl := hx
  · exact .inl ⟨_, _, rfl, rfl⟩
  · exact .inr ⟨_, rfl⟩

end Sys2Proof.Tests
end

section
/-! The text of a row and its way back (30_encoding.md R150 to R158): numbers, operand texts, the interpretation of an
operand's text, and the parse of an instruction's line. -/

namespace Sys2Proof.Machine

/-! ## Decimal numbers (R150, R157) -/

theorem decValue_digitChar {n : Nat} (h : n < 10) : decValue (digitChar n) = some n := by
  have hall : ∀ k < 10, decValue (digitChar k) = some k := by decide
  exact hall n h

/-- The digits of `n` read back as `n`, whatever text follows them. -/
theorem decNumberFrom_decDigits (fuel n : Nat) (acc : Text) (h : n < 10 ^ fuel) :
    decNumberFrom 0 (decDigits fuel n acc) = decNumberFrom n acc := by
  induction fuel generalizing n acc with
  | zero =>
    obtain rfl : n = 0 := by simpa using h
    rfl
  | succ fuel ih =>
    by_cases hn : n < 10
    · simp [decDigits, hn, decNumberFrom, decValue_digitChar]
    · have hdiv : n / 10 < 10 ^ fuel := by omega
      have hval : 10 * (n / 10) + n % 10 = n := Nat.div_add_mod n 10
      simp [decDigits, hn, ih _ _ hdiv, decNumberFrom, decValue_digitChar (Nat.mod_lt n _), hval]

theorem decDigits_ne_nil (fuel n : Nat) {acc : Text} (h : acc ≠ []) : decDigits fuel n acc ≠ [] := by
  induction fuel generalizing n acc with
  | zero => exact h
  | succ fuel ih =>
    rw [decDigits]
    split
    · exact List.cons_ne_nil _ _
    · exact ih _ (List.cons_ne_nil _ _)

theorem decDigits_digits (fuel n : Nat) {acc : Text} (h : ∀ c ∈ acc, (decValue c).isSome) :
    ∀ c ∈ decDigits fuel n acc, (decValue c).isSome := by
  induction fuel generalizing n acc with
  | zero => exact h
  | succ fuel ih =>
    have hcons : ∀ k < 10, ∀ c ∈ digitChar k :: acc, (decValue c).isSome := fun k hk =>
      List.forall_mem_cons.mpr ⟨by simp [decValue_digitChar hk], h⟩
    rw [decDigits]
    split
    · exact hcons _ ‹_›
    · exact ih _ (hcons _ (Nat.mod_lt n (by decide)))

theorem decText_ne_nil (n : Nat) : decText n ≠ [] := by
  rw [decText, decDigits]
  split
  · exact List.cons_ne_nil _ _
  · exact decDigits_ne_nil _ _ (List.cons_ne_nil _ _)

theorem decText_digits (n : Nat) : ∀ c ∈ decText n, (decValue c).isSome :=
  decDigits_digits 5 n (by simp)

theorem not_mem_decText {c : Char} (h : decValue c = none) (n : Nat) : c ∉ decText n := fun hc => by
  simpa [h] using decText_digits n c hc

/-- A number's text starts with a digit. -/
theorem decText_eq_cons (n : Nat) : ∃ c rest, decText n = c :: rest ∧ (decValue c).isSome := by
  obtain ⟨c, rest, h⟩ := List.exists_cons_of_ne_nil (decText_ne_nil n)
  exact ⟨c, rest, h, decText_digits n c (by simp [h])⟩

theorem decNumber_eq {t : Text} (h : t ≠ []) : decNumber t = fitWord (decNumberFrom 0 t) := by
  cases t with
  | nil => exact absurd rfl h
  | cons c rest => rfl

/-- A text whose first character is no digit is no number. -/
theorem decNumber_cons_of_none {c : Char} (h : decValue c = none) (rest : Text) : decNumber (c :: rest) = none := by
  simp [decNumber, decNumberFrom, h, fitWord]

@[simp] theorem decNumber_decText (v : Word) : decNumber (decText v.toNat) = some v := by
  have hv : v.toNat < 65536 := v.isLt
  have hread : decNumberFrom 0 (decText v.toNat) = some v.toNat :=
    decNumberFrom_decDigits 5 v.toNat [] (by omega)
  have hfit : v.toNat ≤ Config.largestNumber := Nat.le_of_lt_succ hv
  simp [decNumber_eq (decText_ne_nil _), hread, fitWord, hfit]

/-! ## Names -/

@[simp] theorem regOfText_regText (r : RegName) : regOfText (regText r) = some r := by
  cases r with
  | r16 r => cases r <;> rfl
  | r8 r => cases r <;> rfl

@[simp] theorem mnemonicOfText_mnemonicText (m : Mnemonic) : mnemonicOfText (mnemonicText m) = some m := by
  cases m <;> rfl

theorem regText_all_isLower (r : RegName) : (regText r).all isLower = true := by
  cases r with
  | r16 r => cases r <;> rfl
  | r8 r => cases r <;> rfl

/-- A register's name is of lower-case letters alone. -/
theorem regOfText_eq_none {c : Char} {t : Text} (hc : c ∈ t) (h : isLower c = false) : regOfText t = none := by
  refine List.find?_eq_none.mpr fun r _ hr => ?_
  have hlow : isLower c = true := List.all_eq_true.mp (regText_all_isLower r) c (by simpa [eq_of_beq hr] using hc)
  simp [h] at hlow

theorem isLower_of_decValue {c : Char} (h : (decValue c).isSome) : isLower c = false := by
  have hc : c.toNat ≤ 57 := by
    by_contra hgt
    simp [decValue, hgt] at h
  simp only [isLower, decide_eq_false_iff_not]
  omega

/-! ## Interpretation of an operand's text (R157, R158) -/

@[simp] theorem interpret_regText (r : RegName) : interpret (regText r) = .ok (.reg r) := by
  simp [interpret]

@[simp] theorem interpret_decText (v : Word) : interpret (decText v.toNat) = .ok (.imm v) := by
  obtain ⟨c, rest, hcons, hdigit⟩ := decText_eq_cons v.toNat
  have hreg : regOfText (decText v.toNat) = none :=
    regOfText_eq_none (c := c) (by simp [hcons]) (isLower_of_decValue hdigit)
  simp [interpret, hreg]

theorem interpret_brackets (u : Text) : interpret ('[' :: (u ++ [']'])) = bracketOperand u := by
  have hreg : regOfText ('[' :: (u ++ [']'])) = none := regOfText_eq_none List.mem_cons_self (by decide)
  have hdec : decNumber ('[' :: (u ++ [']'])) = none := decNumber_cons_of_none (by decide) _
  have hhex : hexNumber ('[' :: (u ++ [']'])) = none := by simp [hexNumber]
  simp [interpret, hreg, hdec, hhex, inBrackets]

@[simp] theorem bracketOperand_decText (a : Word) : bracketOperand (decText a.toNat) = .ok (.direct a) := by
  simp [bracketOperand]

@[simp] theorem bracketOperand_baseText (b : Base) : bracketOperand (baseText b) = .ok (.mem b 0#16) := by
  cases b <;> rfl

theorem decNumber_baseText_append (b : Base) (t : Text) : decNumber (baseText b ++ t) = none := by
  cases b <;> exact decNumber_cons_of_none (by decide) _

/-- The bases are tried in the order of R107, and `b` is the first that fits a text of `b`, a plus and a number: a base
of two registers is tried before its first register alone, and it does not fit where a digit follows the plus. -/
theorem findSome?_memoryOfBase_displacement (b : Base) (d : Word) :
    allBases.findSome? (memoryOfBase (baseText b ++ plusText ++ decText d.toNat)) = some (.mem b d) := by
  have hnum : decNumber (decText d.toNat) = some d := decNumber_decText d
  obtain ⟨c, rest, hcons, hdigit⟩ := decText_eq_cons d.toNat
  have hs : 's' ≠ c := by rintro rfl; exact absurd hdigit (by decide)
  have hd : 'd' ≠ c := by rintro rfl; exact absurd hdigit (by decide)
  rw [hcons] at hnum ⊢
  cases b <;> simp [allBases, memoryOfBase, baseText, plusText, afterPrefix, hs, hs.symm, hd, hd.symm, hnum]

theorem bracketOperand_displacement (b : Base) (d : Word) :
    bracketOperand (baseText b ++ plusText ++ decText d.toNat) = .ok (.mem b d) := by
  have hdec : decNumber (baseText b ++ plusText ++ decText d.toNat) = none := by
    rw [List.append_assoc]
    exact decNumber_baseText_append b _
  simp only [bracketOperand, hdec, findSome?_memoryOfBase_displacement]

/-- Every operand's text reads back as that operand, a branch's byte as its number (R158). -/
theorem interpret_renderOperand {op : Operand} (h : op ≠ .none) :
    interpret (renderOperand op) = .ok (Spec.reread op) := by
  cases op with
  | none => exact absurd rfl h
  | reg name => exact interpret_regText name
  | imm v => exact interpret_decText v
  | rel b =>
    have hb : (b.setWidth 16).toNat = b.toNat := BitVec.toNat_setWidth_of_le (by decide)
    rw [renderOperand, ← hb]
    exact interpret_decText _
  | mem base d =>
    by_cases hd : d = 0#16
    · simp [renderOperand, hd, interpret_brackets, Spec.reread]
    · rw [renderOperand, if_neg hd, interpret_brackets, bracketOperand_displacement]
      rfl
  | direct a =>
    rw [renderOperand, interpret_brackets, bracketOperand_decText]
    rfl

/-! ## The parse of an instruction's line (R155, R156) -/

theorem splitAtFirst_append {c : Char} {a : Text} (h : c ∉ a) (b : Text) :
    splitAtFirst c (a ++ c :: b) = some (a, b) := by
  induction a with
  | nil => simp [splitAtFirst]
  | cons x a ih =>
    obtain ⟨hx, ha⟩ := not_or.mp (List.mem_cons.not.mp h)
    simp [splitAtFirst, Ne.symm hx, ih ha]

theorem splitAtFirst_eq_none {c : Char} {t : Text} (h : c ∉ t) : splitAtFirst c t = none := by
  induction t with
  | nil => rfl
  | cons x t ih =>
    obtain ⟨hx, ht⟩ := not_or.mp (List.mem_cons.not.mp h)
    simp [splitAtFirst, Ne.symm hx, ih ht]

theorem trimLeft_eq_self {t : Text} (h : t.head? ≠ some ' ') : trimLeft t = t := by
  cases t with
  | nil => rfl
  | cons c t => simpa [trimLeft] using h

theorem trim_eq_self {t : Text} (hhead : t.head? ≠ some ' ') (hlast : t.getLast? ≠ some ' ') : trim t = t := by
  have hrev : trimLeft t.reverse = t.reverse := trimLeft_eq_self (by rwa [List.head?_reverse])
  simp [trim, trimLeft_eq_self hhead, hrev]

/-- What the parse of a line needs of an operand's text: it is not empty, it has no comma, and trimming keeps it. -/
structure OperandText (t : Text) : Prop where
  nonempty : t ≠ []
  noComma : ',' ∉ t
  headNotSpace : t.head? ≠ some ' '
  lastNotSpace : t.getLast? ≠ some ' '

theorem OperandText.trim_eq {t : Text} (h : OperandText t) : trim t = t := trim_eq_self h.headNotSpace h.lastNotSpace

theorem OperandText.of_no_space {t : Text} (hne : t ≠ []) (hcomma : ',' ∉ t) (hspace : ' ' ∉ t) : OperandText t :=
  ⟨hne, hcomma, fun h => hspace (List.mem_of_mem_head? h), fun h => hspace (List.mem_of_getLast? h)⟩

theorem OperandText.brackets {u : Text} (h : ',' ∉ u) : OperandText ('[' :: (u ++ [']'])) where
  nonempty := List.cons_ne_nil _ _
  noComma := by simp [h]
  headNotSpace := by simp
  lastNotSpace := by
    rw [← List.cons_append, List.getLast?_concat]
    decide

theorem operandText_regText (r : RegName) : OperandText (regText r) := by
  cases r with
  | r16 r => cases r <;> exact .of_no_space (by decide) (by decide) (by decide)
  | r8 r => cases r <;> exact .of_no_space (by decide) (by decide) (by decide)

theorem operandText_decText (n : Nat) : OperandText (decText n) :=
  .of_no_space (decText_ne_nil n) (not_mem_decText rfl n) (not_mem_decText rfl n)

theorem comma_not_mem_baseText (b : Base) : ',' ∉ baseText b := by
  cases b <;> decide

theorem operandText_renderOperand {op : Operand} (h : op ≠ .none) : OperandText (renderOperand op) := by
  cases op with
  | none => exact absurd rfl h
  | reg name => exact operandText_regText name
  | imm v => exact operandText_decText _
  | rel b => exact operandText_decText _
  | mem base d =>
    rw [renderOperand]
    split
    · exact .brackets (comma_not_mem_baseText base)
    · refine .brackets ?_
      have hdec : ',' ∉ decText d.toNat := not_mem_decText rfl _
      simp [comma_not_mem_baseText, plusText, hdec]
  | direct a => exact .brackets (not_mem_decText rfl _)

theorem space_not_mem_mnemonicText (m : Mnemonic) : ' ' ∉ mnemonicText m := by
  cases m <;> decide

theorem parseLine_of_split {m : Text} (h : ' ' ∉ m) (rest : Text) :
    parseLine (m ++ ' ' :: rest) = parseOperands m (trim rest) := by
  simp only [parseLine, splitAtFirst_append h]

theorem parseOperands_one (m : Text) {d : Text} (hd : OperandText d) :
    parseOperands m (trim d) = some ⟨m, d, none, 0⟩ := by
  rw [hd.trim_eq]
  simp only [parseOperands, splitAtFirst_eq_none hd.noComma, if_neg hd.nonempty]

theorem parseOperands_two (m : Text) {d src : Text} (hd : OperandText d) (hs : OperandText src) :
    parseOperands m (trim (d ++ [',', ' '] ++ src)) = some ⟨m, d, some src, 0⟩ := by
  have htrim : trim (d ++ [',', ' '] ++ src) = d ++ ',' :: ' ' :: src := by
    rw [List.append_assoc]
    refine trim_eq_self ?_ ?_
    · rw [List.head?_append_of_ne_nil d hd.nonempty]
      exact hd.headNotSpace
    · rw [← List.append_assoc, List.getLast?_append_of_ne_nil _ hs.nonempty]
      exact hs.lastNotSpace
  have hsrc : trim (' ' :: src) = src := hs.trim_eq
  simp only [htrim, parseOperands, splitAtFirst_append hd.noComma, hd.trim_eq, hsrc, hd.nonempty, hs.nonempty,
    or_self, if_false]

/-- The parsed line of a decoded instruction (R158): its mnemonic and its operand texts, no source text if
there is no source. -/
def renderedLine (d : DecodedInstruction) : ParsedLine :=
  ⟨mnemonicText d.mnemonic, renderOperand d.destination,
    if d.source = .none then none else some (renderOperand d.source), 0⟩

/-- A line's text parses to the texts it was made of, whatever decoded instruction it renders. -/
theorem parseLine_renderInstruction {d : DecodedInstruction} (hdst : d.destination ≠ .none) :
    parseLine (renderInstruction d) = some (renderedLine d) := by
  have hd := operandText_renderOperand hdst
  by_cases hsrc : d.source = .none
  · rw [renderInstruction, if_pos hsrc, parseLine_of_split (space_not_mem_mnemonicText _), parseOperands_one _ hd,
      renderedLine, if_pos hsrc]
  · rw [renderInstruction, if_neg hsrc, parseLine_of_split (space_not_mem_mnemonicText _),
      parseOperands_two _ hd (operandText_renderOperand hsrc), renderedLine, if_neg hsrc]

/-! ## The step on a line and the step on a row (40_mov.md R200, R201) -/

/-- The checks see an operand only through what it stands for. -/
theorem operandCheck_congr {dst dst' src src' : EuOperand} (hd : operandOf dst = operandOf dst')
    (hs : operandOf src = operandOf src') (f : RegFile) : operandCheck f dst src = operandCheck f dst' src' := by
  simp only [operandCheck, hd, hs]

/-- So does the step, whatever its mnemonic is. -/
theorem execMnemonic_congr {dst dst' src src' : EuOperand} (hd : operandOf dst = operandOf dst')
    (hs : operandOf src = operandOf src') (m : Mnemonic) (s : State) :
    execMnemonic m dst src s = execMnemonic m dst' src' s := by
  have hcheck := operandCheck_congr hd hs s.regs
  cases m with
  | mov => simp only [execMnemonic, movOp, hcheck]
  | add => simp only [execMnemonic, addSubOp, hcheck]
  | sub => simp only [execMnemonic, addSubOp, hcheck]
  | cmp => simp only [execMnemonic, cmpOp, hcheck]
  | _ => rfl

/-- The branches interpret no operand (42_branch.md R260). -/
theorem execMnemonic_of_not_executed {m : Mnemonic} (h : m ∉ Spec.executed) (dst src : EuOperand) (s : State) :
    execMnemonic m dst src s = branchOp s := by
  cases m with
  | mov | add | sub | cmp => exact absurd (by decide) h
  | _ => rfl

/-- A row's meaning is the step on the decoded instruction that it stands for. -/
theorem exec_eq_execDecoded (i : Instr) (s : State) : exec i s = execDecoded (decodedOf i) s := by
  cases i <;> rfl

theorem operandOf_lineSource_renderedLine (d : DecodedInstruction) :
    operandOf (lineSource (renderedLine d)) = .ok (Spec.reread d.source) := by
  by_cases h : d.source = .none
  · simp [renderedLine, lineSource, h, operandOf, Spec.reread]
  · simp [renderedLine, lineSource, h, operandOf, interpret_renderOperand h]

/-- The step on a line's text is the step on the operands that the text stands for. -/
theorem execLine_renderedLine {d : DecodedInstruction} (hdst : d.destination ≠ .none) (s : State) :
    execLine (renderedLine d) s =
      execMnemonic d.mnemonic (.structured (Spec.reread d.destination)) (.structured (Spec.reread d.source)) s := by
  have hmn : mnemonicOfText (renderedLine d).mnemonic = some d.mnemonic := mnemonicOfText_mnemonicText _
  simp only [execLine, hmn]
  have hd : operandOf (.text (renderedLine d).destination) = .ok (Spec.reread d.destination) :=
    interpret_renderOperand hdst
  exact execMnemonic_congr hd (operandOf_lineSource_renderedLine d) _ _

/-! ## The operands of a row -/

theorem rmOperand_ne_none (rm : RmOperand) : rmOperand rm ≠ .none := by
  cases rm <;> exact Operand.noConfusion

theorem rmRegDestination_ne_none (d : Bool) (reg : RegName) (rm : RmOperand) :
    rmRegDestination d reg rm ≠ .none := by
  cases d
  · exact rmOperand_ne_none rm
  · exact Operand.noConfusion

theorem reread_rmOperand (rm : RmOperand) : Spec.reread (rmOperand rm) = rmOperand rm := by
  cases rm <;> rfl

theorem reread_rmRegDestination (d : Bool) (reg : RegName) (rm : RmOperand) :
    Spec.reread (rmRegDestination d reg rm) = rmRegDestination d reg rm := by
  cases d
  · exact reread_rmOperand rm
  · rfl

theorem reread_rmRegSource (d : Bool) (reg : RegName) (rm : RmOperand) :
    Spec.reread (rmRegSource d reg rm) = rmRegSource d reg rm := by
  cases d
  · rfl
  · exact reread_rmOperand rm

theorem reread_immOperand (data : Imm) : Spec.reread (immOperand data) = immOperand data := by
  cases data <;> rfl

theorem reread_grpOperand (data : GrpImm) : Spec.reread (grpOperand data) = grpOperand data := by
  cases data <;> rfl

/-- Every row has a destination, the raw byte of a branch counted. -/
theorem instrDestination_ne_none (i : Instr) : instrDestination i ≠ .none := by
  cases i with
  | movRmReg d reg rm | addRmReg d reg rm | subRmReg d reg rm | cmpRmReg d reg rm =>
    exact rmRegDestination_ne_none d reg rm
  | movImmRm _ rm _ | addImmRm rm _ | subImmRm rm _ | cmpImmRm rm _ => exact rmOperand_ne_none rm
  | _ => exact Operand.noConfusion

/-- Only a branch's byte reads back as another operand. -/
theorem reread_instrDestination {i : Instr} (h : instrMnemonic i ∈ Spec.executed) :
    Spec.reread (instrDestination i) = instrDestination i := by
  cases i with
  | movRmReg d reg rm | addRmReg d reg rm | subRmReg d reg rm | cmpRmReg d reg rm =>
    exact reread_rmRegDestination d reg rm
  | movImmRm _ rm _ | addImmRm rm _ | subImmRm rm _ | cmpImmRm rm _ => exact reread_rmOperand rm
  | movImmReg | movMemAcc | movAccMem | addImmAcc | subImmAcc | cmpImmAcc => rfl
  | _ => exact absurd h (by simp [instrMnemonic, Spec.executed])

theorem reread_instrSource (i : Instr) : Spec.reread (instrSource i) = instrSource i := by
  cases i with
  | movRmReg d reg rm | addRmReg d reg rm | subRmReg d reg rm | cmpRmReg d reg rm =>
    exact reread_rmRegSource d reg rm
  | movImmRm _ _ data | movImmReg _ data | addImmAcc data | subImmAcc data | cmpImmAcc data =>
    exact reread_immOperand data
  | addImmRm _ data | subImmRm _ data | cmpImmRm _ data => exact reread_grpOperand data
  | _ => rfl

/-- The step on a row's line is the row's meaning: operands that the step reads also read back as they are, and a branch
reads none. -/
theorem execLine_renderedLine_decodedOf (i : Instr) (s : State) :
    execLine (renderedLine (decodedOf i)) s = exec i s := by
  rw [exec_eq_execDecoded, execDecoded, execLine_renderedLine (instrDestination_ne_none i)]
  by_cases h : (decodedOf i).mnemonic ∈ Spec.executed
  · simp only [decodedOf, reread_instrDestination h, reread_instrSource]
  · rw [execMnemonic_of_not_executed h, execMnemonic_of_not_executed h]

/-- Settles O53: the line of a row parses to its operand texts, these read back as the row's operands (a branch's byte
apart, which no step reads), and the step sees an operand only through what it stands for. -/
theorem textPathAgreesWithDirectPath : Obligations.TextPathAgreesWithDirectPath := by
  intro i s
  exact ⟨renderedLine (decodedOf i), parseLine_renderInstruction (instrDestination_ne_none i),
    execLine_renderedLine_decodedOf i s⟩

end Sys2Proof.Machine
end

section
/-! The Decode Unit over a well-formed SCHEMA (10_state.md R43): W1 keeps the flags in the first byte, and W6 keeps the
cursor on a byte boundary wherever whole bytes are read. -/

namespace Sys2Proof.Machine

/-- The decode faults that a well-formed SCHEMA leaves possible: neither `FlagsOverflow` nor `Misaligned`. -/
def DecodeFault.KeepsLayout (f : DecodeFault) : Prop := f ≠ .schema .flagsOverflow ∧ f ≠ .schema .misaligned

theorem DecodeFault.keepsLayout_truncated : DecodeFault.KeepsLayout .truncated := by simp [KeepsLayout]

theorem DecodeFault.keepsLayout_wordSizeUnknown : DecodeFault.KeepsLayout (.schema .wordSizeUnknown) := by
  simp [KeepsLayout]

theorem DecodeFault.keepsLayout_noMode : DecodeFault.KeepsLayout (.schema .noMode) := by simp [KeepsLayout]

/-! ## The Opcode Matcher -/

/-- The candidates are tried in order, each by its test (30_encoding.md R113, R117). -/
theorem matchCandidates_cons (b0 : Byte) (b1 : Option Byte) (c : SecondaryOperand × InstructionDefinition)
    (cs : List (SecondaryOperand × InstructionDefinition)) :
    matchCandidates b0 b1 (c :: cs) =
      match Spec.candidateTest b0 b1 c.1 with
      | none => .error .truncated
      | some true => .ok (some c.2)
      | some false => matchCandidates b0 b1 cs := by
  by_cases hpos : c.1.bitOffset ≤ 6
  · by_cases heq : b0.extractLsb' 0 3 = c.1.expected <;>
      simp [matchCandidates, Spec.candidateTest, lowField, hpos, heq]
  · cases b1 with
    | none => simp [matchCandidates, Spec.candidateTest, hpos]
    | some b =>
      by_cases heq : b.extractLsb' 3 3 = c.1.expected <;>
        simp [matchCandidates, Spec.candidateTest, regField, hpos, heq]

theorem matchCandidates_error {b0 : Byte} {b1 : Option Byte} {cs : List (SecondaryOperand × InstructionDefinition)}
    {f : DecodeFault} (h : matchCandidates b0 b1 cs = .error f) : f = .truncated := by
  induction cs with
  | nil => cases h
  | cons c cs ih =>
    rw [matchCandidates_cons] at h
    split at h
    · cases h; rfl
    · cases h
    · exact ih h

theorem matchCandidates_mem {b0 : Byte} {b1 : Option Byte} {cs : List (SecondaryOperand × InstructionDefinition)}
    {d : InstructionDefinition} (h : matchCandidates b0 b1 cs = .ok (some d)) : d ∈ cs.map (·.2) := by
  induction cs with
  | nil => cases h
  | cons c cs ih =>
    rw [matchCandidates_cons] at h
    split at h
    · cases h
    · cases h; exact List.mem_cons_self
    · exact List.mem_cons_of_mem _ (ih h)

/-- The matcher's only fault is a missing second byte (30_encoding.md R117). -/
theorem opcodeMatch_error {schema : Schema} {b0 : Byte} {b1 : Option Byte} {f : DecodeFault}
    (h : opcodeMatch schema b0 b1 = .error f) : f = .truncated := by
  induction schema with
  | nil => cases h
  | cons e rest ih =>
    rw [opcodeMatch] at h
    split at h
    · split at h
      · cases h
      · exact matchCandidates_error h
    · exact ih h

/-- What the matcher hits is a definition of an entry of the SCHEMA. -/
theorem opcodeMatch_mem {schema : Schema} {b0 : Byte} {b1 : Option Byte} {d : InstructionDefinition}
    (h : opcodeMatch schema b0 b1 = .ok (some d)) : ∃ e ∈ schema, d ∈ entryDefinitions e := by
  induction schema with
  | nil => cases h
  | cons e rest ih =>
    rw [opcodeMatch] at h
    split at h
    · refine ⟨e, List.mem_cons_self, ?_⟩
      split at h
      · rename_i hl
        cases h
        simp [entryDefinitions, hl]
      · rename_i hl
        simpa [entryDefinitions, hl] using matchCandidates_mem h
    · obtain ⟨e', he', hd⟩ := ih h
      exact ⟨e', List.mem_cons_of_mem _ he', hd⟩

theorem definitionWf_of_schemaWf {schema : Schema} (h : schemaWf schema = true) {e : OpcodeEntry} (he : e ∈ schema)
    {d : InstructionDefinition} (hd : d ∈ entryDefinitions e) : definitionWf d = true := by
  simp only [schemaWf, Bool.and_eq_true, List.all_eq_true] at h
  exact (h.1 e he).2 d hd

/-! ## Reads of the window -/

theorem readField_error {win : List Byte} {c n : Nat} {f : DecodeFault} (h : readField win c n = .error f) :
    f.KeepsLayout := by
  rw [readField] at h
  split at h
  · cases h
  · cases h; exact DecodeFault.keepsLayout_truncated

theorem readByte_error {win : List Byte} {c : Nat} {f : DecodeFault} (hc : c % 8 = 0)
    (h : readByte win c = .error f) : f.KeepsLayout := by
  rw [readByte, if_pos hc] at h
  split at h
  · cases h
  · cases h; exact DecodeFault.keepsLayout_truncated

theorem readWord_error {win : List Byte} {c : Nat} {f : DecodeFault} (hc : c % 8 = 0)
    (h : readWord win c = .error f) : f.KeepsLayout := by
  rw [readWord, if_pos hc] at h
  split at h
  · cases h
  · cases h; exact DecodeFault.keepsLayout_truncated

theorem rmArgument_error {win : List Byte} {c : Nat} {w : Width} {mode : BitVec 2} {r : BitVec 3} {f : DecodeFault}
    (hc : c % 8 = 0) (h : rmArgument win c w mode r = .error f) : f.KeepsLayout := by
  rw [rmArgument] at h
  split at h
  · split at h
    · split at h
      · cases h
      · cases h; exact readWord_error hc ‹_›
    · cases h
  · split at h
    · cases h
    · cases h; exact readByte_error hc ‹_›
  · split at h
    · cases h
    · cases h; exact readWord_error hc ‹_›
  · cases h

theorem dataArgument_error {fl : FlagSet} {win : List Byte} {c : Nat} {f : DecodeFault} (hc : c % 8 = 0)
    (h : dataArgument fl win c = .error f) : f.KeepsLayout := by
  rw [dataArgument] at h
  split at h
  · split at h
    · cases h
    · cases h; exact readWord_error hc ‹_›
  · split at h
    · cases h
    · cases h; exact readByte_error hc ‹_›

/-- Data take whole bytes. -/
theorem dataArgument_bits {fl : FlagSet} {win : List Byte} {c : Nat} {v : Word} {n : Nat}
    (h : dataArgument fl win c = .ok (v, n)) : n % 8 = 0 := by
  rw [dataArgument] at h
  split at h
  · split at h
    · cases h; rfl
    · cases h
  · split at h
    · cases h; rfl
    · cases h

/-- So does a displacement. -/
theorem displacementBits_mod (mode : BitVec 2) (quirky : Bool) : displacementBits mode quirky % 8 = 0 := by
  rw [displacementBits]
  split
  · split <;> rfl
  all_goals rfl

@[simp] theorem Scratch.place_cursor (sc : Scratch) (op : Operand) : (sc.place op).cursor = sc.cursor := by
  rw [Scratch.place]
  split <;> rfl

/-! ## The Field Decoder -/

/-- W6 at one argument: where it reads whole bytes, the cursor after its own bits is on a byte boundary. -/
def AlignedAt (c : Nat) (a : Argument) : Prop := readsBytes a = true → (c + argumentBits a) % 8 = 0

theorem decodeArgument_error {fl : FlagSet} {win : List Byte} {a : Argument} {sc : Scratch} {f : DecodeFault}
    (ha : AlignedAt sc.cursor a) (h : decodeArgument fl win a sc = .error f) : f.KeepsLayout := by
  cases a with
  | mode =>
    rw [decodeArgument] at h
    split at h
    · cases h
    · cases h; exact readField_error ‹_›
  | registerImplicit =>
    rw [decodeArgument] at h
    split at h
    · cases h; exact DecodeFault.keepsLayout_wordSizeUnknown
    · split at h
      · cases h
      · cases h; exact readField_error ‹_›
  | registerOrMemory =>
    rw [decodeArgument] at h
    split at h
    · cases h; exact DecodeFault.keepsLayout_wordSizeUnknown
    · cases h; exact DecodeFault.keepsLayout_noMode
    · split at h
      · cases h; exact readField_error ‹_›
      · split at h
        · cases h; exact rmArgument_error (ha rfl) ‹_›
        · cases h
  | wordDisplacement =>
    rw [decodeArgument] at h
    split at h
    · cases h; exact DecodeFault.keepsLayout_noMode
    · cases h
  | wordData =>
    rw [decodeArgument] at h
    split at h
    · cases h
    · cases h; exact dataArgument_error (ha rfl) ‹_›
  | wordAddress =>
    rw [decodeArgument] at h
    split at h
    · cases h
    · cases h; exact readWord_error (ha rfl) ‹_›
  | byte =>
    rw [decodeArgument] at h
    split at h
    · cases h
    · cases h; exact readByte_error (ha rfl) ‹_›
  | registerExplicit | fixedBit | segmentRegister => cases h

/-- An argument moves the cursor by its own bits and whole bytes. -/
theorem decodeArgument_cursor {fl : FlagSet} {win : List Byte} {a : Argument} {sc t : Scratch}
    (h : decodeArgument fl win a sc = .ok t) : t.cursor % 8 = (sc.cursor + argumentBits a) % 8 := by
  cases a with
  | mode =>
    rw [decodeArgument] at h
    split at h <;> cases h
    rfl
  | registerImplicit =>
    rw [decodeArgument] at h
    split at h
    · cases h
    · split at h <;> cases h
      rfl
  | registerOrMemory =>
    rw [decodeArgument] at h
    split at h
    · cases h
    · cases h
    · split at h
      · cases h
      · split at h <;> cases h
        rw [Scratch.place_cursor]
        rfl
  | wordDisplacement =>
    rw [decodeArgument] at h
    split at h <;> cases h
    have := displacementBits_mod ‹_› sc.quirky
    simp only [argumentBits]
    omega
  | wordData =>
    rw [decodeArgument] at h
    split at h <;> cases h
    have := dataArgument_bits ‹_›
    simp only [argumentBits]
    omega
  | wordAddress =>
    rw [decodeArgument] at h
    split at h <;> cases h
    simp only [argumentBits]
    omega
  | byte =>
    rw [decodeArgument] at h
    split at h <;> cases h
    simp only [argumentBits]
    omega
  | registerExplicit | fixedBit | segmentRegister => cases h; rfl

/-- W6 for the whole list: `c` is the cursor as the check counts it, which agrees with the real one modulo 8. -/
theorem decodeArguments_aligned {fl : FlagSet} {win : List Byte} {args : List Argument} {c : Nat} {sc : Scratch}
    (hc : sc.cursor % 8 = c % 8) (hal : fieldsAligned c args = true) :
    (∀ f, decodeArguments fl win args sc = .error f → f.KeepsLayout) ∧
    (∀ t, decodeArguments fl win args sc = .ok t → t.cursor % 8 = 0) := by
  induction args generalizing c sc with
  | nil =>
    have hzero : c % 8 = 0 := by simpa [fieldsAligned] using hal
    refine ⟨fun f h => ?_, fun t h => ?_⟩ <;> cases h
    omega
  | cons a rest ih =>
    simp only [fieldsAligned, Bool.and_eq_true, Bool.or_eq_true, Bool.not_eq_true', beq_iff_eq] at hal
    obtain ⟨hhere, hrest⟩ := hal
    have ha : AlignedAt sc.cursor a := fun hr => by
      have hb := hhere.resolve_left (by simp [hr])
      omega
    cases harg : decodeArgument fl win a sc with
    | error e =>
      simp only [decodeArguments, harg]
      refine ⟨fun f h => ?_, fun t h => ?_⟩ <;> cases h
      exact decodeArgument_error ha harg
    | ok sc' =>
      have hcur := decodeArgument_cursor harg
      simp only [decodeArguments, harg]
      exact ih (by omega) hrest

theorem fieldDecode_error {d : InstructionDefinition} {fl : FlagSet} {win : List Byte} {f : DecodeFault}
    (hal : fieldsAligned ((d.offset - 1) + d.flags.length) d.args = true) (h : fieldDecode d fl win = .error f) :
    f.KeepsLayout := by
  obtain ⟨herr, hok⟩ := decodeArguments_aligned (fl := fl) (win := win) (sc := Scratch.start d) rfl hal
  rw [fieldDecode] at h
  split at h
  · cases h; exact herr _ ‹_›
  · rw [if_pos (hok _ ‹_›)] at h
    cases h

theorem assemble_error {d : InstructionDefinition} {fl : FlagSet} {sc : Scratch} {f : DecodeFault}
    (h : assemble d fl sc = .error f) : f = .schema .wordSizeUnknown := by
  rw [assemble, defaultDestination] at h
  split at h
  · rename_i hdst
    cases h
    split at hdst
    · split at hdst <;> cases hdst
      rfl
    · cases hdst
  · split at h <;> cases h

/-! ## One iteration -/

theorem decodeHit_error {d : InstructionDefinition} {b0 : Byte} {bs : List Byte} {f : DecodeFault}
    (hwf : definitionWf d = true) (h : decodeHit d b0 bs = .error f) : f.KeepsLayout := by
  simp only [definitionWf, Bool.and_eq_true] at hwf
  obtain ⟨⟨⟨hfit, -⟩, -⟩, hal⟩ := hwf
  rw [decodeHit, if_pos hfit] at h
  split at h
  · cases h; exact fieldDecode_error hal ‹_›
  · split at h <;> cases h
    rw [assemble_error (f := f) ‹_›]
    exact DecodeFault.keepsLayout_wordSizeUnknown

theorem iterate_error {schema : Schema} {bs : List Byte} {f : DecodeFault} (hwf : schemaWf schema = true)
    (h : iterate schema bs = .error f) : f.KeepsLayout := by
  cases bs with
  | nil => cases h
  | cons b0 rest =>
    rw [iterate] at h
    split at h
    · cases h
      rw [opcodeMatch_error (f := f) ‹_›]
      exact DecodeFault.keepsLayout_truncated
    · cases h
    · obtain ⟨e, he, hd⟩ := opcodeMatch_mem ‹_›
      exact decodeHit_error (definitionWf_of_schemaWf hwf he hd) h

/-- A fault of the walker is a fault of its iteration. -/
theorem iterate_of_walkStep_fault {s : State} {kind : SchemaKind} {n : Nat}
    (h : walkStep s = .fault (.schemaInconsistency kind n)) :
    iterate s.schema (Memory.bytesFrom s.mem s.idx) = .error (.schema kind) := by
  obtain ⟨f, hit, hw⟩ | ⟨-, hw⟩ | ⟨-, hw⟩ | ⟨d, sc, -, hw⟩ := walkStep_cases s <;> rw [hw] at h
  · cases f <;> cases h
    exact hit
  all_goals cases h

/-- Settles O21, by induction over the argument list: W1 rules out `FlagsOverflow`, and by W6 the cursor is on a byte
boundary wherever whole bytes are read and at the end. -/
theorem wellFormedSchemaKeepsItsBytes : Obligations.WellFormedSchemaKeepsItsBytes := by
  intro s n hwf hphase
  rw [step_decoding hphase]
  exact ⟨fun h => (iterate_error hwf (iterate_of_walkStep_fault h)).1 rfl,
    fun h => (iterate_error hwf (iterate_of_walkStep_fault h)).2 rfl⟩

end Sys2Proof.Machine
end

section
/-! The decoder reads back what the encoder writes (30_encoding.md R91, R92, R100, R105 to R107). -/

namespace Sys2Proof

open Machine

/-! ## Fields and words -/

@[simp] theorem modeField_modeByte (mode : BitVec 2) (reg rm : BitVec 3) : modeField (modeByte mode reg rm) = mode := by
  revert mode reg rm; decide

@[simp] theorem regField_modeByte (mode : BitVec 2) (reg rm : BitVec 3) : regField (modeByte mode reg rm) = reg := by
  revert mode reg rm; decide

@[simp] theorem lowField_modeByte (mode : BitVec 2) (reg rm : BitVec 3) : lowField (modeByte mode reg rm) = rm := by
  revert mode reg rm; decide

@[simp] theorem opcode6_directionBit (op : BitVec 6) (d w : Bool) : (opcode6 op d w)[1] = d := by
  revert op d w; decide

@[simp] theorem opcode6_widthBit (op : BitVec 6) (d w : Bool) : (opcode6 op d w)[0] = w := by
  revert op d w; decide

@[simp] theorem opcode7_widthBit (op : BitVec 7) (w : Bool) : (opcode7 op w)[0] = w := by
  revert op w; decide

@[simp] theorem Width.ofBit_bit (w : Width) : Width.ofBit w.bit = w := by
  cases w <;> rfl

@[simp] theorem le16_lowByte_highByte (v : Word) : le16 (lowByte v) (highByte v) = v := highByte_append_lowByte v

/-! ## Operands -/

/-- A register that a field can name is read back by its width and its field. -/
theorem regName_field {r : RegName} (h : r.encodable = true) : regName r.width r.field = r := by
  cases r with
  | r16 r =>
    cases r with
    | cs | ss | ds | es => exact absurd h (by decide)
    | _ => rfl
  | r8 r => cases r <;> rfl

@[simp] theorem baseOf_field (b : Base) : baseOf b.field = b := by
  cases b <;> rfl

/-- Mode 00 with r/m 110 is the direct address, so only the base `bp` cannot do without a displacement (R107, R125). -/
theorem Base.field_ne_direct {b : Base} (h : b ≠ .bp) : b.field ≠ 0b110#3 := by
  cases b with
  | bp => exact absurd rfl h
  | _ => decide

theorem decodeRm_bytes {w : Width} {rm : RmOperand} (h : rm.wf w = true) (rest : List Byte) :
    decodeRm w rm.mode rm.field (rm.bytes ++ rest) = some (rm, rest) := by
  cases rm with
  | direct a => simp [decodeRm, RmOperand.mode, RmOperand.field, RmOperand.bytes, leBytes]
  | base b =>
    have hb : b.field ≠ 0b110#3 := Base.field_ne_direct (by simpa [RmOperand.wf] using h)
    simp [decodeRm, RmOperand.mode, RmOperand.field, RmOperand.bytes, hb]
  | disp8 b d => simp [decodeRm, RmOperand.mode, RmOperand.field, RmOperand.bytes]
  | disp16 b d => simp [decodeRm, RmOperand.mode, RmOperand.field, RmOperand.bytes, leBytes]
  | reg r =>
    simp only [RmOperand.wf, Bool.and_eq_true, beq_iff_eq] at h
    obtain ⟨henc, rfl⟩ := h
    simp [decodeRm, RmOperand.mode, RmOperand.field, RmOperand.bytes, regName_field henc]

theorem decodeImm_bytes (data : Imm) (rest : List Byte) :
    decodeImm data.width (data.bytes ++ rest) = some (data, rest) := by
  cases data <;> simp [decodeImm, Imm.width, Imm.bytes, leBytes]

theorem decodeGrpImm_bytes (data : GrpImm) (rest : List Byte) :
    decodeGrpImm data.signBit data.width (data.bytes ++ rest) = some (data, rest) := by
  cases data <;> simp [decodeGrpImm, GrpImm.signBit, GrpImm.width, GrpImm.bytes, leBytes]

/-! ## Formats -/

theorem decodeRmReg_bytes (op : Operation) (d : Bool) {reg : RegName} {rm : RmOperand}
    (hreg : reg.encodable = true) (hrm : rm.wf reg.width = true) (rest : List Byte) :
    decodeRmReg op d reg.width (modeByte rm.mode reg.field rm.field :: (rm.bytes ++ rest)) =
      .hit (rmRegInstr op d reg rm) rest := by
  simp [decodeRmReg, decodeRm_bytes hrm, regName_field hreg]

/-- Format RM: the first byte's fixed bits name the operation. -/
theorem decode_encodeRmReg {opcode : BitVec 6} {op : Operation} {d : Bool} {reg : RegName} {rm : RmOperand}
    (hop : ∀ d w, firstByte (opcode6 opcode d w) = .rmReg op) (hreg : reg.encodable = true)
    (hrm : rm.wf reg.width = true) (rest : List Byte) :
    decode (encodeRmReg opcode d reg rm ++ rest) = .hit (rmRegInstr op d reg rm) rest := by
  simp [encodeRmReg, decode, hop, decodeRmReg_bytes op d hreg hrm]

/-- Format GRP: the register field of the second byte names the row. -/
theorem decode_encodeGroup {eee : BitVec 3} {row : RmOperand → GrpImm → Instr} {rm : RmOperand} {data : GrpImm}
    (hrow : groupInstr eee = some row) (hrm : rm.wf data.width = true) (rest : List Byte) :
    decode (encodeGroup eee rm data ++ rest) = .hit (row rm data) rest := by
  have hop : ∀ s w, firstByte (opcode6 0b100000#6 s w) = .group := by decide
  simp [encodeGroup, decode, hop, decodeGroup, hrow, decodeRm_bytes hrm, decodeGrpImm_bytes]

/-- Format ACC_IMM. -/
theorem decode_encodeImmAcc {opcode : BitVec 7} {row : Imm → Instr}
    (hop : ∀ w (bs : List Byte), decode (opcode7 opcode w :: bs) = decodeData (Width.ofBit w) row bs)
    (data : Imm) (rest : List Byte) : decode (encodeImmAcc opcode data ++ rest) = .hit (row data) rest := by
  simp [encodeImmAcc, hop, decodeData, decodeImm_bytes]

theorem firstByte_movImmReg (w : Width) (r : BitVec 3) :
    firstByte (0b1011#4 ++ BitVec.ofBool w.bit ++ r : Byte) = .movImmReg ∧
    (0b1011#4 ++ BitVec.ofBool w.bit ++ r : Byte)[3] = w.bit ∧
    lowField (0b1011#4 ++ BitVec.ofBool w.bit ++ r : Byte) = r := by
  revert r
  cases w <;> decide

/-- Every well-formed instruction is read back from its bytes, and the bytes after it are left. -/
theorem decode_encode {i : Instr} (h : i.wf = true) (rest : List Byte) : decode (encode i ++ rest) = .hit i rest := by
  cases i with
  | movRmReg d reg rm =>
    obtain ⟨hreg, hrm⟩ := Bool.and_eq_true_iff.mp h
    exact decode_encodeRmReg (op := .mov) (by decide) hreg hrm rest
  | addRmReg d reg rm =>
    obtain ⟨hreg, hrm⟩ := Bool.and_eq_true_iff.mp h
    exact decode_encodeRmReg (op := .add) (by decide) hreg hrm rest
  | subRmReg d reg rm =>
    obtain ⟨hreg, hrm⟩ := Bool.and_eq_true_iff.mp h
    exact decode_encodeRmReg (op := .sub) (by decide) hreg hrm rest
  | cmpRmReg d reg rm =>
    obtain ⟨hreg, hrm⟩ := Bool.and_eq_true_iff.mp h
    exact decode_encodeRmReg (op := .cmp) (by decide) hreg hrm rest
  | addImmRm rm data | subImmRm rm data | cmpImmRm rm data => exact decode_encodeGroup rfl h rest
  | addImmAcc data | subImmAcc data | cmpImmAcc data =>
    refine decode_encodeImmAcc (fun w bs => ?_) data rest
    cases w <;> rfl
  | movImmRm unchecked rm data =>
    have hop : ∀ w, firstByte (opcode7 0b1100011#7 w) = .movImmRm := by decide
    simp [encode, decode, hop, decodeMovImmRm, decodeRm_bytes h, decodeImm_bytes]
  | movImmReg reg data =>
    simp only [Instr.wf, Bool.and_eq_true, beq_iff_eq] at h
    obtain ⟨henc, hwidth⟩ := h
    have hreg : regName data.width reg.field = reg := hwidth ▸ regName_field henc
    obtain ⟨hop, hw, hr⟩ := firstByte_movImmReg data.width reg.field
    simp [encode, decode, hop, hw, hr, decodeData, decodeImm_bytes, hreg]
  | movMemAcc w a =>
    have hop : ∀ w, firstByte (opcode7 0b1010000#7 w) = .movMemAcc := by decide
    simp [encode, leBytes, decode, hop, decodeAddress]
  | movAccMem w a =>
    have hop : ∀ w, firstByte (opcode7 0b1010001#7 w) = .movAccMem := by decide
    simp [encode, leBytes, decode, hop, decodeAddress]
  | _ => rfl

end Sys2Proof
end

section
/-! The pipeline over the ROM finds what the decoder of the format tables finds (30_encoding.md R93, R102 against R140):
the definition that matches a first byte, the reads of the window, and the argument lists of the ROM. -/

namespace Sys2Proof.Machine

/-! ## The Opcode Matcher over the ROM -/

/-- An entry that never needs the second byte. -/
def firstByteDecides (e : OpcodeEntry) : Bool :=
  match e.lookup with
  | .single _ => true
  | .multi cs => cs.all (fun c => c.1.bitOffset ≤ 6)

theorem matchCandidates_low {cs : List (SecondaryOperand × InstructionDefinition)}
    (h : ∀ c ∈ cs, c.1.bitOffset ≤ 6) (b0 : Byte) (b1 : Option Byte) :
    matchCandidates b0 b1 cs = matchCandidates b0 none cs := by
  induction cs with
  | nil => rfl
  | cons c cs ih =>
    obtain ⟨hc, hcs⟩ := List.forall_mem_cons.mp h
    simp only [matchCandidates_cons, Spec.candidateTest, if_pos hc, ih hcs]

theorem opcodeMatch_low {schema : Schema} {b0 : Byte}
    (h : ∀ e ∈ schema, maskTest b0 e = true → firstByteDecides e = true) (b1 : Option Byte) :
    opcodeMatch schema b0 b1 = opcodeMatch schema b0 none := by
  induction schema with
  | nil => rfl
  | cons e rest ih =>
    obtain ⟨he, hrest⟩ := List.forall_mem_cons.mp h
    rw [opcodeMatch, opcodeMatch, ih hrest]
    split
    · have hlow := he ‹_›
      cases hl : e.lookup with
      | single d => rfl
      | multi cs => exact matchCandidates_low (by simpa [firstByteDecides, hl] using hlow) b0 b1
    · rfl

/-- The definition of a row in the format RM (E1, E6, E9, E11). -/
def rmDefinition (mn : Mnemonic) : InstructionDefinition := ⟨mn, 7, 4, [.direction, .wordSize], argsRm, none⟩

/-- The mnemonic of an operation. -/
def operationMnemonic : Operation → Mnemonic
  | .mov => .mov
  | .add => .add
  | .sub => .sub
  | .cmp => .cmp

/-- The definition of a row in the format ACC_IMM (E8, E10, E12). -/
def immAccDefinition (mn : Mnemonic) : InstructionDefinition := ⟨mn, 8, 3, [.wordSize], [.wordData], none⟩

/-- The definition of the row `mov_imm_rm` (E2). -/
def movImmRmDefinition : InstructionDefinition := ⟨.mov, 8, 6, [.wordSize], argsImmRm 0b000#3, none⟩

/-- The definition of the row `mov_imm_reg` (E3). -/
def movImmRegDefinition : InstructionDefinition := ⟨.mov, 5, 3, [.wordSize], [.registerImplicit, .wordData], none⟩

/-- The definition of the format ACC_MEM with its implied direction (E4, E5). -/
def accMemDefinition (direction : Option Bool) : InstructionDefinition :=
  ⟨.mov, 8, 3, [.wordSize], [.wordAddress], direction⟩

/-- The mnemonic of a jump's first byte (42_branch.md R261). -/
def jumpMnemonic (b0 : Byte) : Option Mnemonic := (jumpInstr b0 0#8).map instrMnemonic

/-- The definition of a jump (E13 to E15). -/
def jumpDefinition (b0 : Byte) (mn : Mnemonic) : InstructionDefinition :=
  ⟨mn, 6, 2, [], [.registerExplicit (lowField b0), .byte], none⟩

/-- The ROM's definition for a first byte outside the group (R100, R102). -/
def romDefinition (b0 : Byte) : Option InstructionDefinition :=
  match firstByte b0 with
  | .rmReg op => some (rmDefinition (operationMnemonic op))
  | .movImmRm => some movImmRmDefinition
  | .movImmReg => some movImmRegDefinition
  | .movMemAcc => some (accMemDefinition none)
  | .movAccMem => some (accMemDefinition (some false))
  | .addImmAcc => some (immAccDefinition .add)
  | .subImmAcc => some (immAccDefinition .sub)
  | .cmpImmAcc => some (immAccDefinition .cmp)
  | .jump => (jumpMnemonic b0).map (jumpDefinition b0)
  | .group => none
  | .unmatched => none

/-- Only the entry of the group E7 needs the second byte. -/
theorem firstByteDecides_romSchema {b0 : Byte} (h : firstByte b0 ≠ .group) :
    ∀ e ∈ romSchema, maskTest b0 e = true → firstByteDecides e = true := by
  have hentry : ∀ e ∈ romSchema, firstByteDecides e = true ∨ (e.offset = 7 ∧ e.pattern = 0x80#8) := by decide
  have hgroup : ∀ b0 : Byte, (b0 &&& topMask 6 == 0x80#8) = true → firstByte b0 = .group := by decide
  intro e he hmask
  obtain hlow | ⟨hoffset, hpattern⟩ := hentry e he
  · exact hlow
  · rw [maskTest, hoffset, hpattern] at hmask
    exact absurd (hgroup b0 hmask) h

/-- Outside the group the first byte decides, whatever follows it. -/
theorem opcodeMatch_romSchema {b0 : Byte} (h : firstByte b0 ≠ .group) (b1 : Option Byte) :
    opcodeMatch romSchema b0 b1 = .ok (romDefinition b0) := by
  have hrom : ∀ b0, firstByte b0 ≠ .group → opcodeMatch romSchema b0 none = .ok (romDefinition b0) := by decide
  rw [opcodeMatch_low (firstByteDecides_romSchema h), hrom b0 h]

/-- The definition of a candidate of the group E7. -/
def groupDefinition (eee : BitVec 3) (mn : Mnemonic) : InstructionDefinition :=
  ⟨mn, 7, 6, [.signExtend, .wordSize], argsImmRm eee, none⟩

/-- The mnemonic that the register field of a group instruction selects (R100). -/
def groupMnemonic (eee : BitVec 3) : Option Mnemonic :=
  (groupInstr eee).map (fun row => instrMnemonic (row (.base .bx) (.byte 0#8)))

theorem group_bytes {b0 : Byte} (h : firstByte b0 = .group) :
    b0 = 0x80#8 ∨ b0 = 0x81#8 ∨ b0 = 0x82#8 ∨ b0 = 0x83#8 := by
  revert b0
  decide

/-- A group byte needs the byte after it (R117). -/
theorem opcodeMatch_group_none {b0 : Byte} (h : firstByte b0 = .group) :
    opcodeMatch romSchema b0 none = .error .truncated := by
  obtain rfl | rfl | rfl | rfl := group_bytes h <;> rfl

/-- With it, the register field selects the candidate (R113). -/
theorem opcodeMatch_group_some {b0 : Byte} (h : firstByte b0 = .group) (b1 : Byte) :
    opcodeMatch romSchema b0 (some b1) =
      .ok ((groupMnemonic (regField b1)).map (groupDefinition (regField b1))) := by
  have hcs : opcodeMatch romSchema b0 (some b1) = matchCandidates b0 (some b1)
      [groupCandidate 0b000#3 .add, groupCandidate 0b101#3 .sub, groupCandidate 0b111#3 .cmp] := by
    obtain rfl | rfl | rfl | rfl := group_bytes h <;> rfl
  rw [hcs]
  have htest : ∀ c mn, Spec.candidateTest b0 (some b1) (groupCandidate c mn).1 = some (decide (regField b1 = c)) :=
    fun _ _ => rfl
  have hnil : matchCandidates b0 (some b1) [] = .ok none := rfl
  simp only [matchCandidates_cons, htest, hnil]
  generalize regField b1 = r
  revert r
  decide

/-! ## Reads of the window -/

theorem fieldBits_byte {win : List Byte} {k : Nat} {b : Byte} (h : win[k]? = some b) {p n : Nat} (hn : p + n ≤ 8) :
    fieldBits win (8 * k + p) n = some (b.toNat / 2 ^ (8 - p - n) % 2 ^ n) := by
  induction n with
  | zero => simp [fieldBits, Nat.mod_one]
  | succ n ih =>
    have hk : (8 * k + p + n) / 8 = k := by omega
    have hp : (8 * k + p + n) % 8 = p + n := by omega
    have hbit : b.getMsbD (p + n) = b.toNat.testBit (8 - p - (n + 1)) := by
      have hlt : p + n < 8 := by omega
      have hidx : 8 - 1 - (p + n) = 8 - p - (n + 1) := by omega
      simp [BitVec.getMsbD, hlt, hidx, BitVec.getLsbD]
    have hsucc : 8 - p - n = 8 - p - (n + 1) + 1 := by omega
    simp only [fieldBits, ih (by omega), hk, hp, h, hbit, hsucc, Option.some.injEq]
    rw [Nat.pow_succ, ← Nat.div_div_eq_div_mul, Nat.pow_succ', Nat.mod_mul, Nat.testBit_eq_decide_div_mod_eq]
    rcases Nat.mod_two_eq_zero_or_one (b.toNat / 2 ^ (8 - p - (n + 1))) with h2 | h2 <;>
      simp [h2, Nat.add_comm]

/-- A field inside one byte (00_scope.md R16). -/
theorem readField_byte {win : List Byte} {k : Nat} {b : Byte} (h : win[k]? = some b) {p n : Nat} (hn : p + n ≤ 8) :
    readField win (8 * k + p) n = .ok (b.extractLsb' (8 - p - n) n) := by
  rw [readField, fieldBits_byte h hn]
  refine congrArg Except.ok (BitVec.eq_of_toNat_eq ?_)
  simp [BitVec.extractLsb'_toNat, Nat.shiftRight_eq_div_pow]

/-- A byte at a byte boundary of the window (00_scope.md R17), where the window reaches that far into the
stream. -/
theorem readByte_take {bs : List Byte} {n k : Nat} (h : k < n) :
    readByte (bs.take n) (8 * k) =
      match bs.drop k with
      | b :: _ => .ok b
      | [] => .error .truncated := by
  have hmod : 8 * k % 8 = 0 := by omega
  have hdiv : 8 * k / 8 = k := by omega
  rw [readByte, if_pos hmod, hdiv, List.getElem?_take_of_lt h]
  cases hd : bs.drop k with
  | nil => simp [List.drop_eq_nil_iff.mp hd]
  | cons b rest =>
    have hb : bs[k]? = some b := by rw [← List.head?_drop, hd]; rfl
    simp [hb]

/-- Two bytes at a byte boundary, the first the less significant (00_scope.md R17). -/
theorem readWord_take {bs : List Byte} {n k : Nat} (h : k + 1 < n) :
    readWord (bs.take n) (8 * k) =
      match bs.drop k with
      | lo :: hi :: _ => .ok (le16 lo hi)
      | _ => .error .truncated := by
  have hmod : 8 * k % 8 = 0 := by omega
  have hdiv : 8 * k / 8 = k := by omega
  have h0 : bs[k]? = (bs.drop k)[0]? := by simp
  have h1 : bs[k + 1]? = (bs.drop k)[1]? := by simp
  rw [readWord, if_pos hmod, hdiv, List.getElem?_take_of_lt (by omega), List.getElem?_take_of_lt h, h0, h1]
  cases bs.drop k with
  | nil => rfl
  | cons lo rest => cases rest <;> rfl

/-- Whether an r/m operand is the direct address, which the Field Decoder calls "quirky" (30_encoding.md R125). -/
def isDirect : RmOperand → Bool
  | .direct _ => true
  | _ => false

/-- The two readings of an r/m operand, from byte 2 on. -/
theorem rmArgument_take {bs : List Byte} {n : Nat} (h : 4 ≤ n) (w : Width) (mode : BitVec 2) (r : BitVec 3) :
    rmArgument (bs.take n) 16 w mode r =
      match decodeRm w mode r (bs.drop 2) with
      | some (rm, _) => .ok (rmOperand rm, isDirect rm)
      | none => .error .truncated := by
  have hbyte := readByte_take (bs := bs) (n := n) (k := 2) (by omega)
  have hword := readWord_take (bs := bs) (n := n) (k := 2) (by omega)
  generalize bs.drop 2 = tail at *
  simp only [rmArgument, decodeRm, hbyte, hword]
  generalize mode.toNat = m
  rcases m with _ | _ | _ | m
  · by_cases hr : r = 0b110#3
    · rcases tail with _ | ⟨lo, _ | ⟨hi, tail⟩⟩ <;> simp [hr, rmOperand, isDirect]
    · simp [hr, rmOperand, isDirect]
  · cases tail <;> rfl
  · rcases tail with _ | ⟨lo, _ | ⟨hi, tail⟩⟩ <;> rfl
  · rfl

/-- What the decoder reads as an r/m operand: the mode it was given, and the operand's own bytes. -/
theorem decodeRm_eq_some {w : Width} {mode : BitVec 2} {r : BitVec 3} {bs rest : List Byte} {rm : RmOperand}
    (h : decodeRm w mode r bs = some (rm, rest)) : rm.mode = mode ∧ bs = rm.bytes ++ rest := by
  have hmode : ∀ m : BitVec 2, m = 0b00#2 ∨ m = 0b01#2 ∨ m = 0b10#2 ∨ m = 0b11#2 := by decide
  obtain rfl | rfl | rfl | rfl := hmode mode
  · by_cases hr : r = 0b110#3
    · rcases bs with _ | ⟨lo, _ | ⟨hi, bs⟩⟩ <;> simp [decodeRm, hr] at h
      obtain ⟨rfl, rfl⟩ := h
      simp [RmOperand.mode, RmOperand.bytes, leBytes, le16]
    · simp only [decodeRm, BitVec.toNat_ofNat, Nat.zero_mod, hr, if_false, Option.some.injEq, Prod.mk.injEq] at h
      obtain ⟨rfl, rfl⟩ := h
      exact ⟨rfl, rfl⟩
  · rcases bs with _ | ⟨d, bs⟩ <;> cases h
    exact ⟨rfl, rfl⟩
  · rcases bs with _ | ⟨lo, _ | ⟨hi, bs⟩⟩ <;> cases h
    simp [RmOperand.mode, RmOperand.bytes, leBytes, le16]
  · cases h
    exact ⟨rfl, rfl⟩

/-- The displacement argument passes over the operand's own bytes (R130). -/
theorem displacementBits_mode (rm : RmOperand) : displacementBits rm.mode (isDirect rm) = 8 * rm.bytes.length := by
  cases rm <;> rfl

/-- The value of data without an `s` bit. -/
def immWord : Imm → Word
  | .byte v => zext16 v
  | .word v => v

/-- The value of group data. -/
def grpWord : GrpImm → Word
  | .byte v => zext16 v
  | .word v => v
  | .signed _ v => sext16 v

theorem immOperand_eq (data : Imm) : immOperand data = .imm (immWord data) := by
  cases data <;> rfl

theorem grpOperand_eq (data : GrpImm) : grpOperand data = .imm (grpWord data) := by
  cases data <;> rfl

/-- The pipeline's answer for data that the decoder reads as `data`: its value and the bits it takes. -/
def dataAnswer {δ : Type} (word : δ → Word) (bytes : δ → List Byte) :
    Option (δ × List Byte) → Except DecodeFault (Word × Nat)
  | some (data, _) => .ok (word data, 8 * (bytes data).length)
  | none => .error .truncated

/-- The two readings of data without an `s` bit, from byte `k` on (R131). -/
theorem dataArgument_take_imm {bs : List Byte} {n k : Nat} (h : k + 1 < n) (d : Option Bool) (w : Bool) :
    dataArgument ⟨d, none, some w⟩ (bs.take n) (8 * k) =
      dataAnswer immWord Imm.bytes (decodeImm (Width.ofBit w) (bs.drop k)) := by
  have hbyte := readByte_take (bs := bs) (n := n) (k := k) (by omega)
  have hword := readWord_take (bs := bs) h
  generalize bs.drop k = tail at *
  cases w
  · simp only [dataArgument, hbyte]
    cases tail <;> rfl
  · simp only [dataArgument, hword]
    rcases tail with _ | ⟨lo, _ | ⟨hi, tail⟩⟩ <;> rfl

/-- The two readings of group data, from byte `k` on (R131). -/
theorem dataArgument_take_grp {bs : List Byte} {n k : Nat} (h : k + 1 < n) (d : Option Bool) (s w : Bool) :
    dataArgument ⟨d, some s, some w⟩ (bs.take n) (8 * k) =
      dataAnswer grpWord GrpImm.bytes (decodeGrpImm s (Width.ofBit w) (bs.drop k)) := by
  have hbyte := readByte_take (bs := bs) (n := n) (k := k) (by omega)
  have hword := readWord_take (bs := bs) h
  generalize bs.drop k = tail at *
  cases s
  · cases w
    · simp only [dataArgument, hbyte]
      cases tail <;> rfl
    · simp only [dataArgument, hword]
      rcases tail with _ | ⟨lo, _ | ⟨hi, tail⟩⟩ <;> rfl
  · simp only [dataArgument, hbyte]
    cases tail <;> simp [decodeGrpImm, dataAnswer, grpWord, GrpImm.bytes]

/-! ## The argument lists of the ROM -/

theorem decodeArguments_cons_ok {fl : FlagSet} {win : List Byte} {a : Argument} {sc sc' : Scratch}
    (h : decodeArgument fl win a sc = .ok sc') (args : List Argument) :
    decodeArguments fl win (a :: args) sc = decodeArguments fl win args sc' := by
  simp only [decodeArguments, h]

theorem decodeArguments_cons_error {fl : FlagSet} {win : List Byte} {a : Argument} {sc : Scratch} {f : DecodeFault}
    (h : decodeArgument fl win a sc = .error f) (args : List Argument) :
    decodeArguments fl win (a :: args) sc = .error f := by
  simp only [decodeArguments, h]

/-- Where the stream ends after the first byte, the mode is missing. -/
theorem decodeArguments_mode_missing (fl : FlagSet) (b0 : Byte) (n : Nat) (args : List Argument) {sc : Scratch}
    (hc : sc.cursor = 8) :
    decodeArguments fl ([b0].take n) (.mode :: args) sc = .error .truncated := by
  refine decodeArguments_cons_error ?_ args
  simp [decodeArgument, hc, readField, fieldBits]

section ModeByte
variable {n : Nat} (hn : 4 ≤ n) (fl : FlagSet) (b0 b1 : Byte) (tail : List Byte)
include hn

theorem getElem?_modeByte : ((b0 :: b1 :: tail).take n)[1]? = some b1 := by
  simp [List.getElem?_take_of_lt (show 1 < n by omega)]

theorem readField_modeByte {p m : Nat} (h : p + m ≤ 8) :
    readField ((b0 :: b1 :: tail).take n) (8 + p) m = .ok (b1.extractLsb' (8 - p - m) m) :=
  readField_byte (k := 1) (getElem?_modeByte hn b0 b1 tail) h

/-- The mode, at the start of a call for a definition whose fixed bits and flags fill the first byte. -/
theorem decodeArgument_mode {sc : Scratch} (hc : sc.cursor = 8) :
    decodeArgument fl ((b0 :: b1 :: tail).take n) .mode sc =
      .ok { sc with mode := some (modeField b1), cursor := 10 } := by
  have h := readField_modeByte hn b0 b1 tail (p := 0) (m := 2) (by decide)
  simp only [decodeArgument, hc, h]
  rfl

theorem decodeArgument_registerImplicit {w : Bool} (hw : fl.w = some w) {sc : Scratch} (hc : sc.cursor = 10) :
    decodeArgument fl ((b0 :: b1 :: tail).take n) .registerImplicit sc =
      .ok { sc with dst := .reg (regName (Width.ofBit w) (regField b1)), cursor := 13 } := by
  have h := readField_modeByte hn b0 b1 tail (p := 2) (m := 3) (by decide)
  simp only [decodeArgument, hw, hc, h]
  rfl

theorem decodeArgument_registerOrMemory {w : Bool} (hw : fl.w = some w) {sc : Scratch} (hc : sc.cursor = 13)
    (hm : sc.mode = some (modeField b1)) :
    decodeArgument fl ((b0 :: b1 :: tail).take n) .registerOrMemory sc =
      match decodeRm (Width.ofBit w) (modeField b1) (lowField b1) tail with
      | some (rm, _) =>
        .ok (Scratch.place { sc with cursor := 16, quirky := sc.quirky || isDirect rm } (rmOperand rm))
      | none => .error .truncated := by
  have hfield : readField ((b0 :: b1 :: tail).take n) 13 3 = .ok (lowField b1) :=
    readField_modeByte hn b0 b1 tail (p := 5) (m := 3) (by decide)
  have hrm := rmArgument_take (bs := b0 :: b1 :: tail) hn (Width.ofBit w) (modeField b1) (lowField b1)
  simp only [List.drop_succ_cons, List.drop_zero] at hrm
  simp only [decodeArgument, hw, hm, hc, hfield, Nat.reduceAdd, hrm]
  cases decodeRm (Width.ofBit w) (modeField b1) (lowField b1) tail <;> rfl

/-- The r/m operand with its displacement: the cursor passes over the operand's own bytes. -/
theorem decodeArguments_rm {w : Bool} (hw : fl.w = some w) {sc : Scratch} (hc : sc.cursor = 13)
    (hm : sc.mode = some (modeField b1)) (hq : sc.quirky = false) (args : List Argument) :
    decodeArguments fl ((b0 :: b1 :: tail).take n) (.registerOrMemory :: .wordDisplacement :: args) sc =
      match decodeRm (Width.ofBit w) (modeField b1) (lowField b1) tail with
      | some (rm, _) =>
        decodeArguments fl ((b0 :: b1 :: tail).take n) args
          (Scratch.place { sc with cursor := 8 * (2 + rm.bytes.length), quirky := isDirect rm } (rmOperand rm))
      | none => .error .truncated := by
  have hrm := decodeArgument_registerOrMemory hn fl b0 b1 tail hw hc hm
  cases hd : decodeRm (Width.ofBit w) (modeField b1) (lowField b1) tail with
  | none =>
    simp only [hd] at hrm
    exact decodeArguments_cons_error hrm _
  | some p =>
    obtain ⟨rm, rest⟩ := p
    simp only [hd] at hrm
    rw [decodeArguments_cons_ok hrm]
    refine decodeArguments_cons_ok ?_ args
    have hbits : 16 + displacementBits (modeField b1) (isDirect rm) = 8 * (2 + rm.bytes.length) := by
      rw [← (decodeRm_eq_some hd).1, displacementBits_mode, Nat.mul_add]
    cases sc.regIsDest <;> simp [decodeArgument, Scratch.place, hm, hq, hbits]

/-- The arguments of the format RM. -/
theorem decodeArguments_argsRm {w : Bool} (hw : fl.w = some w) :
    decodeArguments fl ((b0 :: b1 :: tail).take n) argsRm ⟨8, none, false, false, .none, .none⟩ =
      match decodeRm (Width.ofBit w) (modeField b1) (lowField b1) tail with
      | some (rm, _) =>
        .ok ⟨8 * (2 + rm.bytes.length), some (modeField b1), isDirect rm, false, rmOperand rm,
          .reg (regName (Width.ofBit w) (regField b1))⟩
      | none => .error .truncated := by
  rw [argsRm, decodeArguments_cons_ok (decodeArgument_mode hn fl b0 b1 tail rfl),
    decodeArguments_cons_ok (decodeArgument_registerImplicit hn fl b0 b1 tail hw rfl),
    decodeArguments_rm hn fl b0 b1 tail hw rfl rfl rfl]
  rfl

/-- The arguments of the formats IMM_RM and GRP, up to their data. -/
theorem decodeArguments_argsImmRm (v : BitVec 3) {w : Bool} (hw : fl.w = some w) :
    decodeArguments fl ((b0 :: b1 :: tail).take n) (argsImmRm v) ⟨8, none, false, false, .none, .none⟩ =
      match decodeRm (Width.ofBit w) (modeField b1) (lowField b1) tail with
      | some (rm, _) =>
        decodeArguments fl ((b0 :: b1 :: tail).take n) [.wordData]
          ⟨8 * (2 + rm.bytes.length), some (modeField b1), isDirect rm, true, .none, rmOperand rm⟩
      | none => .error .truncated := by
  rw [argsImmRm, decodeArguments_cons_ok (decodeArgument_mode hn fl b0 b1 tail rfl),
    decodeArguments_cons_ok (a := .registerExplicit v) rfl, decodeArguments_rm hn fl b0 b1 tail hw rfl rfl rfl]
  rfl

end ModeByte

/-! ## The formats -/

/-- The pipeline's answer stands for the decoder's: the same instruction, operand for operand and length for length, or
a skip, or the end of the stream inside an instruction. -/
def PipelineFinds (r : DecodeResult) (answer : Except DecodeFault Iteration) : Prop :=
  match r with
  | .hit i _ => ∃ sc, answer = .ok (.hit (decodedOf i) sc)
  | .unmatched => answer = .ok .skip
  | .truncated => answer = .error .truncated

theorem decodeHit_ok {d : InstructionDefinition} {di : DecodedInstruction} {b0 : Byte} {bs : List Byte} {sc : Scratch}
    (hfit : flagsFit d = true)
    (hargs : decodeArguments (extractFlags b0 d) (bs.take (d.maxByteCount + 1)) d.args (Scratch.start d) = .ok sc)
    (hend : sc.cursor % 8 = 0) (has : assemble d (extractFlags b0 d) sc = .ok di) :
    decodeHit d b0 bs = .ok (.hit di sc) := by
  simp [decodeHit, hfit, fieldDecode, hargs, hend, has]

theorem decodeHit_truncated {d : InstructionDefinition} {b0 : Byte} {bs : List Byte} (hfit : flagsFit d = true)
    (hargs : decodeArguments (extractFlags b0 d) (bs.take (d.maxByteCount + 1)) d.args (Scratch.start d) =
      .error .truncated) :
    decodeHit d b0 bs = .error .truncated := by
  simp [decodeHit, hfit, fieldDecode, hargs]

theorem decodedOf_rmRegInstr (op : Operation) (d : Bool) (reg : RegName) (rm : RmOperand) :
    decodedOf (rmRegInstr op d reg rm) =
      ⟨operationMnemonic op, rmRegSource d reg rm, rmRegDestination d reg rm, 2 + rm.bytes.length⟩ := by
  have hlen : ∀ opcode, (encodeRmReg opcode d reg rm).length = 2 + rm.bytes.length := fun _ => by
    simp only [encodeRmReg, List.length_cons]
    omega
  cases op <;> exact congrArg _ (hlen _)

/-- Format RM (E1, E6, E9, E11). -/
theorem decodeHit_rmReg (op : Operation) (b0 : Byte) (tail : List Byte) :
    PipelineFinds (decodeRmReg op b0[1] (Width.ofBit b0[0]) tail)
      (decodeHit (rmDefinition (operationMnemonic op)) b0 (b0 :: tail)) := by
  cases tail with
  | nil => exact decodeHit_truncated rfl (decodeArguments_mode_missing _ b0 5 _ rfl)
  | cons b1 tail =>
    have hn : 4 ≤ 5 := by decide
    have hargs := decodeArguments_argsRm hn (extractFlags b0 (rmDefinition (operationMnemonic op))) b0 b1 tail
      (w := b0[0]) rfl
    cases hd : decodeRm (Width.ofBit b0[0]) (modeField b1) (lowField b1) tail with
    | none =>
      simp only [decodeRmReg, hd] at hargs ⊢
      exact decodeHit_truncated rfl hargs
    | some p =>
      obtain ⟨rm, rest⟩ := p
      simp only [decodeRmReg, hd] at hargs ⊢
      refine ⟨_, decodeHit_ok rfl hargs (Nat.mul_mod_right _ _) ?_⟩
      have hdir : directionValue (rmDefinition (operationMnemonic op))
        (extractFlags b0 (rmDefinition (operationMnemonic op))) = some b0[1] := rfl
      rw [decodedOf_rmRegInstr]
      simp only [assemble, defaultDestination, hdir]
      cases b0[1] <;> simp [rmRegSource, rmRegDestination, rmDefinition]

/-- With a destination and no direction of 0, source and destination stay (R143). -/
theorem assemble_keeps {d : InstructionDefinition} {fl : FlagSet} {sc : Scratch} {dst : Operand}
    (hdst : defaultDestination fl sc.dst = .ok dst) (hdir : directionValue d fl ≠ some false) :
    assemble d fl sc = .ok ⟨d.mnemonic, sc.src, dst, sc.cursor / 8⟩ := by
  simp only [assemble, hdst, if_neg hdir]

theorem defaultDestination_keeps {dst : Operand} (h : dst ≠ .none) (fl : FlagSet) :
    defaultDestination fl dst = .ok dst := by
  simp only [defaultDestination, if_neg h]

theorem decodeArguments_wordData {fl : FlagSet} {win : List Byte} {sc : Scratch} {v : Word} {n : Nat}
    (h : dataArgument fl win sc.cursor = .ok (v, n)) :
    decodeArguments fl win [.wordData] sc = .ok { sc with src := .imm v, cursor := sc.cursor + n } :=
  decodeArguments_cons_ok (by simp only [decodeArgument, h]) []

theorem decodeArguments_wordData_error {fl : FlagSet} {win : List Byte} {sc : Scratch} {f : DecodeFault}
    (h : dataArgument fl win sc.cursor = .error f) : decodeArguments fl win [.wordData] sc = .error f :=
  decodeArguments_cons_error (by simp only [decodeArgument, h]) []

theorem drop_rm {w : Width} {mode : BitVec 2} {r : BitVec 3} {tail rest : List Byte} {rm : RmOperand}
    (h : decodeRm w mode r tail = some (rm, rest)) (b0 b1 : Byte) :
    (b0 :: b1 :: tail).drop (2 + rm.bytes.length) = rest := by
  rw [(decodeRm_eq_some h).2, Nat.add_comm]
  simp

section RmData
variable {δ : Type} {dec : List Byte → Option (δ × List Byte)} {word : δ → Word} {bytes : δ → List Byte}
  {row : RmOperand → δ → Instr}

/-- What the decoder makes of an r/m operand and the bytes after it, where a row ends in data read by `dec`. -/
def rmDataResult (dec : List Byte → Option (δ × List Byte)) (row : RmOperand → δ → Instr) :
    Option (RmOperand × List Byte) → DecodeResult
  | none => .truncated
  | some (rm, rest) =>
    match dec rest with
    | some (data, rest) => .hit (row rm data) rest
    | none => .truncated

theorem rmDataResult_some {rm : RmOperand} {rest rest' : List Byte} {data : δ} (h : dec rest = some (data, rest')) :
    rmDataResult dec row (some (rm, rest)) = .hit (row rm data) rest' := by
  simp only [rmDataResult, h]

theorem rmDataResult_none {rm : RmOperand} {rest : List Byte} (h : dec rest = none) :
    rmDataResult dec row (some (rm, rest)) = .truncated := by
  simp only [rmDataResult, h]

/-- What the formats IMM_RM and GRP share: an r/m operand and after it data, read by `dec`. -/
theorem decodeHit_rmData {d : InstructionDefinition} {v : BitVec 3} {b0 b1 : Byte} {tail : List Byte} {s : Option Bool}
    (hfit : flagsFit d = true) (hcount : d.maxByteCount = 6) (hdargs : d.args = argsImmRm v)
    (hstart : Scratch.start d = ⟨8, none, false, false, .none, .none⟩)
    (hflags : extractFlags b0 d = ⟨none, s, some b0[0]⟩) (himplied : d.impliedDirection = none)
    (hdata : ∀ k, k + 1 < 7 → dataArgument ⟨none, s, some b0[0]⟩ ((b0 :: b1 :: tail).take 7) (8 * k) =
      dataAnswer word bytes (dec ((b0 :: b1 :: tail).drop k)))
    (hrow : ∀ rm data, decodedOf (row rm data) =
      ⟨d.mnemonic, .imm (word data), rmOperand rm, 2 + rm.bytes.length + (bytes data).length⟩) :
    PipelineFinds
      (rmDataResult dec row (decodeRm (Width.ofBit b0[0]) (modeField b1) (lowField b1) tail))
      (decodeHit d b0 (b0 :: b1 :: tail)) := by
  have hn : 4 ≤ 7 := by decide
  have hargs := decodeArguments_argsImmRm hn ⟨none, s, some b0[0]⟩ b0 b1 tail v (w := b0[0]) rfl
  have hdir : directionValue d (extractFlags b0 d) ≠ some false := by simp [directionValue, hflags, himplied]
  rw [← hflags] at hargs hdata
  rw [← hdargs, ← hstart] at hargs
  have hwindow : (b0 :: b1 :: tail).take 7 = (b0 :: b1 :: tail).take (d.maxByteCount + 1) := by rw [hcount]
  rw [hwindow] at hargs hdata
  cases hd : decodeRm (Width.ofBit b0[0]) (modeField b1) (lowField b1) tail with
  | none =>
    simp only [hd] at hargs
    exact decodeHit_truncated hfit hargs
  | some p =>
    obtain ⟨rm, rest⟩ := p
    have hk : 2 + rm.bytes.length + 1 < 7 := by
      have := Laws.rm_bytes_length rm
      omega
    have hdata := hdata _ hk
    rw [drop_rm hd] at hdata
    simp only [hd] at hargs
    cases hi : dec rest with
    | none =>
      rw [rmDataResult_none hi]
      rw [hi] at hdata
      exact decodeHit_truncated hfit (hargs.trans (decodeArguments_wordData_error hdata))
    | some q =>
      obtain ⟨data, rest'⟩ := q
      rw [rmDataResult_some hi]
      rw [hi] at hdata
      refine ⟨_, decodeHit_ok hfit (hargs.trans (decodeArguments_wordData hdata)) (by simp [Nat.add_mod])
        ((assemble_keeps (defaultDestination_keeps (rmOperand_ne_none rm) _) hdir).trans ?_)⟩
      have hlen : (8 * (2 + rm.bytes.length) + 8 * (bytes data).length) / 8 =
          2 + rm.bytes.length + (bytes data).length := by omega
      rw [hrow, hlen]

end RmData

theorem decodeMovImmRm_cons (w : Width) (b1 : Byte) (tail : List Byte) :
    decodeMovImmRm w (b1 :: tail) =
      rmDataResult (decodeImm w) (.movImmRm (regField b1)) (decodeRm w (modeField b1) (lowField b1) tail) := by
  rw [decodeMovImmRm]
  cases decodeRm w (modeField b1) (lowField b1) tail with
  | none => rfl
  | some p =>
    simp only [rmDataResult]
    cases decodeImm w p.2 <;> rfl

theorem decodeGroup_cons {s : Bool} {w : Width} {b1 : Byte} {row : RmOperand → GrpImm → Instr}
    (h : groupInstr (regField b1) = some row) (tail : List Byte) :
    decodeGroup s w (b1 :: tail) =
      rmDataResult (decodeGrpImm s w) row (decodeRm w (modeField b1) (lowField b1) tail) := by
  simp only [decodeGroup, h]
  cases decodeRm w (modeField b1) (lowField b1) tail with
  | none => rfl
  | some p =>
    simp only [rmDataResult]
    cases decodeGrpImm s w p.2 <;> rfl

/-- Format IMM_RM (E2). -/
theorem decodeHit_movImmRm (b0 : Byte) (tail : List Byte) :
    PipelineFinds (decodeMovImmRm (Width.ofBit b0[0]) tail) (decodeHit movImmRmDefinition b0 (b0 :: tail)) := by
  cases tail with
  | nil => exact decodeHit_truncated rfl (decodeArguments_mode_missing _ b0 7 _ rfl)
  | cons b1 tail =>
    rw [decodeMovImmRm_cons]
    refine decodeHit_rmData (d := movImmRmDefinition) (s := none) (b0 := b0) (b1 := b1) (tail := tail)
      (dec := decodeImm (Width.ofBit b0[0])) (word := immWord) (bytes := Imm.bytes)
      (row := .movImmRm (regField b1)) rfl rfl rfl rfl rfl rfl
      (fun k hk => dataArgument_take_imm (bs := b0 :: b1 :: tail) hk none b0[0]) (fun rm data => ?_)
    have hlen : (encode (.movImmRm (regField b1) rm data)).length = 2 + rm.bytes.length + data.bytes.length := by
      simp only [encode, List.length_cons, List.length_append]
      omega
    rw [decodedOf, hlen, ← immOperand_eq]
    rfl

/-- The row that the register field of a group instruction selects stands for its mnemonic and its operands (R100). -/
theorem decodedOf_groupInstr {eee : BitVec 3} {row : RmOperand → GrpImm → Instr} (h : groupInstr eee = some row) :
    ∃ mn, groupMnemonic eee = some mn ∧ ∀ rm data, decodedOf (row rm data) =
      ⟨mn, .imm (grpWord data), rmOperand rm, 2 + rm.bytes.length + data.bytes.length⟩ := by
  have hlen : ∀ rm data, (encodeGroup eee rm data).length = 2 + rm.bytes.length + data.bytes.length := by
    intro rm data
    simp only [encodeGroup, List.length_cons, List.length_append]
    omega
  rw [groupMnemonic, h]
  refine ⟨_, rfl, fun rm data => ?_⟩
  rw [← hlen, ← grpOperand_eq]
  rw [groupInstr] at h
  split at h <;> cases h <;> rfl

/-- Format GRP (E7). -/
theorem decodeHit_group {row : RmOperand → GrpImm → Instr} {mn : Mnemonic}
    (hrow : ∀ rm data, decodedOf (row rm data) =
      ⟨mn, .imm (grpWord data), rmOperand rm, 2 + rm.bytes.length + data.bytes.length⟩)
    {b0 b1 : Byte} {tail : List Byte} (hinstr : groupInstr (regField b1) = some row) :
    PipelineFinds (decodeGroup b0[1] (Width.ofBit b0[0]) (b1 :: tail))
      (decodeHit (groupDefinition (regField b1) mn) b0 (b0 :: b1 :: tail)) := by
  rw [decodeGroup_cons hinstr]
  exact decodeHit_rmData (d := groupDefinition (regField b1) mn) (s := some b0[1]) (b0 := b0) (b1 := b1) (tail := tail)
    (dec := decodeGrpImm b0[1] (Width.ofBit b0[0])) (word := grpWord) (bytes := GrpImm.bytes) rfl rfl rfl rfl rfl rfl
    (fun k hk => dataArgument_take_grp (bs := b0 :: b1 :: tail) hk none b0[1] b0[0]) hrow

/-- The decoder gives data the width that it reads. -/
theorem decodeImm_width {w : Width} {bs rest : List Byte} {data : Imm} (h : decodeImm w bs = some (data, rest)) :
    data.width = w := by
  cases w
  · rcases bs with _ | ⟨b, bs⟩ <;> cases h
    rfl
  · rcases bs with _ | ⟨lo, _ | ⟨hi, bs⟩⟩ <;> cases h
    rfl

/-- What the formats ACC_IMM and IMM_REG share: data of the width `w` after the first byte, to the register `reg`. -/
theorem decodeHit_data {d : InstructionDefinition} {b0 : Byte} {tail : List Byte} {w : Bool} {reg : RegName}
    {row : Imm → Instr} {sc : Scratch} (hfit : flagsFit d = true) (hcount : d.maxByteCount = 3)
    (hflags : extractFlags b0 d = ⟨none, none, some w⟩) (himplied : d.impliedDirection = none)
    (hargs : decodeArguments ⟨none, none, some w⟩ ((b0 :: tail).take 4) d.args (Scratch.start d) =
      decodeArguments ⟨none, none, some w⟩ ((b0 :: tail).take 4) [.wordData] sc)
    (hc : sc.cursor = 8) (hdst : defaultDestination ⟨none, none, some w⟩ sc.dst = .ok (.reg reg))
    (hrow : ∀ data, data.width = Width.ofBit w →
      decodedOf (row data) = ⟨d.mnemonic, .imm (immWord data), .reg reg, 1 + data.bytes.length⟩) :
    PipelineFinds (decodeData (Width.ofBit w) row tail) (decodeHit d b0 (b0 :: tail)) := by
  have hdir : directionValue d (extractFlags b0 d) ≠ some false := by simp [directionValue, hflags, himplied]
  have hwindow : (b0 :: tail).take 4 = (b0 :: tail).take (d.maxByteCount + 1) := by rw [hcount]
  have hdata := dataArgument_take_imm (bs := b0 :: tail) (n := 4) (k := 1) (by decide) none w
  rw [hwindow, ← hflags] at hargs hdata
  rw [← hflags] at hdst
  have hcur : sc.cursor = 8 * 1 := hc
  rw [List.drop_succ_cons, List.drop_zero, ← hcur] at hdata
  rw [decodeData]
  cases hi : decodeImm (Width.ofBit w) tail with
  | none =>
    simp only [hi, dataAnswer] at hdata ⊢
    exact decodeHit_truncated hfit (hargs.trans (decodeArguments_wordData_error hdata))
  | some q =>
    obtain ⟨data, rest⟩ := q
    simp only [hi, dataAnswer] at hdata ⊢
    have hend : (sc.cursor + 8 * data.bytes.length) % 8 = 0 := by omega
    have hlen : (sc.cursor + 8 * data.bytes.length) / 8 = 1 + data.bytes.length := by omega
    refine ⟨_, decodeHit_ok hfit (hargs.trans (decodeArguments_wordData hdata)) hend ?_⟩
    rw [assemble_keeps (by exact hdst) hdir, hrow data (decodeImm_width hi), hlen]

/-- Format ACC_IMM (E8, E10, E12). -/
theorem decodeHit_immAcc {mn : Mnemonic} {row : Imm → Instr}
    (hrow : ∀ data, decodedOf (row data) =
      ⟨mn, .imm (immWord data), .reg (accumulator data.width), 1 + data.bytes.length⟩)
    (b0 : Byte) (tail : List Byte) :
    PipelineFinds (decodeData (Width.ofBit b0[0]) row tail) (decodeHit (immAccDefinition mn) b0 (b0 :: tail)) :=
  decodeHit_data (sc := Scratch.start (immAccDefinition mn)) rfl rfl rfl rfl rfl rfl rfl
    (fun data hwidth => hwidth ▸ hrow data)

/-- Format IMM_REG (E3). -/
theorem decodeHit_movImmReg (b0 : Byte) (tail : List Byte) :
    PipelineFinds
      (decodeData (Width.ofBit b0[3]) (.movImmReg (regName (Width.ofBit b0[3]) (lowField b0))) tail)
      (decodeHit movImmRegDefinition b0 (b0 :: tail)) := by
  have hfield : readField ((b0 :: tail).take 4) 5 3 = .ok (lowField b0) :=
    readField_byte (k := 0) (p := 5) (n := 3) (b := b0) rfl (by decide)
  have harg : decodeArgument ⟨none, none, some b0[3]⟩ ((b0 :: tail).take 4) .registerImplicit
      (Scratch.start movImmRegDefinition) =
      .ok ⟨8, none, false, false, .none, .reg (regName (Width.ofBit b0[3]) (lowField b0))⟩ := by
    have hc : (Scratch.start movImmRegDefinition).cursor = 5 := rfl
    simp only [decodeArgument, hc, hfield]
    rfl
  refine decodeHit_data rfl rfl rfl rfl (decodeArguments_cons_ok harg _) rfl rfl (fun data _ => ?_)
  rw [decodedOf, instrSource, immOperand_eq]
  simp only [encode, List.length_cons, Nat.add_comm]
  rfl

/-- The arguments of the format ACC_MEM: the address is the source (R132). -/
theorem decodeArguments_accMem (fl : FlagSet) (direction : Option Bool) (b0 : Byte) (tail : List Byte) :
    decodeArguments fl ((b0 :: tail).take 4) (accMemDefinition direction).args
      (Scratch.start (accMemDefinition direction)) =
      match tail with
      | lo :: hi :: _ => .ok ⟨24, none, false, false, .direct (le16 lo hi), .none⟩
      | _ => .error .truncated := by
  have hword := readWord_take (bs := b0 :: tail) (n := 4) (k := 1) (by decide)
  rw [List.drop_succ_cons, List.drop_zero] at hword
  have hc : (Scratch.start (accMemDefinition direction)).cursor = 8 * 1 := rfl
  rcases tail with _ | ⟨lo, _ | ⟨hi, tail⟩⟩
  · exact decodeArguments_cons_error (by simp only [decodeArgument, hc, hword]) []
  · exact decodeArguments_cons_error (by simp only [decodeArgument, hc, hword]) []
  · exact decodeArguments_cons_ok (by simp only [decodeArgument, hc, hword]; rfl) []

/-- Format ACC_MEM (E4, E5): the implied direction decides where the accumulator stands. -/
theorem decodeHit_accMem {direction : Option Bool} {row : Word → Instr} {b0 : Byte}
    (hrow : ∀ a, decodedOf (row a) =
      if direction = some false then ⟨.mov, .reg (accumulator (Width.ofBit b0[0])), .direct a, 3⟩
      else ⟨.mov, .direct a, .reg (accumulator (Width.ofBit b0[0])), 3⟩)
    (tail : List Byte) :
    PipelineFinds (decodeAddress row tail) (decodeHit (accMemDefinition direction) b0 (b0 :: tail)) := by
  have hargs := decodeArguments_accMem (extractFlags b0 (accMemDefinition direction)) direction b0 tail
  rcases tail with _ | ⟨lo, _ | ⟨hi, tail⟩⟩
  · exact decodeHit_truncated rfl hargs
  · exact decodeHit_truncated rfl hargs
  · refine ⟨_, decodeHit_ok rfl hargs (by simp) ?_⟩
    have hdst : defaultDestination (extractFlags b0 (accMemDefinition direction)) .none =
        .ok (.reg (accumulator (Width.ofBit b0[0]))) := rfl
    have hdir : directionValue (accMemDefinition direction) (extractFlags b0 (accMemDefinition direction)) =
        direction := rfl
    simp only [assemble, hdst, hdir, hrow]
    split <;> rfl

theorem jumpMnemonic_eq (b0 b1 : Byte) : (jumpInstr b0 b1).map instrMnemonic = jumpMnemonic b0 := by
  rw [jumpMnemonic, jumpInstr, jumpInstr]
  split <;> rfl

theorem decodedOf_jumpInstr {b0 b1 : Byte} {i : Instr} (h : jumpInstr b0 b1 = some i) :
    decodedOf i = ⟨instrMnemonic i, .none, .rel b1, 2⟩ := by
  rw [jumpInstr] at h
  split at h <;> cases h <;> rfl

/-- The arguments of a jump: its byte is the destination (R133). -/
theorem decodeArguments_jump (fl : FlagSet) (b0 : Byte) (mn : Mnemonic) (tail : List Byte) :
    decodeArguments fl ((b0 :: tail).take 3) (jumpDefinition b0 mn).args (Scratch.start (jumpDefinition b0 mn)) =
      match tail with
      | b1 :: _ => .ok ⟨16, none, false, true, .none, .rel b1⟩
      | [] => .error .truncated := by
  have hbyte := readByte_take (bs := b0 :: tail) (n := 3) (k := 1) (by decide)
  rw [List.drop_succ_cons, List.drop_zero] at hbyte
  have hexplicit : decodeArgument fl ((b0 :: tail).take 3) (.registerExplicit (lowField b0))
      (Scratch.start (jumpDefinition b0 mn)) = .ok ⟨8 * 1, none, false, true, .none, .none⟩ := rfl
  refine (decodeArguments_cons_ok hexplicit _).trans ?_
  cases tail with
  | nil => exact decodeArguments_cons_error (by simp only [decodeArgument, hbyte]) []
  | cons b1 tail => exact decodeArguments_cons_ok (by simp only [decodeArgument, hbyte]) []

/-- Format JMP (E13 to E15). -/
theorem decodeHit_jump {b0 b1 : Byte} {i : Instr} (h : jumpInstr b0 b1 = some i) (tail : List Byte) :
    PipelineFinds (decodeJump b0 (b1 :: tail))
      (decodeHit (jumpDefinition b0 (instrMnemonic i)) b0 (b0 :: b1 :: tail)) := by
  simp only [decodeJump, h]
  refine ⟨_, decodeHit_ok rfl (decodeArguments_jump _ b0 (instrMnemonic i) (b1 :: tail)) (by simp) ?_⟩
  rw [decodedOf_jumpInstr h]
  have hdir : directionValue (jumpDefinition b0 (instrMnemonic i))
      (extractFlags b0 (jumpDefinition b0 (instrMnemonic i))) ≠ some false :=
    show (none : Option Bool) ≠ some false by decide
  rw [assemble_keeps (defaultDestination_keeps Operand.noConfusion _) hdir]
  simp [jumpDefinition]

/-! ## The walker's iteration over the ROM -/

theorem iterate_hit {schema : Schema} {b0 : Byte} {tail : List Byte} {d : InstructionDefinition}
    (h : opcodeMatch schema b0 tail.head? = .ok (some d)) :
    iterate schema (b0 :: tail) = decodeHit d b0 (b0 :: tail) := by
  simp only [iterate, h]

theorem iterate_skip {schema : Schema} {b0 : Byte} {tail : List Byte}
    (h : opcodeMatch schema b0 tail.head? = .ok none) : iterate schema (b0 :: tail) = .ok .skip := by
  simp only [iterate, h]

/-- A group byte and what follows it. -/
theorem pipelineFinds_group {b0 : Byte} (hg : firstByte b0 = .group) (tail : List Byte) :
    PipelineFinds (decodeGroup b0[1] (Width.ofBit b0[0]) tail) (iterate romSchema (b0 :: tail)) := by
  cases tail with
  | nil =>
    show iterate romSchema [b0] = .error .truncated
    simp [iterate, opcodeMatch_group_none hg]
  | cons b1 tail =>
    have hom : opcodeMatch romSchema b0 (b1 :: tail).head? = _ := opcodeMatch_group_some hg b1
    cases hrow : groupInstr (regField b1) with
    | none =>
      rw [iterate_skip (by rw [hom, groupMnemonic, hrow]; rfl)]
      simp only [decodeGroup, hrow]
      rfl
    | some row =>
      obtain ⟨mn, hmn, hdecoded⟩ := decodedOf_groupInstr hrow
      rw [iterate_hit (by rw [hom, hmn]; rfl)]
      exact decodeHit_group hdecoded hrow

theorem firstByte_of_romDefinition_none {b0 : Byte} (hg : firstByte b0 ≠ .group) (h : romDefinition b0 = none) :
    firstByte b0 = .unmatched := by
  revert b0
  decide

/-- Outside the group, the first byte's definition leads to what the decoder reads in the first byte's format. -/
theorem pipelineFinds_romDefinition {b0 : Byte} {d : InstructionDefinition} (h : romDefinition b0 = some d)
    (tail : List Byte) : PipelineFinds (decode (b0 :: tail)) (decodeHit d b0 (b0 :: tail)) := by
  rw [romDefinition] at h
  rw [decode]
  generalize firstByte b0 = format at h ⊢
  cases format with
  | rmReg op => cases h; exact decodeHit_rmReg op b0 tail
  | movImmRm => cases h; exact decodeHit_movImmRm b0 tail
  | movImmReg => cases h; exact decodeHit_movImmReg b0 tail
  | movMemAcc => cases h; exact decodeHit_accMem (fun _ => rfl) tail
  | movAccMem => cases h; exact decodeHit_accMem (fun _ => rfl) tail
  | addImmAcc => cases h; exact decodeHit_immAcc (fun data => by cases data <;> rfl) b0 tail
  | subImmAcc => cases h; exact decodeHit_immAcc (fun data => by cases data <;> rfl) b0 tail
  | cmpImmAcc => cases h; exact decodeHit_immAcc (fun data => by cases data <;> rfl) b0 tail
  | jump =>
    obtain ⟨mn, hmn, rfl⟩ := Option.map_eq_some_iff.mp h
    cases tail with
    | nil => exact decodeHit_truncated rfl (decodeArguments_jump _ b0 mn [])
    | cons b1 tail =>
      obtain ⟨i, hi, rfl⟩ := Option.map_eq_some_iff.mp ((jumpMnemonic_eq b0 b1).trans hmn)
      exact decodeHit_jump hi tail
  | group => cases h
  | unmatched => cases h

/-- Two readings of the spec agree: one iteration of the pipeline over the ROM finds what the decoder of the format
tables finds. -/
theorem pipelineFinds_decode (b0 : Byte) (tail : List Byte) :
    PipelineFinds (decode (b0 :: tail)) (iterate romSchema (b0 :: tail)) := by
  by_cases hg : firstByte b0 = .group
  · rw [decode]
    simp only [hg]
    exact pipelineFinds_group hg tail
  · have hom := opcodeMatch_romSchema hg tail.head?
    cases hdef : romDefinition b0 with
    | none =>
      rw [iterate_skip (hom.trans (congrArg _ hdef)), decode]
      simp only [firstByte_of_romDefinition_none hg hdef]
      rfl
    | some d =>
      rw [iterate_hit (hom.trans (congrArg _ hdef))]
      exact pipelineFinds_romDefinition hdef tail

end Sys2Proof.Machine
end

section
/-! Runs: the walk over the ROM, the hand-over, and the execution of a list of rows (10_state.md R50 to R54,
60_exceptions.md R307). -/

namespace Sys2Proof.Machine

/-! ## The walker over the ROM -/

theorem two_le_encode_length (i : Instr) : 2 ≤ (encode i).length := by
  cases i with
  | movRmReg d reg rm | addRmReg d reg rm | subRmReg d reg rm | cmpRmReg d reg rm =>
    exact (Laws.encodeRmReg_length _ d reg rm).1
  | addImmRm rm data | subImmRm rm data | cmpImmRm rm data =>
    exact Nat.le_trans (by decide) (Laws.encodeGroup_length _ rm data).1
  | addImmAcc data | subImmAcc data | cmpImmAcc data => exact (Laws.encodeImmAcc_length _ data).1
  | movImmRm unchecked rm data => exact (Laws.Length.movImmRm unchecked rm data).1
  | movImmReg reg data => exact (Laws.Length.movImmReg reg data).1
  | movMemAcc w a | movAccMem w a => exact Nat.le_succ 2
  | _ => exact Nat.le_refl 2

theorem iterate_of_decode_hit {bs rest : List Byte} {i : Instr} (h : decode bs = .hit i rest) :
    ∃ sc, iterate romSchema bs = .ok (.hit (decodedOf i) sc) := by
  cases bs with
  | nil => cases h
  | cons b0 tail =>
    have hfinds := pipelineFinds_decode b0 tail
    rwa [h] at hfinds

theorem decode_of_iterate_hit {bs : List Byte} {d : DecodedInstruction} {sc : Scratch}
    (h : iterate romSchema bs = .ok (.hit d sc)) : ∃ i rest, decode bs = .hit i rest ∧ d = decodedOf i := by
  cases bs with
  | nil => cases h
  | cons b0 tail =>
    have hfinds := pipelineFinds_decode b0 tail
    cases hdec : decode (b0 :: tail) with
    | hit i rest =>
      rw [hdec] at hfinds
      obtain ⟨sc', hit⟩ := hfinds
      cases h.symm.trans hit
      exact ⟨i, rest, rfl, rfl⟩
    | unmatched =>
      rw [hdec] at hfinds
      cases h.symm.trans hfinds
    | truncated =>
      rw [hdec] at hfinds
      cases h.symm.trans hfinds

theorem listing_of_decode_hit {bs rest : List Byte} {i : Instr} (h : decode bs = .hit i rest) (idx : Nat) :
    listing idx bs (decodedOf i) = .row idx i := by
  simp [listing, h]

/-- Where the stream holds an instruction at the cursor, the walker lists its row and passes over its bytes. -/
theorem step_of_decode_hit {s : State} (hphase : s.phase = .decoding) (hschema : s.schema = romSchema) {i : Instr}
    {rest : List Byte} (h : decode (Memory.bytesFrom s.mem s.idx) = .hit i rest) :
    ∃ sc, step s = .next { s with
      decoded := s.decoded ++ [.row s.idx i], scratch := sc, idx := s.idx + (encode i).length } := by
  obtain ⟨sc, hit⟩ := iterate_of_decode_hit h
  refine ⟨sc, ?_⟩
  rw [step_decoding hphase, walkStep, hschema, hit]
  simp only [listing_of_decode_hit h]
  rfl

theorem step_of_no_bytes {s : State} (hphase : s.phase = .decoding) (h : Memory.bytesFrom s.mem s.idx = []) :
    step s = .next s.endWalk := by
  rw [step_decoding hphase, walkStep, h, iterate_nil]

/-- The end of the walk leaves the decoding phase. -/
theorem State.endWalk_phase (s : State) : s.endWalk.phase ≠ .decoding := by
  cases hm : s.mode <;> simp [State.endWalk, hm]

/-- An iteration after which decoding goes on skips a byte or lists what it decoded. -/
theorem walkStep_goes_on {s t : State} (h : walkStep s = .next t) (hphase : t.phase = .decoding) :
    t = { s with idx := s.idx + 1 } ∨
    ∃ d sc, iterate s.schema (Memory.bytesFrom s.mem s.idx) = .ok (.hit d sc) ∧
      t = { s with
        decoded := s.decoded ++ [listing s.idx (Memory.bytesFrom s.mem s.idx) d]
        scratch := sc
        idx := s.idx + d.length } := by
  obtain ⟨f, -, hw⟩ | ⟨-, hw⟩ | ⟨-, hw⟩ | ⟨d, sc, hit, hw⟩ := walkStep_cases s <;> rw [hw] at h
  · cases f <;> cases h
  · cases h
    exact absurd hphase s.endWalk_phase
  · cases h
    exact .inl rfl
  · cases h
    exact .inr ⟨d, sc, hit, rfl⟩

/-- Settles O22: a skip moves the cursor by 1, and over the ROM a decoded instruction is a row, of at least 2 bytes. -/
theorem cursorOnlyAdvances : Obligations.CursorOnlyAdvances := by
  intro s t hs hschema hstep ht
  rw [step_decoding hs] at hstep
  obtain rfl | ⟨d, sc, hit, rfl⟩ := walkStep_goes_on hstep ht
  · exact .inl ⟨rfl, rfl⟩
  · rw [hschema] at hit
    obtain ⟨i, -, -, rfl⟩ := decode_of_iterate_hit hit
    exact .inr ⟨Nat.add_le_add_left (two_le_encode_length i) s.idx, _, rfl⟩

/-- Settles O24: what goes on is a skip or a hit, and neither touches anything but cursor, scratch and output list. -/
theorem walkerFrame : Obligations.WalkerFrame := by
  intro s t hs hstep ht
  rw [step_decoding hs] at hstep
  obtain rfl | ⟨d, sc, -, rfl⟩ := walkStep_goes_on hstep ht
  · exact ⟨rfl, rfl, rfl, rfl, rfl, rfl, rfl, rfl, fun _ => rfl⟩
  · exact ⟨rfl, rfl, rfl, rfl, rfl, rfl, rfl, rfl, fun _ => rfl⟩

/-! ## Steps in a row -/

theorem run_succ_of_next {s t : State} (h : step s = .next t) (n : Nat) :
    Host.Core.run core (n + 1) s = Host.Core.run core n t := by
  have hcore : core.step s = .next t := h
  simp only [Host.Core.run, hcore]

theorem run_succ_of_fault {s : State} {f : Fault} (h : step s = .fault f) (n : Nat) :
    Host.Core.run core (n + 1) s = .fault f := by
  have hcore : core.step s = .fault f := h
  simp only [Host.Core.run, hcore]

theorem run_succ_of_refused {s : State} {r : Refusal} (h : step s = .refused r) (n : Nat) :
    Host.Core.run core (n + 1) s = .refused r := by
  have hcore : core.step s = .refused r := h
  simp only [Host.Core.run, hcore]

theorem run_add_of_next {n : Nat} {s t : State} (h : Host.Core.run core n s = .next t) (m : Nat) :
    Host.Core.run core (n + m) s = Host.Core.run core m t := by
  induction n generalizing s with
  | zero =>
    cases h
    rw [Nat.zero_add]
  | succ n ih =>
    rw [Nat.succ_add_eq_add_succ, Nat.add_succ]
    cases hs : step s with
    | next u =>
      rw [run_succ_of_next hs] at h ⊢
      exact ih h
    | fault f => cases (run_succ_of_fault hs n).symm.trans h
    | refused r => cases (run_succ_of_refused hs n).symm.trans h

/-- The walk over instructions that stand one after another, from the cursor to the end of the stream. -/
theorem run_walk {is : List Instr} (hwf : ∀ i ∈ is, i.wf = true) {s : State} (hphase : s.phase = .decoding)
    (hschema : s.schema = romSchema) (hmem : Memory.wf s.mem = true)
    (hbytes : Memory.bytesFrom s.mem s.idx = Spec.encodeAll is) :
    ∃ sc, Host.Core.run core is.length s = .next { s with
      decoded := s.decoded ++ Spec.rowsFrom s.idx is, scratch := sc, idx := s.idx + (Spec.encodeAll is).length } := by
  induction is generalizing s with
  | nil => exact ⟨s.scratch, by simp [Host.Core.run, Spec.rowsFrom, Spec.encodeAll]⟩
  | cons i is ih =>
    obtain ⟨hi, his⟩ := List.forall_mem_cons.mp hwf
    have hdecode : decode (Memory.bytesFrom s.mem s.idx) = .hit i (Spec.encodeAll is) := by
      rw [hbytes]
      exact decode_encode hi _
    obtain ⟨sc, hstep⟩ := step_of_decode_hit hphase hschema hdecode
    have hrest : Memory.bytesFrom s.mem (s.idx + (encode i).length) = Spec.encodeAll is := by
      rw [Memory.bytesFrom_add _ _ _ hmem, hbytes, Spec.encodeAll, List.drop_left]
    obtain ⟨sc', hrun⟩ := ih his
      (s := { s with decoded := s.decoded ++ [.row s.idx i], scratch := sc, idx := s.idx + (encode i).length })
      hphase hschema hmem hrest
    refine ⟨sc', ?_⟩
    rw [List.length_cons, run_succ_of_next hstep, hrun]
    simp [Spec.rowsFrom, Spec.encodeAll, Nat.add_assoc]

/-! ## The Execution Unit over a list of rows -/

theorem exec_eq_execMnemonic (i : Instr) (s : State) :
    exec i s = execMnemonic (instrMnemonic i) (.structured (instrDestination i)) (.structured (instrSource i)) s :=
  exec_eq_execDecoded i s

/-- What a step that completes has done: a branch nothing but its record, `cmp` the flags, `mov`, `add` and `sub`
registers and flags, and each of these four has a register's record. -/
theorem execMnemonic_next {m : Mnemonic} {dst src : EuOperand} {s t : State}
    (h : execMnemonic m dst src s = .next t) :
    (m ∉ Spec.executed ∧ t = s.retire none) ∨
    (m = .cmp ∧ ∃ flags r, t = State.retire { s with flags := flags } (some r)) ∨
    (m ∈ [.mov, .add, .sub] ∧
      ∃ regs flags r, t = State.retire { s with regs := regs, flags := flags } (some r)) := by
  cases m with
  | mov =>
    obtain ⟨k, hk⟩ | ⟨regs, r, hn⟩ := movOp_cases dst src s
    · cases hk.symm.trans h
    · cases hn.symm.trans h
      exact .inr (.inr ⟨by decide, regs, s.flags, r, rfl⟩)
  | add | sub =>
    obtain ⟨k, hk⟩ | ⟨regs, flags, r, hn⟩ := addSubOp_cases _ dst src s
    · cases hk.symm.trans h
    · cases hn.symm.trans h
      exact .inr (.inr ⟨by decide, regs, flags, r, rfl⟩)
  | cmp =>
    obtain ⟨k, hk⟩ | ⟨flags, r, hn⟩ := cmpOp_cases dst src s
    · cases hk.symm.trans h
    · cases hn.symm.trans h
      exact .inr (.inl ⟨rfl, flags, r, rfl⟩)
  | _ =>
    cases h
    exact .inl ⟨by decide, rfl⟩

/-- What the execution of a row can change. -/
theorem exec_next {i : Instr} {s t : State} (h : exec i s = .next t) :
    ∃ regs flags r, t = State.retire { s with regs := regs, flags := flags } r := by
  rw [exec_eq_execMnemonic] at h
  obtain ⟨-, rfl⟩ | ⟨-, flags, r, rfl⟩ | ⟨-, regs, flags, r, rfl⟩ := execMnemonic_next h
  · exact ⟨s.regs, s.flags, none, rfl⟩
  · exact ⟨s.regs, flags, some r, rfl⟩
  · exact ⟨regs, flags, some r, rfl⟩

/-- The steps over the rows that are left are their executions, in list order, up to the first fault. -/
theorem run_execute {is : List Instr} {k : Nat} {s : State} (hphase : s.phase = .executing)
    (hprogram : s.program.drop s.pos = Spec.rowsFrom k is) :
    Host.Core.run core is.length s = Spec.execAll is s := by
  induction is generalizing k s with
  | nil => rfl
  | cons i is ih =>
    have hrow : s.program[s.pos]? = some (.row k i) := by
      rw [← List.head?_drop, hprogram]
      rfl
    have hstep : step s = exec i s := (step_executing hphase).trans (executeStep_listed hrow)
    rw [List.length_cons, Spec.execAll]
    cases hexec : exec i s with
    | next t =>
      rw [run_succ_of_next (hstep.trans hexec)]
      obtain ⟨regs, flags, r, rfl⟩ := exec_next hexec
      refine ih hphase (k := k + (encode i).length) ?_
      simp only [State.retire_program, State.retire_pos]
      rw [← List.drop_drop, hprogram]
      rfl
    | fault f => exact run_succ_of_fault (hstep.trans hexec) _
    | refused r => exact run_succ_of_refused (hstep.trans hexec) _

/-- The state in which the direct path starts to execute the rows of a stream (70_reset_and_hazards.md R340). -/
def directStart (is : List Instr) : State :=
  { State.reset with
    mem := Memory.ofBytes (Spec.encodeAll is), program := Spec.rowsFrom 0 is, phase := .executing }

/-- The walk over the whole stream and the hand-over after it. -/
theorem run_loadStream_direct {is : List Instr} (hwf : ∀ i ∈ is, i.wf = true) :
    Host.Core.run core (is.length + 1) (State.loadStream .direct (Spec.encodeAll is)) = .next (directStart is) := by
  obtain ⟨sc, hwalk⟩ := run_walk hwf (s := State.loadStream .direct (Spec.encodeAll is)) rfl rfl
    (Memory.ofBytes_wf _) (Memory.bytesFrom_ofBytes _ 0)
  rw [run_add_of_next hwalk]
  refine run_succ_of_next ((step_of_no_bytes rfl ?_).trans rfl) 0
  simp [State.loadStream, State.reset]

/-- Settles O30: the walk lists the rows, its end hands them over, and each step after it executes the next row. -/
theorem directRunExecutesInOrder : Obligations.DirectRunExecutesInOrder := by
  intro is hwf
  rw [run_add_of_next (run_loadStream_direct hwf)]
  exact run_execute (k := 0) rfl rfl

end Sys2Proof.Machine
end

section
/-! Registers, flags and completed instructions (10_state.md R31 to R39, R53, 40_mov.md R200). -/

namespace Sys2Proof.Machine

/-! ## Values in plain arithmetic -/

/-- A register's value is `256 * hi + lo` (R31). -/
theorem BytePair.toNat_toWord (p : BytePair) : p.toWord.toNat = Spec.pairValue p := by
  have hlo : p.lo.toNat < 2 ^ 8 := p.lo.isLt
  rw [toWord, BitVec.toNat_append, Spec.pairValue, ← Nat.shiftLeft_add_eq_or_of_lt hlo, Nat.shiftLeft_eq,
    Nat.mul_comm]

theorem BytePair.ofNat_pairValue (p : BytePair) : BitVec.ofNat 16 (Spec.pairValue p) = p.toWord := by
  rw [← toNat_toWord, BitVec.ofNat_toNat, BitVec.setWidth_eq]

theorem toNat_lowByte (v : Word) : (lowByte v).toNat = v.toNat % 256 := by
  simp [lowByte, BitVec.extractLsb'_toNat]

theorem toNat_highByte (v : Word) : (highByte v).toNat = v.toNat / 256 := by
  have hv : v.toNat < 65536 := v.isLt
  simp only [highByte, BitVec.extractLsb'_toNat, Nat.shiftRight_eq_div_pow]
  omega

theorem lowByte_eq_ofNat (v : Word) : lowByte v = BitVec.ofNat 8 (v.toNat % 256) := by
  rw [← toNat_lowByte, BitVec.ofNat_toNat, BitVec.setWidth_eq]

theorem highByte_eq_ofNat (v : Word) : highByte v = BitVec.ofNat 8 (v.toNat / 256) := by
  rw [← toNat_highByte, BitVec.ofNat_toNat, BitVec.setWidth_eq]

/-- A write in plain arithmetic (R34). -/
theorem BytePair.write_eq_writtenPair (p : BytePair) (m : AccessMode) (v : Word) :
    p.write m v = Spec.writtenPair m p v.toNat := by
  cases m with
  | universal => simp [ofWord, Spec.writtenPair, Spec.pairOf, lowByte_eq_ofNat, highByte_eq_ofNat]
  | high => simp [write, Spec.writtenPair, lowByte_eq_ofNat]
  | low => simp [write, Spec.writtenPair, lowByte_eq_ofNat]

/-- A read of a half is the half's value (R33). -/
theorem toNat_zext16 (b : Byte) : (zext16 b).toNat = b.toNat := BitVec.toNat_setWidth_of_le (by decide)

/-- The flags in plain arithmetic (R39). -/
theorem flagsOf_eq (v : Word) : flagsOf v = ⟨decide (v.toNat = 0), decide (0x8000 ≤ v.toNat)⟩ := by
  have hzero : (v == 0#16) = decide (v.toNat = 0) := by
    rw [Bool.eq_iff_iff]
    simp [BitVec.toNat_eq]
  rw [flagsOf, hzero, BitVec.msb_eq_decide]

/-! ## Reset, reads and writes -/

/-- Settles O27: every field of the reset state is the table's value. -/
theorem resetHoldsTheTable : Obligations.ResetHoldsTheTable := by
  refine ⟨fun r => ?_, rfl, rfl, rfl, rfl, rfl, rfl, fun _ => rfl⟩
  cases r <;> rfl

/-- Settles O35: a 16-bit name reads both halves of its register, an 8-bit name one half of its parent. -/
theorem namesReadTheirHalves : Obligations.NamesReadTheirHalves := by
  intro f
  have hhalf := toNat_zext16
  exact ⟨fun r => (f.get r).toNat_toWord, hhalf _, hhalf _, hhalf _, hhalf _, hhalf _, hhalf _, hhalf _, hhalf _⟩

/-- Settles O36: the written pair in plain arithmetic, and the laws of the register file for the other registers. -/
theorem writesStayInTheirHalf : Obligations.WritesStayInTheirHalf := by
  intro f name v
  refine ⟨?_, fun q hq => RegFile.get_write_other f name v q hq⟩
  rw [RegFile.get_write_same, BytePair.write_eq_writtenPair]

/-! ## Text names every 16-bit register -/

theorem operandCheck_regText_decText (f : RegFile) (r : Reg16) (v : Word) :
    operandCheck f (.text (reg16Text r)) (.text (decText v.toNat)) = .ok (.r16 r, v) := by
  have hdst : interpret (reg16Text r) = .ok (.reg (.r16 r)) := interpret_regText (.r16 r)
  simp [operandCheck, operandOf, hdst, destCheck, srcValue, RegName.width, truncateTo]

/-- The state after a `mov`, in plain arithmetic (40_mov.md R205). -/
theorem movOp_eq_movState {dst src : EuOperand} {s : State} {name : RegName} {v : Word}
    (h : operandCheck s.regs dst src = .ok (name, v)) :
    movOp dst src s = .next (Spec.movState name v.toNat s) := by
  rw [movOp_of_check h, Spec.movState, RegFile.word, RegFile.word, RegFile.get_write_same, RegFile.write_eq,
    BytePair.write_eq_writtenPair]
  simp only [BytePair.ofNat_pairValue]
  rfl

/-- Settles O58: the name reads as its register, the number as its value, and the checks pass. -/
theorem segmentRegistersTakeText : Obligations.SegmentRegistersTakeText := by
  intro r v n s
  have hmov : mnemonicOfText ['m', 'o', 'v'] = some .mov := mnemonicOfText_mnemonicText .mov
  simp only [execLine, hmov]
  exact movOp_eq_movState (operandCheck_regText_decText s.regs r v)

/-! ## Completed instructions -/

/-- Settles O50: a branch only retires, and `cmp` writes only the flags. -/
theorem cmpAndBranchFrame : Obligations.CmpAndBranchFrame := by
  intro i s t hm h
  rw [exec_eq_execMnemonic] at h
  obtain ⟨-, rfl⟩ | ⟨hcmp, flags, r, rfl⟩ | ⟨hmas, -⟩ := execMnemonic_next h
  · exact ⟨rfl, fun _ => rfl, rfl, rfl, rfl, rfl, rfl, rfl, rfl, rfl, fun _ => rfl⟩
  · exact ⟨rfl, fun hne => absurd hcmp hne, rfl, rfl, rfl, rfl, rfl, rfl, rfl, rfl, fun _ => rfl⟩
  · exact absurd hmas hm

/-- Settles O51: every completed step retires, with a register's record unless it is a branch. -/
theorem controlNeverTransfers : Obligations.ControlNeverTransfers := by
  intro i s t h
  rw [exec_eq_execMnemonic] at h
  obtain ⟨hbranch, rfl⟩ | ⟨hcmp, flags, r, rfl⟩ | ⟨hmas, regs, flags, r, rfl⟩ := execMnemonic_next h
  · exact ⟨rfl, none, rfl, iff_of_true rfl hbranch⟩
  · exact ⟨rfl, some r, rfl, iff_of_false (Option.some_ne_none r) (not_not_intro (hcmp ▸ by decide))⟩
  · exact ⟨rfl, some r, rfl, iff_of_false (Option.some_ne_none r)
      (not_not_intro (List.mem_append_left [Mnemonic.cmp] hmas))⟩

/-- Checks that pass name the destination register. -/
theorem operandCheck_destination {f : RegFile} {op : Operand} {src : EuOperand} {name : RegName} {v : Word}
    (h : operandCheck f (.structured op) src = .ok (name, v)) : op = .reg name := by
  simp only [operandCheck, operandOf] at h
  cases op with
  | reg r =>
    simp only [destCheck] at h
    split at h
    · cases h
    · split at h
      · cases h
      · cases h; rfl
  | none | imm | rel | mem | direct => cases h

/-- What an `add` or `sub` that completes has done, with `p` the pair it wrote (41_arith.md R220). -/
theorem addSubOp_next {op : AluOp} {d : Operand} {src : EuOperand} {s t : State}
    (h : addSubOp op (.structured d) src s = .next t) :
    ∃ name p, d = .reg name ∧ t = State.retire
      { s with regs := s.regs.set (resolve name).1 p, flags := flagsOf p.toWord }
      (some ⟨(resolve name).1, s.regs.word (resolve name).1, p.toWord⟩) := by
  cases hcheck : operandCheck s.regs (.structured d) src with
  | error k => cases (addSubOp_of_error hcheck).symm.trans h
  | ok q =>
    obtain ⟨name, v⟩ := q
    cases (addSubOp_of_check hcheck).symm.trans h
    exact ⟨name, _, operandCheck_destination hcheck, rfl⟩

/-- What a `cmp` that completes has done, with `p` the copy that it compares (41_arith.md R223). -/
theorem cmpOp_next {d : Operand} {src : EuOperand} {s t : State} (h : cmpOp (.structured d) src s = .next t) :
    ∃ (name : RegName) (p : BytePair), d = .reg name ∧ t = State.retire { s with flags := flagsOf p.toWord }
      (some ⟨(resolve name).1, s.regs.word (resolve name).1, p.toWord⟩) := by
  cases hcheck : operandCheck s.regs (.structured d) src with
  | error k => cases (cmpOp_of_error hcheck).symm.trans h
  | ok q =>
    obtain ⟨name, v⟩ := q
    cases (cmpOp_of_check hcheck).symm.trans h
    exact ⟨name, _, operandCheck_destination hcheck, rfl⟩

/-- Settles O37: the flags are those of the pair that the step wrote, or for `cmp` of its copy, and the record
holds that pair's value. -/
theorem flagsReadTheWholeRegister : Obligations.FlagsReadTheWholeRegister := by
  intro i s t hm h
  rw [exec_eq_execMnemonic] at h
  cases hmn : instrMnemonic i with
  | add | sub =>
    rw [hmn] at h
    obtain ⟨name, p, hdst, rfl⟩ := addSubOp_next h
    refine ⟨name, _, hdst, rfl, rfl, rfl, ?_, ?_, fun _ => ?_, fun hcmp => by cases hcmp⟩
    · simp [flagsOf_eq]
    · simp [flagsOf_eq]
    · simp [RegFile.word]
  | cmp =>
    rw [hmn] at h
    obtain ⟨name, p, hdst, rfl⟩ := cmpOp_next h
    refine ⟨name, _, hdst, rfl, rfl, rfl, ?_, ?_, fun hne => absurd rfl hne, fun _ => rfl⟩
    · simp [flagsOf_eq]
    · simp [flagsOf_eq]
  | _ => exact absurd hm (by simp [hmn])

end Sys2Proof.Machine
end

section
/-! The encoder gives back the bytes that the decoder read, and what it read is well formed (30_encoding.md R91, R92,
R100, R105 to R107, R118). -/

namespace Sys2Proof.Machine

/-! ## Registers, bases and the mode byte -/

theorem regName_encodable (w : Width) (r : BitVec 3) : (regName w r).encodable = true := by
  cases w <;> revert r <;> decide

@[simp] theorem regName_width (w : Width) (r : BitVec 3) : (regName w r).width = w := by
  cases w <;> revert r <;> decide

@[simp] theorem field_regName (w : Width) (r : BitVec 3) : (regName w r).field = r := by
  cases w <;> revert r <;> decide

@[simp] theorem field_baseOf (r : BitVec 3) : (baseOf r).field = r := by
  revert r; decide

theorem baseOf_ne_bp {r : BitVec 3} (h : r ≠ 0b110#3) : baseOf r ≠ .bp := by
  revert r; decide

@[simp] theorem modeByte_fields (b : Byte) : modeByte (modeField b) (regField b) (lowField b) = b := by
  revert b; decide

@[simp] theorem Width.bit_ofBit (b : Bool) : (Width.ofBit b).bit = b := by
  cases b <;> rfl

@[simp] theorem leBytes_le16 (lo hi : Byte) : leBytes (le16 lo hi) = [lo, hi] := by
  simp [leBytes, le16]

/-! ## Operands and data -/

/-- The decoder makes a well-formed operand: with mode 00 and r/m 110 it reads the direct address and not the base `bp`
(R107, R125). -/
theorem decodeRm_wf {w : Width} {mode : BitVec 2} {r : BitVec 3} {bs rest : List Byte} {rm : RmOperand}
    (h : decodeRm w mode r bs = some (rm, rest)) : rm.wf w = true ∧ rm.field = r := by
  rw [decodeRm.eq_def] at h
  split at h
  · split at h
    next hr =>
      split at h <;> cases h
      exact ⟨rfl, hr.symm⟩
    next hr =>
      cases h
      exact ⟨bne_iff_ne.mpr (baseOf_ne_bp hr), field_baseOf r⟩
  · cases h
    exact ⟨rfl, field_baseOf r⟩
  · cases h
  · cases h
    exact ⟨rfl, field_baseOf r⟩
  · cases h
  · cases h
    exact ⟨by simp [RmOperand.wf, regName_encodable], field_regName w r⟩

/-- What stands after a first byte in the formats with a mode byte is that byte, the operand's bytes, and the rest. -/
theorem modeByte_of_decodeRm {w : Width} {b1 : Byte} {tail rest : List Byte} {rm : RmOperand}
    (h : decodeRm w (modeField b1) (lowField b1) tail = some (rm, rest)) :
    modeByte rm.mode (regField b1) rm.field :: (rm.bytes ++ rest) = b1 :: tail := by
  obtain ⟨hmode, hbytes⟩ := decodeRm_eq_some h
  rw [hmode, (decodeRm_wf h).2, modeByte_fields, hbytes]

theorem decodeImm_eq_some {w : Width} {bs rest : List Byte} {data : Imm} (h : decodeImm w bs = some (data, rest)) :
    data.width = w ∧ data.bytes ++ rest = bs := by
  refine ⟨decodeImm_width h, ?_⟩
  rw [decodeImm.eq_def] at h
  split at h <;> cases h <;> simp [Imm.bytes]

theorem decodeGrpImm_eq_some {s : Bool} {w : Width} {bs rest : List Byte} {data : GrpImm}
    (h : decodeGrpImm s w bs = some (data, rest)) :
    data.signBit = s ∧ data.width = w ∧ data.bytes ++ rest = bs := by
  rw [decodeGrpImm.eq_def] at h
  split at h <;> cases h <;> simp [GrpImm.signBit, GrpImm.width, GrpImm.bytes]

theorem rmDataResult_hit {δ : Type} {dec : List Byte → Option (δ × List Byte)} {row : RmOperand → δ → Instr}
    {x : Option (RmOperand × List Byte)} {i : Instr} {rest : List Byte} (h : rmDataResult dec row x = .hit i rest) :
    ∃ rm mid data, x = some (rm, mid) ∧ dec mid = some (data, rest) ∧ i = row rm data := by
  obtain _ | ⟨rm, mid⟩ := x
  · cases h
  · rw [rmDataResult] at h
    split at h
    next data rest' hdec =>
      cases h
      exact ⟨rm, mid, data, rfl, hdec, rfl⟩
    next => cases h

/-! ## Formats -/

/-- The six fixed bits of an operation in the format RM (R100). -/
def rmOpcode : Operation → BitVec 6
  | .mov => 0b100010#6
  | .add => 0b000000#6
  | .sub => 0b001010#6
  | .cmp => 0b001110#6

/-- Every bit of a first byte of the format RM is fixed, the direction or the width. -/
theorem opcode6_of_rmReg {b0 : Byte} {op : Operation} (h : firstByte b0 = .rmReg op) :
    opcode6 (rmOpcode op) b0[1] b0[0] = b0 := by
  cases op <;> revert b0 <;> decide

theorem opcode6_of_group {b0 : Byte} (h : firstByte b0 = .group) : opcode6 0b100000#6 b0[1] b0[0] = b0 := by
  revert b0; decide

theorem encode_rmRegInstr (op : Operation) (d : Bool) (reg : RegName) (rm : RmOperand) :
    encode (rmRegInstr op d reg rm) = encodeRmReg (rmOpcode op) d reg rm := by
  cases op <;> rfl

theorem wf_rmRegInstr (op : Operation) (d : Bool) (reg : RegName) (rm : RmOperand) :
    (rmRegInstr op d reg rm).wf = (reg.encodable && rm.wf reg.width) := by
  cases op <;> rfl

/-- The row that a register field selects in the group is well formed with its operand, and holds that field (R113). -/
theorem encode_groupInstr {eee : BitVec 3} {row : RmOperand → GrpImm → Instr} (h : groupInstr eee = some row)
    (rm : RmOperand) (data : GrpImm) :
    (row rm data).wf = rm.wf data.width ∧ encode (row rm data) = encodeGroup eee rm data := by
  have heee : eee = BitVec.ofNat 3 eee.toNat := by simp
  rw [heee]
  rw [groupInstr] at h
  generalize eee.toNat = n at h ⊢
  split at h <;> cases h <;> exact ⟨rfl, rfl⟩

/-- Format RM. -/
theorem encode_decodeRmReg {op : Operation} {b0 : Byte} {tail rest : List Byte} {i : Instr}
    (hop : firstByte b0 = .rmReg op) (h : decodeRmReg op b0[1] (Width.ofBit b0[0]) tail = .hit i rest) :
    i.wf = true ∧ encode i ++ rest = b0 :: tail := by
  obtain _ | ⟨b1, tail⟩ := tail
  · cases h
  · rw [decodeRmReg] at h
    split at h
    next rm mid hrm =>
      cases h
      have hbytes := modeByte_of_decodeRm hrm
      refine ⟨?_, ?_⟩
      · simp [wf_rmRegInstr, regName_encodable, (decodeRm_wf hrm).1]
      · simp [encode_rmRegInstr, encodeRmReg, opcode6_of_rmReg hop, hbytes]
    next => cases h

/-- Format IMM_RM: the field that the matcher does not check is kept (R118). -/
theorem encode_decodeMovImmRm {b0 : Byte} {tail rest : List Byte} {i : Instr} (hop : firstByte b0 = .movImmRm)
    (h : decodeMovImmRm (Width.ofBit b0[0]) tail = .hit i rest) : i.wf = true ∧ encode i ++ rest = b0 :: tail := by
  obtain _ | ⟨b1, tail⟩ := tail
  · cases h
  · have hfirst : ∀ b0, firstByte b0 = .movImmRm → opcode7 0b1100011#7 b0[0] = b0 := by decide
    rw [decodeMovImmRm_cons] at h
    obtain ⟨rm, mid, data, hrm, hdata, rfl⟩ := rmDataResult_hit h
    obtain ⟨hwidth, hbytes⟩ := decodeImm_eq_some hdata
    refine ⟨?_, ?_⟩
    · rw [Instr.wf, hwidth]
      exact (decodeRm_wf hrm).1
    · simp [encode, hwidth, hfirst b0 hop, hbytes, modeByte_of_decodeRm hrm]

/-- Format GRP. -/
theorem encode_decodeGroup {b0 : Byte} {tail rest : List Byte} {i : Instr} (hop : firstByte b0 = .group)
    (h : decodeGroup b0[1] (Width.ofBit b0[0]) tail = .hit i rest) : i.wf = true ∧ encode i ++ rest = b0 :: tail := by
  obtain _ | ⟨b1, tail⟩ := tail
  · cases h
  · cases hrow : groupInstr (regField b1) with
    | none => simp [decodeGroup, hrow] at h
    | some row =>
      rw [decodeGroup_cons hrow] at h
      obtain ⟨rm, mid, data, hrm, hdata, rfl⟩ := rmDataResult_hit h
      obtain ⟨hsign, hwidth, hbytes⟩ := decodeGrpImm_eq_some hdata
      obtain ⟨hwf, hencode⟩ := encode_groupInstr hrow rm data
      refine ⟨?_, ?_⟩
      · rw [hwf, hwidth]
        exact (decodeRm_wf hrm).1
      · simp [hencode, encodeGroup, hsign, hwidth, opcode6_of_group hop, hbytes, modeByte_of_decodeRm hrm]

/-- The formats that end in data after their first byte. -/
theorem decodeData_hit {w : Width} {row : Imm → Instr} {bs rest : List Byte} {i : Instr}
    (h : decodeData w row bs = .hit i rest) : ∃ data, i = row data ∧ data.width = w ∧ data.bytes ++ rest = bs := by
  rw [decodeData] at h
  split at h
  next data rest' hdata =>
    cases h
    exact ⟨data, rfl, decodeImm_eq_some hdata⟩
  next => cases h

/-- Format IMM_REG. -/
theorem encode_decodeMovImmReg {b0 : Byte} {tail rest : List Byte} {i : Instr} (hop : firstByte b0 = .movImmReg)
    (h : decodeData (Width.ofBit b0[3]) (.movImmReg (regName (Width.ofBit b0[3]) (lowField b0))) tail = .hit i rest) :
    i.wf = true ∧ encode i ++ rest = b0 :: tail := by
  have hfirst : ∀ b0, firstByte b0 = .movImmReg → (0b1011#4 ++ BitVec.ofBool b0[3] ++ lowField b0 : Byte) = b0 := by
    decide
  obtain ⟨data, rfl, hwidth, rfl⟩ := decodeData_hit h
  refine ⟨?_, ?_⟩
  · simp [Instr.wf, regName_encodable, hwidth]
  · simp [encode, hwidth, hfirst b0 hop]

/-- Format ACC_IMM, for a row whose first byte has the seven fixed bits `opcode`. -/
theorem encode_decodeImmAcc {opcode : BitVec 7} {row : Imm → Instr} (hrow : ∀ data, (row data).wf = true)
    (hencode : ∀ data, encode (row data) = encodeImmAcc opcode data) {b0 : Byte} (hop : opcode7 opcode b0[0] = b0)
    {tail rest : List Byte} {i : Instr} (h : decodeData (Width.ofBit b0[0]) row tail = .hit i rest) :
    i.wf = true ∧ encode i ++ rest = b0 :: tail := by
  obtain ⟨data, rfl, hwidth, rfl⟩ := decodeData_hit h
  exact ⟨hrow data, by simp [hencode, encodeImmAcc, hwidth, hop]⟩

/-- Format ACC_MEM, in the same way. -/
theorem encode_decodeAddress {opcode : BitVec 7} {row : Word → Instr} (hrow : ∀ a, (row a).wf = true)
    {b0 : Byte} (hencode : ∀ a, encode (row a) = opcode7 opcode b0[0] :: leBytes a) (hop : opcode7 opcode b0[0] = b0)
    {tail rest : List Byte} {i : Instr} (h : decodeAddress row tail = .hit i rest) :
    i.wf = true ∧ encode i ++ rest = b0 :: tail := by
  rw [decodeAddress.eq_def] at h
  split at h <;> cases h
  exact ⟨hrow _, by simp [hencode, hop]⟩

/-- A jump is its first byte and its signed byte (42_branch.md R261, R262). -/
theorem encode_jumpInstr {b0 b1 : Byte} {i : Instr} (h : jumpInstr b0 b1 = some i) :
    i.wf = true ∧ encode i = [b0, b1] := by
  have hb0 : b0 = BitVec.ofNat 8 b0.toNat := by simp
  rw [hb0]
  rw [jumpInstr] at h
  generalize b0.toNat = n at h ⊢
  split at h <;> cases h <;> exact ⟨rfl, rfl⟩

/-- Format JMP. -/
theorem encode_decodeJump {b0 : Byte} {tail rest : List Byte} {i : Instr} (h : decodeJump b0 tail = .hit i rest) :
    i.wf = true ∧ encode i ++ rest = b0 :: tail := by
  obtain _ | ⟨b1, tail⟩ := tail
  · cases h
  · rw [decodeJump] at h
    split at h
    next j hjump =>
      cases h
      obtain ⟨hwf, hencode⟩ := encode_jumpInstr hjump
      exact ⟨hwf, by rw [hencode]; rfl⟩
    next => cases h

/-- Whatever the decoder reads is well formed, and its encoding is the bytes that were read. -/
theorem encode_of_decode_hit {bs rest : List Byte} {i : Instr} (h : decode bs = .hit i rest) :
    i.wf = true ∧ encode i ++ rest = bs := by
  obtain _ | ⟨b0, tail⟩ := bs
  · cases h
  · have hmemAcc : ∀ b0, firstByte b0 = .movMemAcc → opcode7 0b1010000#7 b0[0] = b0 := by decide
    have haccMem : ∀ b0, firstByte b0 = .movAccMem → opcode7 0b1010001#7 b0[0] = b0 := by decide
    have hadd : ∀ b0, firstByte b0 = .addImmAcc → opcode7 0b0000010#7 b0[0] = b0 := by decide
    have hsub : ∀ b0, firstByte b0 = .subImmAcc → opcode7 0b0010110#7 b0[0] = b0 := by decide
    have hcmp : ∀ b0, firstByte b0 = .cmpImmAcc → opcode7 0b0011110#7 b0[0] = b0 := by decide
    rw [decode] at h
    generalize hop : firstByte b0 = format at h
    cases format with
    | rmReg op => exact encode_decodeRmReg hop h
    | movImmRm => exact encode_decodeMovImmRm hop h
    | movImmReg => exact encode_decodeMovImmReg hop h
    | movMemAcc => exact encode_decodeAddress (fun _ => rfl) (fun _ => by simp [encode]) (hmemAcc b0 hop) h
    | movAccMem => exact encode_decodeAddress (fun _ => rfl) (fun _ => by simp [encode]) (haccMem b0 hop) h
    | addImmAcc => exact encode_decodeImmAcc (fun _ => rfl) (fun _ => rfl) (hadd b0 hop) h
    | subImmAcc => exact encode_decodeImmAcc (fun _ => rfl) (fun _ => rfl) (hsub b0 hop) h
    | cmpImmAcc => exact encode_decodeImmAcc (fun _ => rfl) (fun _ => rfl) (hcmp b0 hop) h
    | group => exact encode_decodeGroup hop h
    | jump => exact encode_decodeJump h
    | unmatched => cases h

end Sys2Proof.Machine
end

section
/-! The invariant of the block with the ROM (20_memory.md R70, R75, R80, 10_state.md R50, R53, R54): what a step that
answers a next state can change, and why the invariant survives each such change. -/

namespace Sys2Proof.Machine

/-! ## What a step can change -/

/-- What a step that answers a next state has done. -/
inductive StepEffect (s : State) : State → Prop where
  /-- the output list is handed over, or the parsed lines are -/
  | start (list : List Listed) (h : list = s.decoded ∨ ∃ ls : List ParsedLine, list = ls.map .line) :
      StepEffect s (s.startExecution list)
  /-- the run ends, or has ended before -/
  | finish : StepEffect s { s with phase := .finished }
  /-- the walker skips a byte -/
  | skip (h : iterate s.schema (Memory.bytesFrom s.mem s.idx) = .ok .skip) : StepEffect s { s with idx := s.idx + 1 }
  /-- the walker lists an instruction -/
  | hit (d : DecodedInstruction) (sc : Scratch)
      (h : iterate s.schema (Memory.bytesFrom s.mem s.idx) = .ok (.hit d sc)) :
      StepEffect s { s with
        decoded := s.decoded ++ [listing s.idx (Memory.bytesFrom s.mem s.idx) d]
        scratch := sc
        idx := s.idx + d.length }
  /-- the Execution Unit completes an element of its list -/
  | executed (regs : RegFile) (flags : Flags) (r : Option TraceRecord) (h : s.pos < s.program.length) :
      StepEffect s (State.retire { s with regs := regs, flags := flags } r)

theorem stepEffect_endWalk (s : State) : StepEffect s s.endWalk := by
  rw [State.endWalk]
  split
  · exact .start s.decoded (.inl rfl)
  · exact .finish
  · exact .finish

theorem stepEffect_of_walkStep {s t : State} (h : walkStep s = .next t) : StepEffect s t := by
  obtain ⟨f, -, hw⟩ | ⟨-, hw⟩ | ⟨hskip, hw⟩ | ⟨d, sc, hit, hw⟩ := walkStep_cases s <;> rw [hw] at h
  · cases f <;> cases h
  · cases h
    exact stepEffect_endWalk s
  · cases h
    exact .skip hskip
  · cases h
    exact .hit d sc hit

theorem stepEffect_of_parseStep {s t : State} (h : parseStep s = .next t) : StepEffect s t := by
  rw [parseStep] at h
  split at h <;> cases h
  next ls _ => exact .start _ (.inr ⟨ls, rfl⟩)

theorem execMnemonic_retires {m : Mnemonic} {dst src : EuOperand} {s t : State}
    (h : execMnemonic m dst src s = .next t) :
    ∃ regs flags r, t = State.retire { s with regs := regs, flags := flags } r := by
  obtain ⟨k, hk⟩ | ⟨regs, flags, r, hn⟩ := execMnemonic_cases m dst src s
  · cases hk.symm.trans h
  · cases hn.symm.trans h
    exact ⟨regs, flags, r, rfl⟩

/-- Whatever a list element is, its step completes by retiring. -/
theorem execListed_retires {x : Listed} {s t : State} (h : execListed x s = .next t) :
    ∃ regs flags r, t = State.retire { s with regs := regs, flags := flags } r := by
  cases x with
  | row idx i => exact exec_next h
  | replaced idx d => exact execMnemonic_retires h
  | line l =>
    rw [execListed, execLine] at h
    split at h
    · cases h
    · exact execMnemonic_retires h

theorem stepEffect_of_executeStep {s t : State} (h : executeStep s = .next t) : StepEffect s t := by
  cases hx : s.program[s.pos]? with
  | none =>
    cases (executeStep_end hx).symm.trans h
    exact .finish
  | some x =>
    obtain ⟨regs, flags, r, rfl⟩ := execListed_retires ((executeStep_listed hx).symm.trans h)
    exact .executed regs flags r (List.getElem?_eq_some_iff.mp hx).1

theorem stepEffect_of_step {s t : State} (h : step s = .next t) : StepEffect s t := by
  cases hs : s.phase with
  | decoding => exact stepEffect_of_walkStep ((step_decoding hs).symm.trans h)
  | parsing => exact stepEffect_of_parseStep ((step_parsing hs).symm.trans h)
  | executing => exact stepEffect_of_executeStep ((step_executing hs).symm.trans h)
  | finished =>
    cases (step_finished hs).symm.trans h
    have hsame : { s with phase := .finished } = s := hs ▸ rfl
    exact hsame ▸ StepEffect.finish (s := s)

/-- Settles O31: every effect of a step keeps the SCHEMA, the text and the stream as they are. -/
theorem streamAndSchemaAreNeverWritten : Obligations.StreamAndSchemaAreNeverWritten := by
  intro s t h
  cases stepEffect_of_step h with
  | start | finish | skip | hit | executed => exact ⟨rfl, rfl, fun _ => rfl⟩

/-! ## The invariant at the start -/

theorem faithful_line {m : Memory} {ls : List ParsedLine} : ∀ x ∈ ls.map Listed.line, Faithful m x :=
  List.forall_mem_map.mpr fun _ _ => trivial

theorem inv_loadStream (mode : RunMode) (bs : List Byte) : Inv (State.loadStream mode bs) where
  streamForm := Memory.ofBytes_wf bs
  schemaIsRom := rfl
  cursorInStream := Nat.zero_le _
  decodedFaithful := List.forall_mem_nil _
  programFaithful := List.forall_mem_nil _
  oneRecordEach := rfl
  posInList := Nat.le_refl 0

/-- The invariant does not read the text, the mode or the phase. -/
theorem Inv.setRunFields {s : State} (h : Inv s) (text : Text) (mode : RunMode) (phase : Phase) :
    Inv { s with text := text, mode := mode, phase := phase } := by
  obtain ⟨hform, hrom, hcursor, hdecoded, hprogram, hrecords, hpos⟩ := h
  exact ⟨hform, hrom, hcursor, hdecoded, hprogram, hrecords, hpos⟩

/-- The Execution Unit may start over any list that the stream holds. -/
theorem Inv.startExecution {s : State} (h : Inv s) {list : List Listed} (hlist : ∀ x ∈ list, Faithful s.mem x) :
    Inv (s.startExecution list) where
  streamForm := h.streamForm
  schemaIsRom := h.schemaIsRom
  cursorInStream := Nat.zero_le _
  decodedFaithful := List.forall_mem_nil _
  programFaithful := hlist
  oneRecordEach := rfl
  posInList := Nat.zero_le _

/-- Settles O34: the reset state is the load of the empty stream, a text changes no field that the invariant reads, and
parsed lines have no bytes to be held. -/
theorem invariantHoldsAtTheStart : Obligations.InvariantHoldsAtTheStart := by
  have hreset : Inv State.reset := inv_loadStream .direct []
  exact ⟨hreset, inv_loadStream, inv_loadStream, fun text => hreset.setRunFields text .execute .parsing,
    fun _ => hreset.startExecution faithful_line⟩

/-! ## The invariant of a step -/

/-- Where the walker reads on, the cursor is before the end of the stream (R50). -/
theorem Inv.after_skip {s : State} (h : Inv s) (hskip : iterate s.schema (Memory.bytesFrom s.mem s.idx) = .ok .skip) :
    Inv { s with idx := s.idx + 1 } := by
  obtain ⟨hform, hrom, -, hdecoded, hprogram, hrecords, hpos⟩ := h
  have hbytes : Memory.bytesFrom s.mem s.idx ≠ [] := by
    intro hnil
    rw [hnil] at hskip
    cases hskip
  have hcursor : s.idx + 1 ≤ Memory.size s.mem := by
    have hlength := List.length_pos_iff.mpr hbytes
    rw [Memory.bytesFrom_length _ _ hform] at hlength
    omega
  exact ⟨hform, hrom, hcursor, hdecoded, hprogram, hrecords, hpos⟩

/-- Over the ROM a hit lists the row that the decoder reads; its encoding stands at the cursor, so the list stays faithful
and the cursor stays in the stream (30_encoding.md R146). -/
theorem Inv.after_hit {s : State} (h : Inv s) {d : DecodedInstruction} {sc : Scratch}
    (hhit : iterate s.schema (Memory.bytesFrom s.mem s.idx) = .ok (.hit d sc)) :
    Inv { s with
      decoded := s.decoded ++ [listing s.idx (Memory.bytesFrom s.mem s.idx) d]
      scratch := sc
      idx := s.idx + d.length } := by
  obtain ⟨hform, hrom, hidx, hdecoded, hprogram, hrecords, hpos⟩ := h
  rw [hrom] at hhit
  obtain ⟨i, rest, hdecode, rfl⟩ := decode_of_iterate_hit hhit
  obtain ⟨hwf, hbytes⟩ := encode_of_decode_hit hdecode
  have hprefix : encode i <+: Memory.bytesFrom s.mem s.idx := ⟨rest, hbytes⟩
  have hfaithful : ∀ x ∈ s.decoded ++ [listing s.idx (Memory.bytesFrom s.mem s.idx) (decodedOf i)],
      Faithful s.mem x := by
    rw [listing_of_decode_hit hdecode, List.forall_mem_append, List.forall_mem_singleton]
    exact ⟨hdecoded, hwf, hprefix⟩
  have hcursor : s.idx + (decodedOf i).length ≤ Memory.size s.mem := by
    have hlength : (decodedOf i).length ≤ _ := hprefix.length_le
    rw [Memory.bytesFrom_length _ _ hform] at hlength
    omega
  exact ⟨hform, hrom, hcursor, hfaithful, hprogram, hrecords, hpos⟩

/-- A completed instruction leaves one record and moves the position past itself (60_exceptions.md R301, R322). -/
theorem Inv.after_retire {s : State} (h : Inv s) (hlt : s.pos < s.program.length) (regs : RegFile) (flags : Flags)
    (r : Option TraceRecord) : Inv (State.retire { s with regs := regs, flags := flags } r) := by
  obtain ⟨hform, hrom, hcursor, hdecoded, hprogram, hrecords, -⟩ := h
  exact ⟨hform, hrom, hcursor, hdecoded, hprogram, by simp [hrecords], hlt⟩

/-- Settles O33: each effect of a step keeps the invariant. -/
theorem invariantIsKept : Obligations.InvariantIsKept := by
  intro s t h hstep
  cases stepEffect_of_step hstep with
  | start list hlist =>
    obtain rfl | ⟨ls, rfl⟩ := hlist
    · exact h.startExecution h.decodedFaithful
    · exact h.startExecution faithful_line
  | finish => exact h.setRunFields s.text s.mode .finished
  | skip hskip => exact h.after_skip hskip
  | hit d sc hhit => exact h.after_hit hhit
  | executed regs flags r hlt => exact h.after_retire hlt regs flags r

end Sys2Proof.Machine
end

section
/-! What the decoder of the format tables reads, what the encoder writes, and that the pipeline over the ROM agrees
(30_encoding.md R91 to R93, R100 to R107, R118, R140, R155 to R158). -/

namespace Sys2Proof.Machine

/-- Settles O1: format by format, the fixed bits name the row, and each field is read back from its bytes. -/
theorem decodeReadsBackEveryEncoding : Obligations.DecodeReadsBackEveryEncoding :=
  fun _ rest h => decode_encode h rest

/-- Settles O2: format by format, every bit that the decoder reads is fixed by the row or kept in one of its fields. -/
theorem encodeGivesBackTheDecodedBytes : Obligations.EncodeGivesBackTheDecodedBytes :=
  fun _ _ _ h => encode_of_decode_hit h

/-- Settles O18: outside the group the first byte selects the definition, in the group the second byte does too, and the
definition's argument list reads what its format holds. -/
theorem pipelineAgreesWithDecoder : Obligations.PipelineAgreesWithDecoder :=
  fun b0 tail => pipelineFinds_decode b0 tail

/-- Settles O52: a line splits at its first space and its first comma, and each operand's text reads back. -/
theorem renderedTextReadsBack : Obligations.RenderedTextReadsBack :=
  ⟨fun i => parseLine_renderInstruction (instrDestination_ne_none i), fun _ h => interpret_renderOperand h⟩

/-- Settles O3: the words are evaluated. -/
theorem writtenWordsDecode : Obligations.WrittenWordsDecode := ⟨rfl, rfl, rfl, rfl⟩

/-! ## Lengths -/

theorem length_rmBytes (rm : RmOperand) : rm.bytes.length = Spec.dispLength rm := by
  cases rm <;> rfl

theorem length_immBytes (data : Imm) : data.bytes.length = Spec.dataLength data.width false := by
  cases data <;> rfl

theorem length_grpImmBytes (data : GrpImm) :
    data.bytes.length = Spec.dataLength data.width data.signBit := by
  cases data with
  | byte | word => rfl
  | signed w v => cases w <;> rfl

theorem length_encodeRmReg (op : BitVec 6) (d : Bool) (reg : RegName) (rm : RmOperand) :
    (encodeRmReg op d reg rm).length = 2 + Spec.dispLength rm := by
  simp only [encodeRmReg, List.length_cons, length_rmBytes]
  omega

theorem length_encodeGroup (eee : BitVec 3) (rm : RmOperand) (data : GrpImm) :
    (encodeGroup eee rm data).length = 2 + Spec.dispLength rm + Spec.dataLength data.width data.signBit := by
  simp only [encodeGroup, List.length_cons, List.length_append, length_rmBytes, length_grpImmBytes]
  omega

theorem length_encodeImmAcc (op : BitVec 7) (data : Imm) :
    (encodeImmAcc op data).length = 1 + Spec.dataLength data.width false := by
  simp only [encodeImmAcc, List.length_cons, length_immBytes]
  omega

/-- Settles O4: the opcode and mode bytes of each format, and the lengths of its operand's and its data's bytes. -/
theorem encodingLengthsFollowTheFormats : Obligations.EncodingLengthsFollowTheFormats := by
  refine ⟨fun d reg rm => ?_, fun u rm data => ?_, fun rm data => ?_, fun reg data => ?_, fun w a => ⟨rfl, rfl⟩,
    fun data => ?_, fun b => ?_⟩
  · exact ⟨length_encodeRmReg _ d reg rm, length_encodeRmReg _ d reg rm, length_encodeRmReg _ d reg rm,
      length_encodeRmReg _ d reg rm⟩
  · simp only [encode, List.length_cons, List.length_append, length_rmBytes, length_immBytes]
    omega
  · exact ⟨length_encodeGroup _ rm data, length_encodeGroup _ rm data, length_encodeGroup _ rm data⟩
  · simp only [encode, List.length_cons, length_immBytes]
    omega
  · exact ⟨length_encodeImmAcc _ data, length_encodeImmAcc _ data, length_encodeImmAcc _ data⟩
  · simp [encode]

end Sys2Proof.Machine
end

section
/-! The Opcode Matcher, the Flag Extractor and the Field Decoder over any SCHEMA (30_encoding.md R111 to R119, R125 to
R131, R137, R143, R144). -/

namespace Sys2Proof.Machine

/-! ## The Opcode Matcher -/

/-- Settles O6: the checks and the mask tests of all first bytes are evaluated. -/
theorem romIsWellFormed : Obligations.RomIsWellFormed := ⟨by decide, by decide⟩

theorem opcodeMatch_masked {e : OpcodeEntry} {b0 : Byte} (hmask : maskTest b0 e = false) (rest : Schema)
    (b1 : Option Byte) : opcodeMatch (e :: rest) b0 b1 = opcodeMatch rest b0 b1 := by
  simp [opcodeMatch, hmask]

/-- Entries whose mask test fails are passed over (R111). -/
theorem opcodeMatch_append_of_masked {before : Schema} {b0 : Byte} (h : ∀ x ∈ before, maskTest b0 x = false)
    (rest : Schema) (b1 : Option Byte) : opcodeMatch (before ++ rest) b0 b1 = opcodeMatch rest b0 b1 := by
  induction before with
  | nil => rfl
  | cons x before ih =>
    obtain ⟨hx, hbefore⟩ := List.forall_mem_cons.mp h
    rw [List.cons_append, opcodeMatch_masked hx, ih hbefore]

theorem opcodeMatch_single {e : OpcodeEntry} {d : InstructionDefinition} {b0 : Byte} (hmask : maskTest b0 e = true)
    (hlookup : e.lookup = .single d) (after : Schema) (b1 : Option Byte) :
    opcodeMatch (e :: after) b0 b1 = .ok (some d) := by
  simp [opcodeMatch, hmask, hlookup]

theorem opcodeMatch_multi {e : OpcodeEntry} {cs : List (SecondaryOperand × InstructionDefinition)} {b0 : Byte}
    (hmask : maskTest b0 e = true) (hlookup : e.lookup = .multi cs) (after : Schema) (b1 : Option Byte) :
    opcodeMatch (e :: after) b0 b1 = matchCandidates b0 b1 cs := by
  simp [opcodeMatch, hmask, hlookup]

/-- Candidates that do not agree are passed over (R113). -/
theorem matchCandidates_append_of_disagree {cs : List (SecondaryOperand × InstructionDefinition)} {b0 : Byte}
    {b1 : Option Byte} (h : ∀ x ∈ cs, Spec.candidateTest b0 b1 x.1 = some false)
    (ds : List (SecondaryOperand × InstructionDefinition)) :
    matchCandidates b0 b1 (cs ++ ds) = matchCandidates b0 b1 ds := by
  induction cs with
  | nil => rfl
  | cons c cs ih =>
    obtain ⟨hc, hcs⟩ := List.forall_mem_cons.mp h
    rw [List.cons_append, matchCandidates_cons, hc]
    exact ih hcs

/-- Settles O7: the entries before are passed over, and after the last entry there is no match. -/
theorem firstPassingEntryDecides : Obligations.FirstPassingEntryDecides := by
  refine ⟨fun before after e d b0 b1 hbefore hmask hlookup => ?_, fun schema b0 b1 h => ?_⟩
  · rw [opcodeMatch_append_of_masked hbefore, opcodeMatch_single hmask hlookup]
  · have hall := opcodeMatch_append_of_masked h [] b1
    rwa [List.append_nil] at hall

/-- Settles O8: the entries before and the candidates before are passed over. -/
theorem firstAgreeingCandidateHits : Obligations.FirstAgreeingCandidateHits := by
  intro before after e cs ds c b0 b1 hbefore hmask hlookup hcs hc
  rw [opcodeMatch_append_of_masked hbefore, opcodeMatch_multi hmask hlookup, matchCandidates_append_of_disagree hcs,
    matchCandidates_cons, hc]

/-- Settles O9: all candidates are passed over, and the entries after are never tried. -/
theorem noCandidateIsNoMatch : Obligations.NoCandidateIsNoMatch := by
  intro before after e cs b0 b1 hbefore hmask hlookup hcs
  have hnone := matchCandidates_append_of_disagree hcs []
  rw [List.append_nil] at hnone
  rw [opcodeMatch_append_of_masked hbefore, opcodeMatch_multi hmask hlookup, hnone]
  rfl

/-! ## The Flag Extractor -/

/-- The value of one flag; none if it is absent. -/
def flagValue (fl : FlagSet) : Flag → Option Bool
  | .direction => fl.d
  | .signExtend => fl.s
  | .wordSize => fl.w

@[simp] theorem flagValue_setFlag_same (fl : FlagSet) (f : Flag) (v : Bool) :
    flagValue (setFlag fl f v) f = some v := by
  cases f <;> rfl

theorem flagValue_setFlag_other (fl : FlagSet) {f g : Flag} (h : f ≠ g) (v : Bool) :
    flagValue (setFlag fl g v) f = flagValue fl f := by
  cases g with
  | direction =>
    cases f with
    | direction => exact absurd rfl h
    | signExtend | wordSize => rfl
  | signExtend =>
    cases f with
    | signExtend => exact absurd rfl h
    | direction | wordSize => rfl
  | wordSize =>
    cases f with
    | wordSize => exact absurd rfl h
    | direction | signExtend => rfl

/-- A flag that is not declared keeps its value. -/
theorem flagValue_extractFlagsFrom_of_not_mem {f : Flag} {flags : List Flag} (h : f ∉ flags) (b0 : Byte) (p : Nat)
    (fl : FlagSet) : flagValue (extractFlagsFrom b0 p flags fl) f = flagValue fl f := by
  induction flags generalizing p fl with
  | nil => rfl
  | cons g flags ih =>
    obtain ⟨hg, hflags⟩ := not_or.mp (List.mem_cons.not.mp h)
    rw [extractFlagsFrom, ih hflags, flagValue_setFlag_other fl hg]

/-- Flag number `k` after position `p` is the bit at position `p + k`: no later flag of a list without repetition sets
it again (R119). -/
theorem flagValue_extractFlagsFrom {f : Flag} {flags : List Flag} (hnodup : flags.Nodup) {k : Nat}
    (h : flags[k]? = some f) (b0 : Byte) (p : Nat) (fl : FlagSet) :
    flagValue (extractFlagsFrom b0 p flags fl) f = some (b0.getLsbD (7 - (p + k))) := by
  induction flags generalizing p k fl with
  | nil => cases h
  | cons g flags ih =>
    obtain ⟨hg, hflags⟩ := List.nodup_cons.mp hnodup
    rw [extractFlagsFrom]
    cases k with
    | zero =>
      cases h
      rw [flagValue_extractFlagsFrom_of_not_mem hg, flagValue_setFlag_same, Nat.add_zero]
    | succ k => rw [ih hflags h, Nat.add_right_comm, Nat.add_assoc]

/-- Settles O12, by induction over the declared flags: each sets its own flag, from the next bit. -/
theorem flagsFollowTheFixedBits : Obligations.FlagsFollowTheFixedBits := by
  intro d b0 hnodup
  have hmem (f : Flag) (k : Nat) (h : d.flags[k]? = some f) :
      flagValue (extractFlags b0 d) f = some (b0.getLsbD (7 - ((d.offset - 1) + k))) :=
    flagValue_extractFlagsFrom hnodup h b0 _ _
  have hnot (f : Flag) (h : f ∉ d.flags) : flagValue (extractFlags b0 d) f = none := by
    rw [extractFlags, flagValue_extractFlagsFrom_of_not_mem h]
    cases f <;> rfl
  exact ⟨hmem .direction, hmem .signExtend, hmem .wordSize, hnot .direction, hnot .signExtend, hnot .wordSize⟩

/-! ## Bytes and words in plain arithmetic -/

/-- `LE16` is `lo + 256 * hi` (00_scope.md R17). -/
theorem le16_eq_ofNat (lo hi : Byte) : le16 lo hi = BitVec.ofNat 16 (lo.toNat + 256 * hi.toNat) := by
  rw [Nat.add_comm]
  exact (BytePair.ofNat_pairValue ⟨hi, lo⟩).symm

theorem zext16_eq_ofNat (b : Byte) : zext16 b = BitVec.ofNat 16 b.toNat := (BitVec.ofNat_toNat 16 b).symm

/-- A byte from 0x80 on stands for `0xFF00 | byte` (00_scope.md R18). -/
theorem sext16_eq_ofNat (b : Byte) :
    sext16 b = BitVec.ofNat 16 (if 0x80 ≤ b.toNat then 0xFF00 + b.toNat else b.toNat) := by
  revert b
  decide

theorem readByte_of_getElem? {win : List Byte} {k : Nat} {b : Byte} (h : win[k]? = some b) :
    readByte win (8 * k) = .ok b := by
  have hmod : 8 * k % 8 = 0 := Nat.mul_mod_right 8 k
  have hdiv : 8 * k / 8 = k := Nat.mul_div_cancel_left k (by decide)
  rw [readByte, if_pos hmod, hdiv, h]

theorem readWord_of_getElem? {win : List Byte} {k : Nat} {lo hi : Byte} (hlo : win[k]? = some lo)
    (hhi : win[k + 1]? = some hi) : readWord win (8 * k) = .ok (BitVec.ofNat 16 (lo.toNat + 256 * hi.toNat)) := by
  have hmod : 8 * k % 8 = 0 := Nat.mul_mod_right 8 k
  have hdiv : 8 * k / 8 = k := Nat.mul_div_cancel_left k (by decide)
  rw [readWord, if_pos hmod, hdiv, hlo, hhi, ← le16_eq_ofNat]

/-! ## The Field Decoder -/

/-- Settles O13: mode by mode, the bytes that the mode reads in plain arithmetic. -/
theorem rmOperandFollowsTheMode : Obligations.RmOperandFollowsTheMode := by
  intro win k w r
  refine ⟨fun lo hi hlo hhi => ?_, fun hr => ?_, fun lo hlo => ?_, fun lo hi hlo hhi => ?_, rfl⟩
  · simp [rmArgument, readWord_of_getElem? hlo hhi]
  · simp [rmArgument, hr]
  · simp [rmArgument, readByte_of_getElem? hlo, zext16_eq_ofNat]
  · simp [rmArgument, readWord_of_getElem? hlo hhi]

/-- Settles O14: the operand is placed by the explicit register alone, whatever the mode is. -/
theorem explicitRegisterClaimsTheDestination : Obligations.ExplicitRegisterClaimsTheDestination := by
  intro fl win w mode r op q sc hw hmode hfield hrm
  have harg : decodeArgument fl win .registerOrMemory sc =
      .ok (Scratch.place { sc with cursor := sc.cursor + 3, quirky := sc.quirky || q } op) := by
    simp only [decodeArgument, hw, hmode, hfield, hrm]
  refine ⟨_, harg, ?_⟩
  cases sc.regIsDest <;> simp [Scratch.place]

/-- Settles O15: the distances of the four modes. -/
theorem displacementOnlyAdvances : Obligations.DisplacementOnlyAdvances := by
  intro fl win sc
  refine ⟨fun h => ?_, fun h => ?_, fun h => ?_, fun h => ?_, fun h => ?_⟩ <;>
    simp [decodeArgument, h, displacementBits]

/-- Settles O16: the flags choose between a word and a byte, and between the two extensions of a byte. -/
theorem immediateSizePolicy : Obligations.ImmediateSizePolicy := by
  intro fl win sc k lo hcursor hlo
  have hbyte : readByte win sc.cursor = .ok lo := hcursor ▸ readByte_of_getElem? hlo
  refine ⟨fun hi hhi hw hs => ?_, fun hs => ?_, fun hw hs => ?_⟩
  · have hword : readWord win sc.cursor = .ok (BitVec.ofNat 16 (lo.toNat + 256 * hi.toNat)) :=
      hcursor ▸ readWord_of_getElem? hlo hhi
    simp [decodeArgument, dataArgument, hw, hs, hword]
  · simp [decodeArgument, dataArgument, hs, hbyte, sext16_eq_ofNat]
  · simp [decodeArgument, dataArgument, hw, hs, hbyte, zext16_eq_ofNat]

/-! ## Default and direction -/

/-- With a direction of 0, source and destination change places (R143). -/
theorem assemble_swaps {d : InstructionDefinition} {fl : FlagSet} {sc : Scratch} {dst : Operand}
    (hdst : defaultDestination fl sc.dst = .ok dst) (hdir : directionValue d fl = some false) :
    assemble d fl sc = .ok ⟨d.mnemonic, dst, sc.src, sc.cursor / 8⟩ := by
  simp only [assemble, hdst, if_pos hdir]

theorem accumulator_ofBit (w : Bool) :
    accumulator (Width.ofBit w) = Spec.accumulatorName (if w then .word else .byte) := by
  cases w <;> rfl

/-- Settles O17: the destination after the default, and the two directions. -/
theorem defaultThenDirectionSwap : Obligations.DefaultThenDirectionSwap := by
  intro d fl sc
  refine ⟨fun hw hempty => by simp [assemble, defaultDestination, hempty, hw], fun dst hdst => ?_⟩
  have hdefault : defaultDestination fl sc.dst = .ok dst := by
    obtain ⟨hne, rfl⟩ | ⟨hempty, w, hw, rfl⟩ := hdst
    · exact defaultDestination_keeps hne fl
    · simp [defaultDestination, hempty, hw, accumulator_ofBit]
  refine ⟨fun hd => ?_, fun hd => ?_, fun hd himplied => ?_, fun hd himplied => ?_⟩
  · exact assemble_keeps hdefault (by simp [directionValue, hd])
  · exact assemble_swaps hdefault (by simp [directionValue, hd])
  · exact assemble_swaps hdefault (by simp [directionValue, hd, himplied])
  · exact assemble_keeps hdefault (by simpa [directionValue, hd] using himplied)

end Sys2Proof.Machine
end

section
/-! The Bitstream Walker over the ROM: hits, skips, cut instructions, and whole walks (30_encoding.md R117, R135, R140,
R145 to R148, 10_state.md R50). -/

namespace Sys2Proof.Machine

/-! ## Skips -/

theorem decodeHit_ne_skip (d : InstructionDefinition) (b0 : Byte) (bs : List Byte) :
    decodeHit d b0 bs ≠ .ok .skip := by
  rw [decodeHit]
  split
  · split
    · simp
    · split <;> simp
  · simp

/-- The walker skips exactly the bytes with no match (R148). -/
theorem iterate_eq_skip_iff {schema : Schema} {b0 : Byte} {tail : List Byte} :
    iterate schema (b0 :: tail) = .ok .skip ↔ opcodeMatch schema b0 tail.head? = .ok none := by
  refine ⟨fun h => ?_, iterate_skip⟩
  rw [iterate] at h
  split at h
  · cases h
  · assumption
  · exact absurd h (decodeHit_ne_skip _ _ _)

/-- The decoder of the format tables leaves exactly those bytes unmatched. -/
theorem decode_eq_unmatched_iff {b0 : Byte} {tail : List Byte} :
    decode (b0 :: tail) = .unmatched ↔ opcodeMatch romSchema b0 tail.head? = .ok none := by
  have hfinds := pipelineFinds_decode b0 tail
  rw [← iterate_eq_skip_iff]
  cases hdec : decode (b0 :: tail) with
  | hit i rest =>
    rw [hdec] at hfinds
    obtain ⟨sc, hit⟩ := hfinds
    simp [hit]
  | unmatched =>
    rw [hdec] at hfinds
    exact iff_of_true rfl hfinds
  | truncated =>
    rw [hdec] at hfinds
    have herror : iterate romSchema (b0 :: tail) = .error .truncated := hfinds
    simp [herror]

theorem matchCandidates_of_missing {b0 : Byte} {cs : List (SecondaryOperand × InstructionDefinition)}
    {r : Option InstructionDefinition} (h : matchCandidates b0 none cs = .ok r) (b1 : Option Byte) :
    matchCandidates b0 b1 cs = .ok r := by
  induction cs with
  | nil => exact h
  | cons c cs ih =>
    by_cases hpos : c.1.bitOffset ≤ 6
    · have htest : ∀ b1, Spec.candidateTest b0 b1 c.1 = some (decide (b0.extractLsb' 0 3 = c.1.expected)) :=
        fun _ => if_pos hpos
      rw [matchCandidates_cons, htest] at h ⊢
      generalize decide (b0.extractLsb' 0 3 = c.1.expected) = agrees at h ⊢
      cases agrees with
      | false => exact ih h
      | true => exact h
    · have htest : Spec.candidateTest b0 none c.1 = none := if_neg hpos
      rw [matchCandidates_cons, htest] at h
      cases h

/-- A matcher that answers without the second byte answers the same with it (R117). -/
theorem opcodeMatch_of_missing {schema : Schema} {b0 : Byte} {r : Option InstructionDefinition}
    (h : opcodeMatch schema b0 none = .ok r) (b1 : Option Byte) : opcodeMatch schema b0 b1 = .ok r := by
  induction schema with
  | nil => exact h
  | cons e rest ih =>
    cases hmask : maskTest b0 e with
    | false =>
      rw [opcodeMatch_masked hmask] at h ⊢
      exact ih h
    | true =>
      cases hlookup : e.lookup with
      | single d =>
        rw [opcodeMatch_single hmask hlookup] at h ⊢
        exact h
      | multi cs =>
        rw [opcodeMatch_multi hmask hlookup] at h ⊢
        exact matchCandidates_of_missing h b1

/-! ## Bytes after those that decide -/

/-- What the decoder has read stays read, whatever bytes follow. -/
theorem decode_hit_append {bs rest : List Byte} {i : Instr} (h : decode bs = .hit i rest) (more : List Byte) :
    decode (bs ++ more) = .hit i (rest ++ more) := by
  obtain ⟨hwf, rfl⟩ := encode_of_decode_hit h
  rw [List.append_assoc]
  exact decode_encode hwf _

/-- What the decoder leaves unmatched stays unmatched, whatever bytes follow. -/
theorem decode_unmatched_append {bs : List Byte} (h : decode bs = .unmatched) (more : List Byte) :
    decode (bs ++ more) = .unmatched := by
  obtain _ | ⟨b0, tail⟩ := bs
  · cases h
  · have hmatch := decode_eq_unmatched_iff.mp h
    refine decode_eq_unmatched_iff.mpr ?_
    cases tail with
    | nil => exact opcodeMatch_of_missing hmatch _
    | cons b1 tail => exact hmatch

/-- A proper beginning of an encoding is neither an instruction nor unmatched, for the bytes that are missing would not
change that (R117, R135). -/
theorem decode_take_encode {i : Instr} (hwf : i.wf = true) {n : Nat} (hn : n < (encode i).length) :
    decode ((encode i).take n) = .truncated := by
  have hwhole : decode ((encode i).take n ++ (encode i).drop n) = .hit i [] := by
    have h := decode_encode hwf []
    rwa [List.append_nil, ← List.take_append_drop n (encode i)] at h
  cases hcut : decode ((encode i).take n) with
  | hit j rest =>
    have hrest : rest ++ (encode i).drop n = [] :=
      (DecodeResult.hit.inj ((decode_hit_append hcut _).symm.trans hwhole)).2
    have hdrop := List.drop_eq_nil_iff.mp (List.append_eq_nil_iff.mp hrest).2
    omega
  | unmatched => cases (decode_unmatched_append hcut _).symm.trans hwhole
  | truncated => rfl

/-! ## One step over the ROM -/

section Step
variable {s : State} (hphase : s.phase = .decoding) (hschema : s.schema = romSchema)
include hphase hschema

theorem step_of_decode_unmatched {bs : List Byte} (hbytes : Memory.bytesFrom s.mem s.idx = bs)
    (h : decode bs = .unmatched) : step s = .next { s with idx := s.idx + 1 } := by
  obtain _ | ⟨b0, tail⟩ := bs
  · cases h
  · have hskip := iterate_skip (decode_eq_unmatched_iff.mp h)
    rw [step_decoding hphase, walkStep, hschema, hbytes, hskip]

theorem step_of_decode_truncated {bs : List Byte} (hbytes : Memory.bytesFrom s.mem s.idx = bs) (hne : bs ≠ [])
    (h : decode bs = .truncated) : step s = .fault (.truncated s.idx) := by
  obtain _ | ⟨b0, tail⟩ := bs
  · exact absurd rfl hne
  · have hfinds := pipelineFinds_decode b0 tail
    rw [h] at hfinds
    have herror : iterate romSchema (b0 :: tail) = .error .truncated := hfinds
    rw [step_decoding hphase, walkStep, hschema, hbytes, herror]
    rfl

end Step

/-- Settles O5: a cut encoding decodes as truncated, and the walker faults there. -/
theorem cutInstructionIsTruncated : Obligations.CutInstructionIsTruncated := by
  intro i n s hwf hpos hn hphase hschema hbytes
  have hne : (encode i).take n ≠ [] := List.ne_nil_of_length_pos (by rw [List.length_take]; omega)
  exact step_of_decode_truncated hphase hschema hbytes hne (decode_take_encode hwf hn)

theorem firstByte_of_isGroupByte {b0 : Byte} (h : Spec.isGroupByte b0.toNat) : firstByte b0 = .group := by
  revert b0
  simp only [Spec.isGroupByte]
  decide

/-- Outside the map of R102 a first byte starts nothing. -/
theorem firstByte_of_not_isRomByte {b0 : Byte} (hrom : ¬ Spec.isRomByte b0.toNat)
    (hgroup : ¬ Spec.isGroupByte b0.toNat) : firstByte b0 = .unmatched := by
  revert b0
  simp only [Spec.isRomByte, Spec.isGroupByte]
  decide

theorem decode_of_not_isRomByte {b0 : Byte} (hrom : ¬ Spec.isRomByte b0.toNat) (hgroup : ¬ Spec.isGroupByte b0.toNat)
    (tail : List Byte) : decode (b0 :: tail) = .unmatched := by
  simp only [decode, firstByte_of_not_isRomByte hrom hgroup]

theorem groupInstr_eq_none {eee : BitVec 3} (hadd : eee ≠ 0b000#3) (hsub : eee ≠ 0b101#3) (hcmp : eee ≠ 0b111#3) :
    groupInstr eee = none := by
  rw [← Option.isNone_iff_eq_none]
  revert eee
  decide

/-- Settles O10: the decoder needs the byte after a group byte. -/
theorem groupByteAtTheEndIsTruncated : Obligations.GroupByteAtTheEndIsTruncated := by
  intro s b0 hphase hschema hgroup hbytes
  refine step_of_decode_truncated hphase hschema hbytes (List.cons_ne_nil _ _) ?_
  simp only [decode, firstByte_of_isGroupByte hgroup, decodeGroup]

/-- Settles O11: a byte outside the map starts nothing, and the group has no row for the other register fields. -/
theorem unrecognizedByteIsSkipped : Obligations.UnrecognizedByteIsSkipped := by
  intro s b0 rest hphase hschema hbytes hb
  refine step_of_decode_unmatched hphase hschema hbytes ?_
  obtain ⟨hrom, hgroup⟩ | ⟨hgroup, b1, tail, rfl, hadd, hsub, hcmp⟩ := hb
  · exact decode_of_not_isRomByte hrom hgroup rest
  · have hnone : groupInstr (regField b1) = none := groupInstr_eq_none hadd hsub hcmp
    simp only [decode, firstByte_of_isGroupByte hgroup, decodeGroup, hnone]

/-- Settles O19: the walker's step on a hit, and the Execution Unit's step on each kind of list element. -/
theorem stepRunsTheDecodedInstruction : Obligations.StepRunsTheDecodedInstruction := by
  have hexec {s : State} {x : Listed} (hphase : s.phase = .executing) (h : s.program[s.pos]? = some x) :
      step s = execListed x s := (step_executing hphase).trans (executeStep_listed h)
  exact ⟨fun _ _ _ hphase hschema h => step_of_decode_hit hphase hschema h, fun _ _ _ hphase h => hexec hphase h,
    fun _ _ hphase h => hexec hphase h, fun _ _ _ hphase h => ⟨hexec hphase h, rfl⟩⟩

/-! ## Whole walks -/

/-- Over the ROM the cursor moves on as long as decoding goes on, and the stream and the SCHEMA stay. -/
theorem walkStep_rom_goes_on {s t : State} (hschema : s.schema = romSchema) (h : walkStep s = .next t)
    (hphase : t.phase = .decoding) : s.idx < t.idx ∧ t.mem = s.mem ∧ t.schema = s.schema := by
  obtain rfl | ⟨d, sc, hit, rfl⟩ := walkStep_goes_on h hphase
  · exact ⟨Nat.lt_succ_self _, rfl, rfl⟩
  · rw [hschema] at hit
    obtain ⟨i, -, -, rfl⟩ := decode_of_iterate_hit hit
    have hlength : 2 ≤ (decodedOf i).length := two_le_encode_length i
    exact ⟨Nat.lt_add_of_pos_right (by omega), rfl, rfl⟩

theorem walkStep_ne_refused (s : State) (r : Refusal) : walkStep s ≠ .refused r := by
  intro h
  obtain ⟨f, -, hw⟩ | ⟨-, hw⟩ | ⟨-, hw⟩ | ⟨d, sc, -, hw⟩ := walkStep_cases s <;> rw [hw] at h
  · cases f <;> cases h
  all_goals cases h

/-- A run of `n` steps that ends the walk, in a fault or in another phase. -/
def WalkEnds (n : Nat) (s : State) : Prop :=
  (∃ f, Host.Core.run core n s = .fault f) ∨ ∃ t, Host.Core.run core n s = .next t ∧ t.phase ≠ .decoding

theorem walkEnds_of_step {s t : State} (h : step s = .next t) {n : Nat} (ht : WalkEnds n t) : WalkEnds (n + 1) s := by
  rw [WalkEnds, run_succ_of_next h]
  exact ht

/-- With at most `m` bytes left, at most `m` iterations go on. -/
theorem exists_walkEnds {m : Nat} {s : State} (hphase : s.phase = .decoding) (hschema : s.schema = romSchema)
    (hmem : Memory.wf s.mem = true) (hm : Memory.size s.mem ≤ s.idx + m) : ∃ n ≤ m + 1, WalkEnds n s := by
  induction m generalizing s with
  | zero =>
    have hlength := Memory.bytesFrom_length s.mem s.idx hmem
    have hnil : Memory.bytesFrom s.mem s.idx = [] := List.eq_nil_of_length_eq_zero (by omega)
    exact ⟨1, Nat.le_refl _, .inr ⟨_, run_succ_of_next (step_of_no_bytes hphase hnil) 0, s.endWalk_phase⟩⟩
  | succ m ih =>
    cases hstep : step s with
    | next t =>
      by_cases ht : t.phase = .decoding
      · obtain ⟨hidx, hmem', hschema'⟩ := walkStep_rom_goes_on hschema ((step_decoding hphase).symm.trans hstep) ht
        obtain ⟨n, hn, hends⟩ := ih ht (hschema'.trans hschema) (hmem' ▸ hmem) (by rw [hmem']; omega)
        exact ⟨n + 1, Nat.succ_le_succ hn, walkEnds_of_step hstep hends⟩
      · exact ⟨1, by omega, .inr ⟨t, run_succ_of_next hstep 0, ht⟩⟩
    | fault f => exact ⟨1, by omega, .inl ⟨f, run_succ_of_fault hstep 0⟩⟩
    | refused r => exact absurd ((step_decoding hphase).symm.trans hstep) (walkStep_ne_refused s r)

/-- Settles O23, by induction over the bytes that are left: each iteration that goes on moves the cursor. -/
theorem walkEndsWithinTheStream : Obligations.WalkEndsWithinTheStream := by
  intro mode bs
  refine exists_walkEnds (s := State.loadStream mode bs) rfl rfl (Memory.ofBytes_wf bs) ?_
  simp [State.loadStream, State.reset]

/-! ## Runs of `decode` mode -/

/-- A `decode` run over the ROM whose walker has the bytes `bs` before it. -/
structure DecodeRun (s : State) (bs : List Byte) : Prop where
  phase : s.phase = .decoding
  schemaIsRom : s.schema = romSchema
  mode : s.mode = .decode
  streamForm : Memory.wf s.mem = true
  bytes : Memory.bytesFrom s.mem s.idx = bs

theorem decodeRun_loadStream (bs : List Byte) : DecodeRun (State.loadStream .decode bs) bs :=
  ⟨rfl, rfl, rfl, Memory.ofBytes_wf bs, Memory.bytesFrom_ofBytes bs 0⟩

/-- Where an encoding is next, its row is listed and the bytes after it are next (R146). -/
theorem DecodeRun.step_encode {s : State} {i : Instr} {rest : List Byte} (h : DecodeRun s (encode i ++ rest))
    (hwf : i.wf = true) :
    ∃ t, step s = .next t ∧ DecodeRun t rest ∧ t.decoded = s.decoded ++ [.row s.idx i] ∧
      t.idx = s.idx + (encode i).length := by
  obtain ⟨hphase, hrom, hmode, hform, hbytes⟩ := h
  have hdecode : decode (Memory.bytesFrom s.mem s.idx) = .hit i rest := hbytes ▸ decode_encode hwf rest
  obtain ⟨sc, hstep⟩ := step_of_decode_hit hphase hrom hdecode
  have hrest : Memory.bytesFrom s.mem (s.idx + (encode i).length) = rest := by
    rw [Memory.bytesFrom_add _ _ _ hform, hbytes, List.drop_left]
  exact ⟨_, hstep, ⟨hphase, hrom, hmode, hform, hrest⟩, rfl, rfl⟩

/-- Where an unmatched byte is next, nothing is listed and the byte after it is next (R148). -/
theorem DecodeRun.step_unmatched {s : State} {u : Byte} {rest : List Byte} (h : DecodeRun s (u :: rest))
    (hdecode : decode (u :: rest) = .unmatched) :
    ∃ t, step s = .next t ∧ DecodeRun t rest ∧ t.decoded = s.decoded ∧ t.idx = s.idx + 1 := by
  obtain ⟨hphase, hrom, hmode, hform, hbytes⟩ := h
  have hrest : Memory.bytesFrom s.mem (s.idx + 1) = rest := by
    rw [Memory.bytesFrom_add _ _ _ hform, hbytes, List.drop_one, List.tail_cons]
  exact ⟨_, step_of_decode_unmatched hphase hrom hbytes hdecode, ⟨hphase, hrom, hmode, hform, hrest⟩, rfl, rfl⟩

/-- Where no byte is left, the run is finished with its output list. -/
theorem DecodeRun.step_end {s : State} (h : DecodeRun s []) : step s = .next { s with phase := .finished } := by
  rw [step_of_no_bytes h.phase h.bytes, State.endWalk, h.mode]

/-- Instructions up to the end of the stream: a step for each, and the end of the walk. -/
theorem DecodeRun.run_encodeAll {s : State} {is : List Instr} (h : DecodeRun s (Spec.encodeAll is))
    (hwf : ∀ i ∈ is, i.wf = true) :
    ∃ t, Host.Core.run core (is.length + 1) s = .next t ∧ t.phase = .finished ∧
      t.decoded = s.decoded ++ Spec.rowsFrom s.idx is := by
  obtain ⟨hphase, hrom, hmode, hform, hbytes⟩ := h
  obtain ⟨sc, hwalk⟩ := run_walk hwf hphase hrom hform hbytes
  have hrest : Memory.bytesFrom s.mem (s.idx + (Spec.encodeAll is).length) = [] := by
    rw [Memory.bytesFrom_add _ _ _ hform, hbytes, List.drop_length]
  refine ⟨_, (run_add_of_next hwalk 1).trans (run_succ_of_next (DecodeRun.step_end ?_) 0), rfl, rfl⟩
  exact ⟨hphase, hrom, hmode, hform, hrest⟩

/-- Settles O25: the walk lists the rows in stream order, and its end finishes the run. -/
theorem streamOfInstructionsDecodes : Obligations.StreamOfInstructionsDecodes :=
  fun is hwf => (decodeRun_loadStream (Spec.encodeAll is)).run_encodeAll hwf

/-- Settles O26: the first instruction is listed, the byte is skipped, and then the second instruction stands alone. -/
theorem resyncAfterUnrecognizedByte : Obligations.ResyncAfterUnrecognizedByte := by
  intro i j u hi hj hrom hgroup
  obtain ⟨t₁, hfirst, ht₁, hdecoded₁, hidx₁⟩ := (decodeRun_loadStream (encode i ++ u :: encode j)).step_encode hi
  obtain ⟨t₂, hskip, ht₂, hdecoded₂, hidx₂⟩ := ht₁.step_unmatched (decode_of_not_isRomByte hrom hgroup _)
  have hsecond : DecodeRun t₂ (Spec.encodeAll [j]) := by
    rwa [Spec.encodeAll, Spec.encodeAll, List.append_nil]
  obtain ⟨t, hwalk, hphase, hdecoded⟩ := hsecond.run_encodeAll (List.forall_mem_singleton.mpr hj)
  have hrun := ((run_succ_of_next hfirst 3).trans (run_succ_of_next hskip 2)).trans hwalk
  refine ⟨t, hrun, hphase, ?_⟩
  rw [hdecoded, hdecoded₂, hdecoded₁, hidx₂, hidx₁]
  simp [Spec.rowsFrom, State.loadStream, State.reset]

end Sys2Proof.Machine
end

section
/-! The checks of a step and the `mov` family: which check stops a step, what a completed `mov` writes and what it
leaves as it is, and that no step is refused (40_mov.md R200 to R210, 60_exceptions.md R305, R307). -/

namespace Sys2Proof.Machine

/-! ## No step is refused -/

theorem execMnemonic_ne_refused (m : Mnemonic) (dst src : EuOperand) (s : State) (r : Refusal) :
    execMnemonic m dst src s ≠ .refused r := by
  intro h
  obtain ⟨k, hk⟩ | ⟨regs, flags, record, hn⟩ := execMnemonic_cases m dst src s
  · cases hk.symm.trans h
  · cases hn.symm.trans h

theorem execListed_ne_refused (x : Listed) (s : State) (r : Refusal) : execListed x s ≠ .refused r := by
  cases x with
  | row idx i =>
    rw [execListed, exec_eq_execMnemonic]
    exact execMnemonic_ne_refused _ _ _ s r
  | replaced idx d => exact execMnemonic_ne_refused _ _ _ s r
  | line l =>
    rw [execListed, execLine]
    split
    · nofun
    · exact execMnemonic_ne_refused _ _ _ s r

theorem executeStep_ne_refused (s : State) (r : Refusal) : executeStep s ≠ .refused r := by
  cases hx : s.program[s.pos]? with
  | none =>
    rw [executeStep_end hx]
    nofun
  | some x =>
    rw [executeStep_listed hx]
    exact execListed_ne_refused x s r

theorem parseStep_ne_refused (s : State) (r : Refusal) : parseStep s ≠ .refused r := by
  rw [parseStep]
  split <;> nofun

/-- Settles O32: in each phase, the unit whose turn it is answers a next state or a fault. -/
theorem noStepIsRefused : Obligations.NoStepIsRefused := by
  intro s r
  cases hphase : s.phase with
  | decoding =>
    rw [step_decoding hphase]
    exact walkStep_ne_refused s r
  | parsing =>
    rw [step_parsing hphase]
    exact parseStep_ne_refused s r
  | executing =>
    rw [step_executing hphase]
    exact executeStep_ne_refused s r
  | finished =>
    rw [step_finished hphase]
    nofun

/-! ## Source values in plain arithmetic -/

/-- A name reads as its register's value or as its half's (10_state.md R33). -/
theorem RegFile.toNat_read (f : RegFile) (name : RegName) : (f.read name).toNat = Spec.registerValue f name := by
  rw [RegFile.read, Spec.registerValue]
  cases (resolve name).2 with
  | universal => exact BytePair.toNat_toWord _
  | high | low => exact toNat_zext16 _

theorem RegFile.read_eq_ofNat (f : RegFile) (name : RegName) :
    f.read name = BitVec.ofNat 16 (Spec.registerValue f name) := by
  rw [← RegFile.toNat_read, BitVec.ofNat_toNat, BitVec.setWidth_eq]

theorem toNat_immWord (data : Imm) : (immWord data).toNat = Spec.immValue data := by
  cases data with
  | byte v => exact toNat_zext16 v
  | word v => rfl

/-- An immediate for a byte destination is its value modulo 256 (R204). -/
theorem truncateTo_byte (v : Word) : truncateTo .byte v = BitVec.ofNat 16 (v.toNat % 256) := by
  rw [truncateTo, zext16_eq_ofNat, toNat_lowByte]

/-- Data of the destination's width loses nothing to the cut. -/
theorem truncateTo_immWord (data : Imm) : truncateTo data.width (immWord data) = immWord data := by
  cases data with
  | byte v =>
    have hv : v.toNat < 256 := v.isLt
    rw [Imm.width, truncateTo_byte, immWord, toNat_zext16, Nat.mod_eq_of_lt hv, zext16_eq_ofNat]
  | word v => rfl

theorem srcValue_reg {name : RegName} {w : Width} (h : name.width = w) (f : RegFile) :
    srcValue f w (.reg name) = .ok (f.read name) := by
  rw [srcValue, if_pos h]

theorem srcValue_reg_of_width_ne {name : RegName} {w : Width} (h : name.width ≠ w) (f : RegFile) :
    srcValue f w (.reg name) = .error .widthMismatch := by
  rw [srcValue, if_neg h]

theorem srcValue_immOperand {data : Imm} {w : Width} (h : data.width = w) (f : RegFile) :
    srcValue f w (immOperand data) = .ok (immWord data) := by
  rw [immOperand_eq, srcValue, ← h, truncateTo_immWord]

theorem srcValue_of_isMemory {op : Operand} (h : Spec.isMemory op = true) (f : RegFile) (w : Width) :
    srcValue f w op = .error .memoryOperand := by
  cases op with
  | mem | direct => rfl
  | none | reg | imm | rel => cases h

theorem destCheck_of_isMemory {op : Operand} (h : Spec.isMemory op = true) : destCheck op = .error .memoryOperand := by
  cases op with
  | mem | direct => rfl
  | none | reg | imm | rel => cases h

/-- Settles O46: each operand kind has its answer as a destination and as a source, and values are in plain
arithmetic. -/
theorem operandChecks : Obligations.OperandChecks := by
  intro f w name b v r
  refine ⟨rfl, rfl, rfl, rfl, rfl, rfl, rfl, rfl, rfl, rfl, ?_, rfl, fun h => srcValue_reg_of_width_ne h f,
    fun h => ?_⟩
  · rw [srcValue, truncateTo_byte]
  · rw [srcValue_reg h, RegFile.read_eq_ofNat]

/-! ## The checks in their order -/

section checks
variable {f : RegFile} {dst src : EuOperand} {d op : Operand} {name : RegName} {k : LookupKind}

theorem operandCheck_of_destination_error (hdst : operandOf dst = .error k) : operandCheck f dst src = .error k := by
  simp only [operandCheck, hdst]

theorem operandCheck_of_destCheck_error (hdst : operandOf dst = .ok d) (hcheck : destCheck d = .error k) :
    operandCheck f dst src = .error k := by
  simp only [operandCheck, hdst, hcheck]

theorem operandCheck_of_source_error (hdst : operandOf dst = .ok d) (hcheck : destCheck d = .ok name)
    (hsrc : operandOf src = .error k) : operandCheck f dst src = .error k := by
  simp only [operandCheck, hdst, hcheck, hsrc]

theorem operandCheck_of_srcValue_error (hdst : operandOf dst = .ok d) (hcheck : destCheck d = .ok name)
    (hsrc : operandOf src = .ok op) (hvalue : srcValue f name.width op = .error k) :
    operandCheck f dst src = .error k := by
  simp only [operandCheck, hdst, hcheck, hsrc, hvalue]

/-- A register destination and a source with a value pass. -/
theorem operandCheck_of_srcValue {v : Word} (hvalue : srcValue f name.width op = .ok v) :
    operandCheck f (.structured (.reg name)) (.structured op) = .ok (name, v) := by
  simp only [operandCheck, operandOf, destCheck, hvalue]

end checks

/-- A check that fails stops each of the four mnemonics, with the list position (60_exceptions.md R301, R305). -/
theorem execMnemonic_of_error {m : Mnemonic} (hm : m ∈ Spec.executed) {dst src : EuOperand} {s : State} {k : LookupKind}
    (h : operandCheck s.regs dst src = .error k) : execMnemonic m dst src s = .fault (.execLookup k s.pos) := by
  cases m with
  | mov => exact movOp_of_error h
  | add | sub => exact addSubOp_of_error h
  | cmp => exact cmpOp_of_error h
  | _ => exact absurd hm (by decide)

/-! ## What a `mov` writes and what it leaves -/

theorem movOp_reg_reg {name q : RegName} (h : q.width = name.width) (s : State) :
    movOp (.structured (.reg name)) (.structured (.reg q)) s =
      .next (Spec.movState name (Spec.registerValue s.regs q) s) := by
  rw [← RegFile.toNat_read]
  exact movOp_eq_movState (operandCheck_of_srcValue (srcValue_reg h s.regs))

theorem movOp_reg_immOperand {name : RegName} {data : Imm} (h : data.width = name.width) (s : State) :
    movOp (.structured (.reg name)) (.structured (immOperand data)) s =
      .next (Spec.movState name (Spec.immValue data) s) := by
  rw [← toNat_immWord]
  exact movOp_eq_movState (operandCheck_of_srcValue (srcValue_immOperand h s.regs))

/-- Settles O38: a register or immediate source of the destination's width has a value, which is written; a check that
fails is the step's fault. -/
theorem movWritesTheSource : Obligations.MovWritesTheSource := by
  refine ⟨fun d reg r s h => ?_, fun u r data s h => movOp_reg_immOperand h s,
    fun r data s h => movOp_reg_immOperand h s, fun dst src k s hdst => ?_, fun dst src name k s hdst hsrc => ?_⟩
  · cases d with
    | false => exact movOp_reg_reg h s
    | true => exact movOp_reg_reg h.symm s
  · exact movOp_of_error (operandCheck_of_destCheck_error rfl hdst)
  · exact movOp_of_error (operandCheck_of_srcValue_error rfl hdst rfl hsrc)

/-- What a `mov` that completes has done (R205). -/
theorem movOp_next {d : Operand} {src : EuOperand} {s t : State} (h : movOp (.structured d) src s = .next t) :
    ∃ name v r, d = .reg name ∧ t = State.retire { s with regs := s.regs.write name v } (some r) := by
  cases hcheck : operandCheck s.regs (.structured d) src with
  | error k => cases (movOp_of_error hcheck).symm.trans h
  | ok q =>
    obtain ⟨name, v⟩ := q
    cases (movOp_of_check hcheck).symm.trans h
    exact ⟨name, v, _, operandCheck_destination hcheck, rfl⟩

/-- Settles O48: a completed `mov` is a write to its destination's name and a retired step. -/
theorem movFrame : Obligations.MovFrame := by
  intro i name s t hm hdst h
  rw [exec_eq_execMnemonic, hm, hdst] at h
  obtain ⟨name', v, r, hname, rfl⟩ := movOp_next h
  cases hname
  refine ⟨fun q hq => RegFile.get_write_other s.regs name v q hq, fun hlow => ?_, fun hhigh => ?_,
    rfl, rfl, rfl, rfl, rfl, rfl, rfl, rfl, rfl, fun _ => rfl⟩
  · rw [State.retire_regs, RegFile.get_write_same, hlow, BytePair.write_low_hi]
  · rw [State.retire_regs, RegFile.get_write_same, hhigh, BytePair.write_high_lo]

/-! ## Memory operands -/

theorem execMnemonic_memory_destination {m : Mnemonic} (hm : m ∈ Spec.executed) {dst : Operand}
    (hdst : Spec.isMemory dst = true) (src : EuOperand) (s : State) :
    execMnemonic m (.structured dst) src s = .fault (.execLookup .memoryOperand s.pos) :=
  execMnemonic_of_error hm (operandCheck_of_destCheck_error rfl (destCheck_of_isMemory hdst))

theorem execMnemonic_memory_source {m : Mnemonic} (hm : m ∈ Spec.executed) (name : RegName) {src : Operand}
    (hsrc : Spec.isMemory src = true) (s : State) :
    execMnemonic m (.structured (.reg name)) (.structured src) s = .fault (.execLookup .memoryOperand s.pos) :=
  execMnemonic_of_error hm (operandCheck_of_srcValue_error rfl rfl rfl (srcValue_of_isMemory hsrc s.regs name.width))

/-- Settles O43: a memory destination fails its check, and a memory source has no value. -/
theorem memoryOperandsFault : Obligations.MemoryOperandsFault :=
  ⟨fun _ _ src s hm hdst => execMnemonic_memory_destination hm hdst src s,
    fun _ name _ s hm hsrc => execMnemonic_memory_source hm name hsrc s⟩

/-- A mode other than 11 is a memory operand (R203). -/
theorem isMemory_rmOperand {rm : RmOperand} (h : rm.mode ≠ 0b11#2) : Spec.isMemory (rmOperand rm) = true := by
  cases rm with
  | direct | base | disp8 | disp16 => rfl
  | reg => exact absurd rfl h

/-- The format RM has its memory operand as its source or as its destination, by the direction (30_encoding.md R143). -/
theorem execMnemonic_rmReg_memory {m : Mnemonic} (hm : m ∈ Spec.executed) (d : Bool) (reg : RegName) {rm : RmOperand}
    (hrm : Spec.isMemory (rmOperand rm) = true) (s : State) :
    execMnemonic m (.structured (rmRegDestination d reg rm)) (.structured (rmRegSource d reg rm)) s =
      .fault (.execLookup .memoryOperand s.pos) := by
  cases d with
  | false => exact execMnemonic_memory_destination hm hrm _ s
  | true => exact execMnemonic_memory_source hm reg hrm s

/-- Settles O44: each row steps as its mnemonic on its operands, one of which is a memory operand. -/
theorem memoryFormsFault : Obligations.MemoryFormsFault := by
  intro d u reg rm imm g s hmode
  have hrm := isMemory_rmOperand hmode
  have hrmReg {m : Mnemonic} (hm : m ∈ Spec.executed) := execMnemonic_rmReg_memory hm d reg hrm s
  have himmRm {m : Mnemonic} (hm : m ∈ Spec.executed) (src : EuOperand) := execMnemonic_memory_destination hm hrm src s
  simp only [exec_eq_execMnemonic]
  exact ⟨hrmReg (m := .mov) (by decide), hrmReg (m := .add) (by decide), hrmReg (m := .sub) (by decide),
    hrmReg (m := .cmp) (by decide), himmRm (m := .mov) (by decide) _, himmRm (m := .add) (by decide) _,
    himmRm (m := .sub) (by decide) _, himmRm (m := .cmp) (by decide) _⟩

/-- Settles O45: the address is the source of the one row and the destination of the other. -/
theorem accumulatorMemoryMovesAlwaysFault : Obligations.AccumulatorMemoryMovesAlwaysFault := by
  intro w a s
  exact ⟨execMnemonic_memory_source (m := .mov) (by decide) (accumulator w) (src := .direct a) rfl s,
    execMnemonic_memory_destination (m := .mov) (by decide) (dst := .direct a) rfl _ s⟩

/-! ## Parsed lines -/

theorem mnemonicOfText_eq_none {t : Text} (h : ∀ m, mnemonicText m ≠ t) : mnemonicOfText t = none :=
  List.find?_eq_none.mpr fun m _ => beq_iff_eq.not.mpr (h m)

/-- Settles O55: no mnemonic is found for the text, and the line's operands are never looked at. -/
theorem unknownMnemonicFaults : Obligations.UnknownMnemonicFaults := by
  intro l s h
  rw [execLine, mnemonicOfText_eq_none h]
  rfl

theorem execLine_mnemonicText (m : Mnemonic) (d : Text) (src : Option Text) (n : Nat) (s : State) :
    execLine ⟨mnemonicText m, d, src, n⟩ s =
      execMnemonic m (.text d) (lineSource ⟨mnemonicText m, d, src, n⟩) s := by
  rw [execLine, mnemonicOfText_mnemonicText]

/-- Settles O57: the checks of a line fail in their order, the destination's before the source's. -/
theorem destinationChecksComeFirst : Obligations.DestinationChecksComeFirst := by
  refine ⟨fun m d src n k s hm hd => ?_, fun m d op src n k s hm hd hop => ?_, fun m name src n k s hm hsrc => ?_⟩
  · rw [execLine_mnemonicText]
    exact execMnemonic_of_error hm (operandCheck_of_destination_error hd)
  · rw [execLine_mnemonicText]
    exact execMnemonic_of_error hm (operandCheck_of_destCheck_error hd hop)
  · rw [execLine_mnemonicText]
    exact execMnemonic_of_error hm (operandCheck_of_source_error (interpret_regText name) rfl hsrc)

end Sys2Proof.Machine
end

section
/-! The arithmetic family: what `add`, `sub` and `cmp` write and what they leave as it is (41_arith.md R220 to R242). -/

namespace Sys2Proof.Machine

/-! ## The ALU in plain arithmetic -/

theorem toNat_alu16 (op : AluOp) (a b : Word) : (alu16 op a b).toNat = Spec.arith op 65536 a.toNat b.toNat := by
  cases op with
  | add => exact BitVec.toNat_add a b
  | sub => rw [alu16, BitVec.toNat_sub, Nat.add_comm]; rfl

theorem toNat_alu8 (op : AluOp) (a b : Byte) : (alu8 op a b).toNat = Spec.arith op 256 a.toNat b.toNat := by
  cases op with
  | add => exact BitVec.toNat_add a b
  | sub => rw [alu8, BitVec.toNat_sub, Nat.add_comm]; rfl

/-- The operation on one half sees the source modulo 256 (R221). -/
theorem alu8_lowByte_eq_ofNat (op : AluOp) (a : Byte) (v : Word) :
    alu8 op a (lowByte v) = BitVec.ofNat 8 (Spec.arith op 256 a.toNat (v.toNat % 256)) := by
  rw [← toNat_lowByte, ← toNat_alu8, BitVec.ofNat_toNat, BitVec.setWidth_eq]

/-- The operation on a register's pair (R220, R221). -/
theorem BytePair.alu_eq_resultPair (p : BytePair) (op : AluOp) (m : AccessMode) (v : Word) :
    p.alu op m v = Spec.resultPair op m p v.toNat := by
  cases m with
  | universal =>
    have hv : v.toNat % 65536 = v.toNat := Nat.mod_eq_of_lt v.isLt
    rw [Spec.resultPair, hv, ← toNat_toWord, ← toNat_alu16]
    exact write_eq_writtenPair p .universal (alu16 op p.toWord v)
  | high => rw [alu, alu8_lowByte_eq_ofNat, Spec.resultPair]
  | low => rw [alu, alu8_lowByte_eq_ofNat, Spec.resultPair]

theorem flagsOf_toWord (p : BytePair) : flagsOf p.toWord = Spec.pairFlags p := by
  rw [flagsOf_eq, BytePair.toNat_toWord, Spec.pairFlags]

/-- The cut of an immediate to the destination's width does not change the result: a half sees no more of it (R204, R221). -/
theorem resultPair_truncateTo (op : AluOp) (name : RegName) (p : BytePair) (v : Word) :
    Spec.resultPair op (resolve name).2 p (truncateTo name.width v).toNat =
      Spec.resultPair op (resolve name).2 p v.toNat := by
  cases name with
  | r16 r => rfl
  | r8 r =>
    have hmod : (truncateTo .byte v).toNat % 256 = v.toNat % 256 := by
      rw [truncateTo, toNat_zext16, toNat_lowByte, Nat.mod_mod]
    cases r <;> simp only [resolve, regAccess, RegName.width, Spec.resultPair, hmod]

theorem arithState_truncateTo (op : AluOp) (name : RegName) (v : Word) (s : State) :
    Spec.arithState op name (truncateTo name.width v).toNat s = Spec.arithState op name v.toNat s := by
  simp only [Spec.arithState, resultPair_truncateTo]

/-! ## The step in plain arithmetic -/

theorem addSubOp_eq_arithState {op : AluOp} {dst src : EuOperand} {s : State} {name : RegName} {v : Word}
    (h : operandCheck s.regs dst src = .ok (name, v)) :
    addSubOp op dst src s = .next (Spec.arithState op name v.toNat s) := by
  rw [addSubOp_of_check h, BytePair.alu_eq_resultPair, flagsOf_toWord, RegFile.word, Spec.arithState]
  simp only [BytePair.ofNat_pairValue]
  rfl

/-- `cmp` is `sub` on a private copy: where `sub` completes, `cmp` does the same but for the registers (R223). -/
theorem cmpOp_of_sub {dst src : EuOperand} {s t : State} (h : addSubOp .sub dst src s = .next t) :
    cmpOp dst src s = .next { t with regs := s.regs } := by
  cases hcheck : operandCheck s.regs dst src with
  | error k => cases (addSubOp_of_error hcheck).symm.trans h
  | ok q =>
    cases (addSubOp_of_check hcheck).symm.trans h
    exact cmpOp_of_check hcheck

theorem addSubOp_reg_reg (op : AluOp) {name q : RegName} (h : q.width = name.width) (s : State) :
    addSubOp op (.structured (.reg name)) (.structured (.reg q)) s =
      .next (Spec.arithState op name (Spec.registerValue s.regs q) s) := by
  rw [← RegFile.toNat_read]
  exact addSubOp_eq_arithState (operandCheck_of_srcValue (srcValue_reg h s.regs))

/-- An immediate of any width has a value for any register (R204). -/
theorem addSubOp_reg_imm (op : AluOp) (name : RegName) (v : Word) (s : State) :
    addSubOp op (.structured (.reg name)) (.structured (.imm v)) s = .next (Spec.arithState op name v.toNat s) := by
  rw [← arithState_truncateTo]
  exact addSubOp_eq_arithState (operandCheck_of_srcValue rfl)

/-! ## The three formats of the family -/

theorem toNat_grpWord (data : GrpImm) : (grpWord data).toNat = Spec.groupValue data := by
  cases data with
  | byte v => exact toNat_zext16 v
  | word v => rfl
  | signed w v =>
    have hv : v.toNat < 256 := v.isLt
    rw [grpWord, sext16_eq_ofNat, Spec.groupValue, BitVec.toNat_ofNat, Nat.mod_eq_of_lt]
    split <;> omega

theorem accumulator_eq_accumulatorName (w : Width) : accumulator w = Spec.accumulatorName w := by
  cases w <;> rfl

/-- Format RM with two registers, in both directions (R230, R235). -/
theorem addSubOp_rmReg_reg (op : AluOp) (d : Bool) {reg r : RegName} (h : reg.width = r.width) (s : State) :
    addSubOp op (.structured (rmRegDestination d reg (.reg r))) (.structured (rmRegSource d reg (.reg r))) s =
      .next (Spec.arithState op (if d then reg else r) (Spec.registerValue s.regs (if d then r else reg)) s) := by
  cases d with
  | false => exact addSubOp_reg_reg op h s
  | true => exact addSubOp_reg_reg op h.symm s

/-- Format GRP with a register (R231, R236). -/
theorem addSubOp_reg_grpOperand (op : AluOp) (r : RegName) (data : GrpImm) (s : State) :
    addSubOp op (.structured (.reg r)) (.structured (grpOperand data)) s =
      .next (Spec.arithState op r (Spec.groupValue data) s) := by
  rw [grpOperand_eq, addSubOp_reg_imm, toNat_grpWord]

/-- Format ACC_IMM (R232, R237). -/
theorem addSubOp_accumulator_immOperand (op : AluOp) (data : Imm) (s : State) :
    addSubOp op (.structured (.reg (accumulator data.width))) (.structured (immOperand data)) s =
      .next (Spec.arithState op (Spec.accumulatorName data.width) (Spec.immValue data) s) := by
  rw [immOperand_eq, addSubOp_reg_imm, toNat_immWord, accumulator_eq_accumulatorName]

/-- Settles O39: each format of the family at `add`; a check that fails is the step's fault. -/
theorem addWritesTheSum : Obligations.AddWritesTheSum :=
  ⟨fun d _ _ s h => addSubOp_rmReg_reg .add d h s, fun r data s _ => addSubOp_reg_grpOperand .add r data s,
    fun data s => addSubOp_accumulator_immOperand .add data s,
    fun _ _ _ _ hdst => addSubOp_of_error (operandCheck_of_destCheck_error rfl hdst),
    fun _ _ _ _ _ hdst hsrc => addSubOp_of_error (operandCheck_of_srcValue_error rfl hdst rfl hsrc)⟩

/-- Settles O40: each format of the family at `sub`; a check that fails is the step's fault. -/
theorem subWritesTheDifference : Obligations.SubWritesTheDifference :=
  ⟨fun d _ _ s h => addSubOp_rmReg_reg .sub d h s, fun r data s _ => addSubOp_reg_grpOperand .sub r data s,
    fun data s => addSubOp_accumulator_immOperand .sub data s,
    fun _ _ _ _ hdst => addSubOp_of_error (operandCheck_of_destCheck_error rfl hdst),
    fun _ _ _ _ _ hdst hsrc => addSubOp_of_error (operandCheck_of_srcValue_error rfl hdst rfl hsrc)⟩

/-- Settles O41: each format is what `sub` does, with the registers as before; a check that fails is the step's fault. -/
theorem cmpWritesOnlyTheFlags : Obligations.CmpWritesOnlyTheFlags :=
  ⟨fun d _ _ s h => cmpOp_of_sub (addSubOp_rmReg_reg .sub d h s),
    fun r data s _ => cmpOp_of_sub (addSubOp_reg_grpOperand .sub r data s),
    fun data s => cmpOp_of_sub (addSubOp_accumulator_immOperand .sub data s),
    fun _ _ _ _ hdst => cmpOp_of_error (operandCheck_of_destCheck_error rfl hdst),
    fun _ _ _ _ _ hdst hsrc => cmpOp_of_error (operandCheck_of_srcValue_error rfl hdst rfl hsrc)⟩

/-! ## The frame of `add` and `sub` -/

theorem exec_eq_addSubOp {i : Instr} (h : instrMnemonic i ∈ [.add, .sub]) (s : State) :
    ∃ op, exec i s = addSubOp op (.structured (instrDestination i)) (.structured (instrSource i)) s := by
  rw [exec_eq_execMnemonic]
  obtain hadd | hsub := List.mem_pair.mp h
  · exact ⟨.add, by rw [hadd, execMnemonic]⟩
  · exact ⟨.sub, by rw [hsub, execMnemonic]⟩

/-- An `add` or `sub` that completes has written its result to the destination's register (R220). -/
theorem addSubOp_next_arithState {op : AluOp} {d : Operand} {src : EuOperand} {s t : State}
    (h : addSubOp op (.structured d) src s = .next t) :
    ∃ name v, d = .reg name ∧ t = Spec.arithState op name v s := by
  cases hcheck : operandCheck s.regs (.structured d) src with
  | error k => cases (addSubOp_of_error hcheck).symm.trans h
  | ok q =>
    obtain ⟨name, v⟩ := q
    cases (addSubOp_eq_arithState hcheck).symm.trans h
    exact ⟨name, v.toNat, operandCheck_destination hcheck, rfl⟩

section arithState
variable (op : AluOp) (name : RegName) (v : Nat) (s : State)

theorem arithState_get_same : (Spec.arithState op name v s).regs.get (resolve name).1 =
    Spec.resultPair op (resolve name).2 (s.regs.get (resolve name).1) v :=
  RegFile.get_set_same _ _ _

theorem arithState_get_other {q : Reg16} (h : q ≠ (resolve name).1) :
    (Spec.arithState op name v s).regs.get q = s.regs.get q :=
  RegFile.get_set_other _ _ _ _ h

end arithState

/-- Settles O49: a completed `add` or `sub` sets its destination's register to a result that keeps the half it does
not address. -/
theorem addSubFrame : Obligations.AddSubFrame := by
  intro i name s t hm hdst h
  obtain ⟨op, hexec⟩ := exec_eq_addSubOp hm s
  rw [hexec, hdst] at h
  obtain ⟨name', v, hname, rfl⟩ := addSubOp_next_arithState h
  cases hname
  refine ⟨fun q hq => arithState_get_other op name v s hq, fun hlow => ?_, fun hhigh => ?_,
    rfl, rfl, rfl, rfl, rfl, rfl, rfl, rfl, fun _ => rfl⟩
  · rw [arithState_get_same, hlow, Spec.resultPair]
  · rw [arithState_get_same, hhigh, Spec.resultPair]

end Sys2Proof.Machine
end

section
/-! The step on a branch line (42_branch.md R260). -/

namespace Sys2Proof.Machine

/-- What every branch does is the specified no-op: a record `None` and the next list position. -/
theorem branchOp_eq_branchState (s : State) : branchOp s = .next (Spec.branchState s) := rfl

/-- Settles O56: a branch's spelling is dispatched to its mnemonic, which reads neither operand. -/
theorem branchTextIsNotInterpreted : Obligations.BranchTextIsNotInterpreted := by
  intro m d src n s hm
  rw [execLine_mnemonicText, execMnemonic_of_not_executed hm, branchOp_eq_branchState]

end Sys2Proof.Machine
end

section
/-! Faults and what is printed: which fault each unit can raise and with which number, the parse that comes before the
first execution, and the lines of the host (60_exceptions.md R301 to R307, R320 to R327, 00_scope.md R12). -/

namespace Sys2Proof.Machine

/-! ## The faults of the Decode Unit -/

/-- A fault of a walker's step is a fault of its iteration, with `idx` added (R301). -/
theorem iterate_error_of_walkStep_fault {s : State} {f : Fault} (h : walkStep s = .fault f) :
    ∃ e, iterate s.schema (Memory.bytesFrom s.mem s.idx) = .error e ∧ raiseDecode e s = .fault f := by
  obtain ⟨e, hiter, hw⟩ | ⟨-, hw⟩ | ⟨-, hw⟩ | ⟨d, sc, -, hw⟩ := walkStep_cases s
  · exact ⟨e, hiter, hw.symm.trans h⟩
  all_goals cases hw.symm.trans h

/-- The decoder of the format tables knows one fault, and over the ROM the pipeline finds what that decoder finds. -/
theorem iterate_romSchema_error {bs : List Byte} {e : DecodeFault} (h : iterate romSchema bs = .error e) :
    e = .truncated := by
  cases bs with
  | nil => cases h
  | cons b0 tail =>
    have hfinds := pipelineFinds_decode b0 tail
    rw [h] at hfinds
    cases hdec : decode (b0 :: tail) with
    | hit i rest =>
      rw [hdec] at hfinds
      obtain ⟨sc, hit⟩ := hfinds
      cases hit
    | unmatched =>
      rw [hdec] at hfinds
      cases hfinds
    | truncated =>
      rw [hdec] at hfinds
      cases hfinds
      rfl

/-- Settles O20: a fault of the step is one of the iteration, which over the ROM is `Truncated`, raised with the
cursor. -/
theorem romRaisesOnlyTruncated : Obligations.RomRaisesOnlyTruncated := by
  intro s f hphase hschema hstep
  rw [step_decoding hphase] at hstep
  obtain ⟨e, hiter, hraise⟩ := iterate_error_of_walkStep_fault hstep
  rw [hschema] at hiter
  obtain rfl := iterate_romSchema_error hiter
  cases hraise
  rfl

/-! ## The faults of the Execution Unit -/

theorem execMnemonic_fault {m : Mnemonic} {dst src : EuOperand} {s : State} {f : Fault}
    (h : execMnemonic m dst src s = .fault f) : ∃ k, f = .execLookup k s.pos := by
  obtain ⟨k, hk⟩ | ⟨regs, flags, r, hn⟩ := execMnemonic_cases m dst src s
  · cases hk.symm.trans h
    exact ⟨k, rfl⟩
  · cases hn.symm.trans h

/-- Whatever a list element is, its fault carries the list position (R301, R305). -/
theorem execListed_fault {x : Listed} {s : State} {f : Fault} (h : execListed x s = .fault f) :
    ∃ k, f = .execLookup k s.pos := by
  cases x with
  | row idx i =>
    rw [execListed, exec_eq_execMnemonic] at h
    exact execMnemonic_fault h
  | replaced idx d => exact execMnemonic_fault h
  | line l =>
    rw [execListed, execLine] at h
    split at h
    · cases h
      exact ⟨.unknownMnemonic, rfl⟩
    · exact execMnemonic_fault h

/-- Settles O47: only a list element can raise a fault, for the end of the list raises none. -/
theorem executionFaultsCarryThePosition : Obligations.ExecutionFaultsCarryThePosition := by
  intro s f hphase hstep
  rw [step_executing hphase] at hstep
  cases hx : s.program[s.pos]? with
  | none => cases (executeStep_end hx).symm.trans hstep
  | some x => exact execListed_fault ((executeStep_listed hx).symm.trans hstep)

/-- Settles O29: past the list there is no element to execute. -/
theorem runEndsAfterTheLastInstruction : Obligations.RunEndsAfterTheLastInstruction := by
  refine fun s => ⟨fun hphase hpos => ?_, fun hphase => step_finished hphase⟩
  rw [step_executing hphase]
  exact executeStep_end (List.getElem?_eq_none hpos)

/-! ## The parse of a text -/

/-- A parsed line has the length 0 (30_encoding.md R156). -/
theorem length_of_parseOperands {mnemonic rest : Text} {p : ParsedLine} (h : parseOperands mnemonic rest = some p) :
    p.length = 0 := by
  rw [parseOperands] at h
  split at h <;> split at h <;> cases h <;> rfl

theorem length_of_parseLine {t : Text} {p : ParsedLine} (h : parseLine t = some p) : p.length = 0 := by
  rw [parseLine] at h
  split at h
  · cases h
  · exact length_of_parseOperands h

theorem parseLinesFrom_cons_of_none {l : Text} (h : parseLine l = none) (n : Nat) (ls : List Text) :
    parseLinesFrom n (l :: ls) = .error n := by
  rw [parseLinesFrom, h]

/-- A line that parses leaves the answer to the lines after it. -/
theorem parseLinesFrom_cons_of_some {l : Text} {p : ParsedLine} (h : parseLine l = some p) (n : Nat)
    (ls : List Text) : parseLinesFrom n (l :: ls) = (parseLinesFrom (n + 1) ls).map (p :: ·) := by
  rw [parseLinesFrom, h]
  cases parseLinesFrom (n + 1) ls with
  | error | ok => rfl

/-- The first line that fails is the one whose number is reported (R301, R304). -/
theorem parseLinesFrom_error {ls : List Text} {i : Nat} {l : Text} (hl : ls[i]? = some l) (hfails : parseLine l = none)
    (hbefore : ∀ k m, k < i → ls[k]? = some m → parseLine m ≠ none) (n : Nat) :
    parseLinesFrom n ls = .error (n + i) := by
  induction ls generalizing i n with
  | nil => cases hl
  | cons x rest ih =>
    cases i with
    | zero =>
      cases hl
      exact parseLinesFrom_cons_of_none hfails n rest
    | succ i =>
      obtain ⟨p, hp⟩ := Option.ne_none_iff_exists'.mp (hbefore 0 x (Nat.succ_pos i) rfl)
      have hrest := ih hl (fun k m hk hm => hbefore (k + 1) m (Nat.succ_lt_succ hk) hm) (n + 1)
      rw [parseLinesFrom_cons_of_some hp, hrest, Nat.add_right_comm, Nat.add_assoc]
      rfl

/-- With no line failing, each line gives its element, in order. -/
theorem parseLinesFrom_ok {ls : List Text} (h : ∀ l ∈ ls, parseLine l ≠ none) (n : Nat) :
    ∃ ps : List ParsedLine, ls.map parseLine = ps.map some ∧ parseLinesFrom n ls = .ok ps := by
  induction ls generalizing n with
  | nil => exact ⟨[], rfl, rfl⟩
  | cons l rest ih =>
    obtain ⟨hl, hrest⟩ := List.forall_mem_cons.mp h
    obtain ⟨p, hp⟩ := Option.ne_none_iff_exists'.mp hl
    obtain ⟨ps, hmap, hparse⟩ := ih hrest (n + 1)
    refine ⟨p :: ps, ?_, ?_⟩
    · rw [List.map_cons, List.map_cons, hp, hmap]
    · rw [parseLinesFrom_cons_of_some hp, hparse]
      rfl

/-- Every element stems from a line of the text. -/
theorem length_of_map_parseLine {ls : List Text} {ps : List ParsedLine} (h : ls.map parseLine = ps.map some)
    {p : ParsedLine} (hp : p ∈ ps) : p.length = 0 := by
  have hmem : some p ∈ ls.map parseLine := h ▸ List.mem_map_of_mem hp
  obtain ⟨l, -, hl⟩ := List.mem_map.mp hmem
  exact length_of_parseLine hl

/-- Settles O54, by induction over the lines: the parse stops at the first that fails, and otherwise gives one element
for each, with which the execution starts. -/
theorem parsingComesFirst : Obligations.ParsingComesFirst := by
  intro s hphase
  rw [step_parsing hphase]
  refine ⟨fun n l hl hfails hbefore => ?_, fun h => ?_⟩
  · have herror : parseText s.text = .error (n + 1) := Nat.add_comm 1 n ▸ parseLinesFrom_error hl hfails hbefore 1
    rw [parseStep, herror]
  · obtain ⟨ps, hmap, hparse⟩ := parseLinesFrom_ok h 1
    have hok : parseText s.text = .ok ps := hparse
    refine ⟨ps, hmap, fun p hp => length_of_map_parseLine hmap hp, ?_⟩
    rw [parseStep, hok]
    rfl

/-! ## Hexadecimal values and the dump -/

theorem hexChar_eq_getD {k : Nat} (h : k < 16) : hexChar k = Spec.hexDigits.getD k '0' := by
  have hall : ∀ k < 16, hexChar k = Spec.hexDigits.getD k '0' := by decide
  exact hall k h

/-- `Hex(v)` is the four digits of `v` (R320). -/
theorem hexText_eq_hexForm (v : Word) : hexText v = Spec.hexForm v.toNat := by
  have hv : v.toNat < 65536 := v.isLt
  have htop : v.toNat / 4096 % 16 = v.toNat / 4096 := by omega
  have hdigit : ∀ k, hexChar (k % 16) = Spec.hexDigits.getD (k % 16) '0' := fun k =>
    hexChar_eq_getD (Nat.mod_lt k (by decide))
  rw [hexText, ← htop, hdigit, hdigit, hdigit, hdigit]
  rfl

/-- A line of the dump is a register's name and value (R321). -/
theorem dumpLine_eq (f : RegFile) (r : Reg16) :
    dumpLine f r = reg16Text r ++ [':', ' '] ++ Spec.hexForm (Spec.pairValue (f.get r)) := by
  rw [dumpLine, hexText_eq_hexForm, RegFile.word, BytePair.toNat_toWord]

/-- In `decode` mode the instructions are printed once the walk is finished (00_scope.md R12, R303). -/
theorem printed_decode {s : State} (h : s.mode = .decode) :
    printed s = if s.phase = .finished then decodeLines s else [] := by
  cases hphase : s.phase <;> simp [printed, h, hphase]

/-- The direct path prints nothing (R322). -/
theorem printed_direct {s : State} (h : s.mode = .direct) : printed s = [] := by
  simp [printed, h]

/-- Settles O59: each clause is a line of the definition of what is printed, and the dump has the registers in their
canonical order. -/
theorem dumpIsTwelveLines : Obligations.DumpIsTwelveLines := by
  intro s
  refine ⟨List.map_congr_left fun r _ => dumpLine_eq s.regs r, fun hmode hphase => ?_, fun hmode hphase => ?_,
    fun hmode hphase => ?_, fun hmode hphase => ?_, printed_decode, printed_direct⟩
  all_goals rw [printed, hmode, hphase]

/-! ## Trace lines and decode lines -/

/-- The trace line of a parsed line is the specified one (R320). -/
theorem traceLine_eq_stepLine (l : ParsedLine) (r : Option TraceRecord) :
    traceLine l.mnemonic l.destination (l.source.getD []) r = Spec.stepLine l r := by
  cases r with
  | none => rfl
  | some r => rw [traceLine, Spec.stepLine, hexText_eq_hexForm, hexText_eq_hexForm]

theorem listedTraceLine_line (l : ParsedLine) (r : Option TraceRecord) :
    listedTraceLine (.line l) r = some (Spec.stepLine l r) :=
  congrArg some (traceLine_eq_stepLine l r)

/-- A decoded instruction is rendered as the specified line (30_encoding.md R155). -/
theorem renderInstruction_eq_instructionLine (d : DecodedInstruction) :
    renderInstruction d = Spec.instructionLine d := by
  by_cases h : d.source = .none <;> simp [renderInstruction, Spec.instructionLine, h]

/-- Settles O60: every record of a run over parsed lines, and every element of the output list, gives one line. -/
theorem printedLinesFollowTheirForms : Obligations.PrintedLinesFollowTheirForms := by
  refine ⟨fun s ls hprogram => ?_, fun s xs hxs hdecoded => ?_⟩
  · rw [traceLines, hprogram, List.zip_map_left, List.map_map, List.filterMap_map]
    exact List.filterMap_eq_map_iff_forall_eq_some.mpr fun p _ => listedTraceLine_line p.1 p.2
  · have hlisted : ∀ x ∈ xs, decodedOfListed x.1 = some x.2 := by
      intro x hx
      obtain ⟨idx, i, hrow, hd⟩ | ⟨idx, hreplaced⟩ := hxs x hx
      · rw [hrow, hd, decodedOfListed]
      · rw [hreplaced, decodedOfListed]
    have hall : (xs.map (·.1)).filterMap decodedOfListed = xs.map (·.2) := by
      rw [List.filterMap_map]
      exact List.filterMap_eq_map_iff_forall_eq_some.mpr hlisted
    rw [decodeLines, hdecoded, hall, List.map_map]
    exact List.map_congr_left fun x _ => renderInstruction_eq_instructionLine x.2

end Sys2Proof.Machine
end

section
/-! What reset and the absence of hazards leave to the model: the end of the walk, and branches that do nothing
(70_reset_and_hazards.md R340, R341, R353). -/

namespace Sys2Proof.Machine

/-! ## The end of the walk -/

/-- The direct path hands the output list to an Execution Unit that is as after reset (R340; 00_scope.md R12). -/
theorem State.endWalk_direct {s : State} (h : s.mode = .direct) :
    s.endWalk = { State.reset with
      schema := s.schema, mem := s.mem, text := s.text, program := s.decoded, phase := .executing } := by
  rw [State.endWalk, h, State.startExecution, h]
  rfl

/-- `decode` mode ends with the output list, and nothing is executed (00_scope.md R12). -/
theorem State.endWalk_decode {s : State} (h : s.mode = .decode) : s.endWalk = { s with phase := .finished } := by
  rw [State.endWalk, h]

/-- Settles O28: with no byte left the step is the end of the walk, which the mode decides. -/
theorem endOfTheWalk : Obligations.EndOfTheWalk := by
  intro s hphase hnil
  rw [step_of_no_bytes hphase hnil]
  exact ⟨fun h => congrArg _ (State.endWalk_direct h), fun h => congrArg _ (State.endWalk_decode h)⟩

/-! ## Branches -/

/-- A row whose mnemonic is a branch's does nothing but take its place in the trace (R353; 42_branch.md R260). -/
theorem exec_eq_branchState {i : Instr} (h : instrMnemonic i ∉ Spec.executed) (s : State) :
    exec i s = .next (Spec.branchState s) := by
  rw [exec_eq_execMnemonic, execMnemonic_of_not_executed h, branchOp_eq_branchState]

/-- Settles O42: the mnemonic of each of the 20 rows is a branch's, whatever the byte is. -/
theorem branchesDoNothing : Obligations.BranchesDoNothing := by
  intro b s
  and_intros <;> exact exec_eq_branchState (by simp [instrMnemonic, Spec.executed]) s

end Sys2Proof.Machine
end
